-- ==== Sys2Proof/Word.lean ====
section
/-! DEFINITION. The word types of the block (00_scope R7, R10; 20_memory R60). -/

namespace Sys2Proof

/-- A register or bus word, 32 bits (R7, host data width). -/
abbrev Word := BitVec 32

/-- A ByteValue, read unsigned everywhere (R67). -/
abbrev Byte := BitVec 8

/-- A byte address of the block's space, 22 bits (R60). -/
abbrev Addr := BitVec 22

/-- A word address as the port carries it, `bus_addr[21:2]` (R60). -/
abbrev WordAddr := BitVec 20

/-- An index of the NODE store, 9 bits (R42). -/
abbrev NodeIx := BitVec 9

/-- A node frequency, NFREQ_W = 40 bits (R7). -/
abbrev NodeFreq := BitVec 40

/-- A bit string; its first element is the one nearest the root, or the first of the stream (R10). -/
abbrev BitString := List Bool

end Sys2Proof
end

