-- ==== Sys2Proof/Syntax.lean ====
section
/-! DEFINITION. The commands (one constructor per row of spec/opcode_table.json) and the host's program notation (R104). -/

namespace Sys2Proof

/-- The nine commands of R95. A command has no operand field (R91). -/
inductive Instr where
  | nop
  | count
  | build
  | codes
  | encode
  | decode
  | compress
  | decompress
  | clear
deriving DecidableEq, Repr

/-- What the host agent does in one step or, for the two waits, over several (R6, R104, R250). Program text may name an access
that spells no bus transaction (R64), so the address is a byte address and the width, in bytes, is written out. -/
inductive HostOp where
  /-- `WR addr, value`: MemWrite(addr, width, value). -/
  | wr (addr : Addr) (width : Nat) (value : Word)
  /-- `RD addr`: MemRead(addr, width). -/
  | rd (addr : Addr) (width : Nat)
  /-- `WAIT`: read STATUS until BUSY = 0. -/
  | wait
  /-- The host waits until `irq` = 1, with no bus transaction (program P2 of 95_test_vectors). -/
  | waitIrq
  /-- The host asserts and releases `rst_n` (R250). -/
  | rst
deriving DecidableEq, Repr

/-- One line of a host program text, pseudo-instructions included (R104). -/
inductive HostLine where
  | op (o : HostOp)
  /-- `CMD mnemonic` -/
  | cmd (i : Instr)
  /-- `RUN mnemonic` -/
  | run (i : Instr)
  /-- `WRBYTES addr, b0 b1 ...` -/
  | wrBytes (addr : Addr) (bytes : List Byte)
deriving DecidableEq, Repr

/-- A bus transaction as the port presents it (R105): write or read of one aligned word. -/
inductive BusTxn where
  | write (wa : WordAddr) (data : Word)
  | read (wa : WordAddr)
deriving DecidableEq, Repr

end Sys2Proof
end

