-- ==== Sys2Proof/Config.lean ====
section
/-! DEFINITION. What an implementation fixes (the three buffer capacities, R8) and the values the spec leaves free
(R68, R75, R262). -/

namespace Sys2Proof

/-- The named parameters of R8: the capacities, in bytes, of the three buffers. DESIGN CHOICE (log 5), safe: they are carried
in the state, so that a statement about every state holds for every choice of them. -/
structure Config where
  /-- CAP_IBUF -/
  capIbuf : Nat
  /-- CAP_BBUF -/
  capBbuf : Nat
  /-- CAP_OBUF -/
  capObuf : Nat
deriving DecidableEq, Repr

/-- The reference configuration: all three capacities 2^20 (R8). -/
def Config.reference : Config := { capIbuf := 0x100000, capBbuf := 0x100000, capObuf := 0x100000 }

/-- FREE VALUE (log 3), safe. The 32-bit word a host read draws: where R75 says the whole word is a free draw, all of it; where
R68 says that of one byte, that byte's own 8 bits. Nothing constrains it. -/
opaque Config.freeWord : Nat → Word

/-- FREE VALUE (log 2), safe. How many host steps pass between the accept of a command and its completion: unspecified and
finite (R262, D40). -/
opaque Config.latency : Nat → Nat

end Sys2Proof
end

