-- ==== Sys2Proof/WellFormed.lean ====
section
/-! DEFINITION. What a well-formed configuration, command word and host access are. A command as syntax has no field, so every
term of `Instr` is well-formed (R91); what can be ill-formed is the word written to CMD, the access a program text names, and
the parameters. -/

namespace Sys2Proof

/-- A capacity is a multiple of 4 in the range 4 to 2^20 inclusive (R8). -/
def capWellFormed (cap : Nat) : Bool := cap % 4 == 0 && 4 ≤ cap && cap ≤ 0x100000

/-- All three capacities are well-formed (R8). -/
def Config.wellFormed (c : Config) : Bool :=
  capWellFormed c.capIbuf && capWellFormed c.capBbuf && capWellFormed c.capObuf

/-- The command word's reserved bits are zero and its opcode is assigned (R90, R95). -/
def commandWordWellFormed (w : Word) : Bool :=
  w.extractLsb' 8 24 == 0#24 && (w.extractLsb' 0 8).toNat ≤ 8

/-- A command holds no operand field: nothing of it can be ill-formed (R91). -/
def Instr.wellFormed : Instr → Bool
  | .nop => true
  | .count => true
  | .build => true
  | .codes => true
  | .encode => true
  | .decode => true
  | .compress => true
  | .decompress => true
  | .clear => true

/-- The access is an aligned 32-bit word, the only one there is (R64). -/
def accessWellFormed (addr : Addr) (width : Nat) : Bool := width == 4 && addr.toNat % 4 == 0

/-- A host operation spells what the port can present (R64). -/
def HostOp.wellFormed : HostOp → Bool
  | .wr addr width _ => accessWellFormed addr width
  | .rd addr width => accessWellFormed addr width
  | .wait => true
  | .waitIrq => true
  | .rst => true

end Sys2Proof
end

