-- ==== Sys2Proof/Decode.lean ====
section
/-! DEFINITION. The command decoder (R92), the encoder (R95), and the encoding of host programs (R104, R105). -/

namespace Sys2Proof

/-- Why a word names no command. There is one reason, and it carries the word (R92). -/
inductive DecodeError where
  | badCommand (w : Word)
deriving DecidableEq, Repr

/-- The OP field, bits 7:0 (R90). -/
def opField (w : Word) : Byte := w.extractLsb' 0 8

/-- The RSV field, bits 31:8 (R90). -/
def rsvField (w : Word) : BitVec 24 := w.extractLsb' 8 24

/-- The command an opcode names (R95). -/
def decodeOp (op : Byte) : Option Instr :=
  match op.toNat with
  | 0x00 => some .nop
  | 0x01 => some .count
  | 0x02 => some .build
  | 0x03 => some .codes
  | 0x04 => some .encode
  | 0x05 => some .decode
  | 0x06 => some .compress
  | 0x07 => some .decompress
  | 0x08 => some .clear
  | _ => none

/-- Decoding of a command word, total: exactly one command, or BadCommand (R92, R96). -/
def decode (w : Word) : Except DecodeError Instr :=
  if rsvField w ≠ 0#24 then .error (.badCommand w)
  else
    match decodeOp (opField w) with
    | some i => .ok i
    | none => .error (.badCommand w)

/-- The opcode of a command (R95). -/
def opcode : Instr → Byte
  | .nop => 0x00#8
  | .count => 0x01#8
  | .build => 0x02#8
  | .codes => 0x03#8
  | .encode => 0x04#8
  | .decode => 0x05#8
  | .compress => 0x06#8
  | .decompress => 0x07#8
  | .clear => 0x08#8

/-- The command word: OP in bits 7:0, zeros above (R90, R95). -/
def encode (i : Instr) : Word := 0#24 ++ opcode i

/-- The command an instruction word of the opcode table decodes to: one 32-bit word, the bits above `nbits` zero. -/
def decodeTableWord (nbits w : Nat) : Option Instr :=
  match decode (BitVec.ofNat 32 (w % 2 ^ nbits)) with
  | .ok i => some i
  | .error _ => none

/-- The byte address of CMD (R23). -/
def cmdAddr : Addr := 0x000004#22

/-- A little-endian word of four bytes, the first at the lowest address (R66). -/
def wordOfBytes (b0 b1 b2 b3 : Byte) : Word := b3 ++ b2 ++ b1 ++ b0

/-- The word writes of `WRBYTES` (R104): consecutive words, a missing byte of the last one taken as 0x00. -/
def expandBytes (addr : Addr) : List Byte → List HostOp
  | [] => []
  | b0 :: b1 :: b2 :: b3 :: rest => .wr addr 4 (wordOfBytes b0 b1 b2 b3) :: expandBytes (addr + 4#22) rest
  | [b0] => [.wr addr 4 (wordOfBytes b0 0#8 0#8 0#8)]
  | [b0, b1] => [.wr addr 4 (wordOfBytes b0 b1 0#8 0#8)]
  | [b0, b1, b2] => [.wr addr 4 (wordOfBytes b0 b1 b2 0#8)]

/-- A program line's operations (R104): `CMD` is the write of the command's word, `RUN` is that and a `WAIT`. -/
def expandLine : HostLine → List HostOp
  | .op o => [o]
  | .cmd i => [.wr cmdAddr 4 (encode i)]
  | .run i => [.wr cmdAddr 4 (encode i), .wait]
  | .wrBytes addr bytes => expandBytes addr bytes

/-- A program text as the operations its lines stand for, in order (R104, R105). -/
def assemble (lines : List HostLine) : List HostOp := lines.flatMap expandLine

/-- The word address of a byte address, its bits 21:2 (R105). -/
def wordAddrOf (addr : Addr) : WordAddr := addr.extractLsb' 2 20

/-- The bus transaction a WR or RD spells, if it spells one (R64, R105). -/
def HostOp.transaction : HostOp → Option BusTxn
  | .wr addr width value => if accessWellFormed addr width then some (.write (wordAddrOf addr) value) else none
  | .rd addr width => if accessWellFormed addr width then some (.read (wordAddrOf addr)) else none
  | .wait => none
  | .waitIrq => none
  | .rst => none

/-- The triple (we, word address, data) of R105. -/
def BusTxn.triple : BusTxn → Bool × WordAddr × Option Word
  | .write wa data => (true, wa, some data)
  | .read wa => (false, wa, none)

end Sys2Proof
end

