-- ==== Sys2Proof/Machine/State.lean ====
section
/-! DEFINITION. The complete state of the block (R20), the host agent beside it (R6), and the state after reset (R51). -/

namespace Sys2Proof.Machine

/-- The model faults. -/
inductive Fault where
  /-- A command read a buffer byte never written since reset (R129). Raised by COUNT, ENCODE, DECODE, COMPRESS and DECOMPRESS.
  Safe: the spec makes no claim about the state after it. -/
  | uninitRead
deriving DecidableEq, Repr

/-- Why a step has no meaning. -/
inductive Refusal where
  /-- An instruction whose arm has no meaning yet. Raised by no arm of this model. Safe. -/
  | notModelled (mnemonic : String)
  /-- The host's program text names an access that is not an aligned 32-bit word and so spells no bus transaction (R64). Raised
  by the host's WR and RD only. Safe: it errs toward unprovable. -/
  | notABusTransaction
deriving DecidableEq, Repr

/-- The two agents (R6). -/
inductive Agent where
  | host
  | core
deriving DecidableEq, Repr

/-- The STATUS fields (R26). Bits 31:6 are reserved and have no storage. -/
structure Status where
  busy : Bool
  done : Bool
  err : Bool
  ovr : Bool
  treeValid : Bool
  ctabValid : Bool
deriving DecidableEq, Repr

/-- A NODE entry (R42): KIND is the constructor. A leaf's LEFT and RIGHT and an internal node's SYM read 0. -/
inductive Node where
  | leaf (sym : Byte) (freq : NodeFreq)
  | internal (freq : NodeFreq) (left right : NodeIx)
deriving DecidableEq, Repr

/-- The all-zero NODE entry (R101). -/
def Node.zero : Node := .leaf 0#8 0#40

/-- A CTAB entry (R43): `none` is VALID = 0, `some c` is VALID = 1 with CODE = c and LEN = the length of c. -/
abbrev CodeEntry := Option BitString

/-- The bytes of the three buffers by byte address (R44 to R46); an address that is not listed holds `none`. -/
abbrev Memory := List Host.Cell

/-- Canonical form: addresses strictly rising. -/
abbrev Memory.wf (m : Memory) : Prop := m.Pairwise (fun x y => x.1 < y.1)

/-- Error causes, codes 1 to 11 (R220). -/
inductive ErrCause where
  | emptyAlphabet
  | unknownSymbol
  | truncatedStream
  | corruptFrequencyMap
  | badCommand
  | noTree
  | noCodeTable
  | inputTooLong
  | bitBufferOverflow
  | outputOverflow
  | bitCountTooLarge
deriving DecidableEq, Repr

/-- The state: everything R20 lists, and the host agent. ID and CMD have no storage (R24, R25). -/
structure State where
  /-- CAP_IBUF, CAP_BBUF, CAP_OBUF (R8, R40); no step changes them (log 5). -/
  cfg : Config
  /-- STATUS (R26). -/
  status : Status
  /-- CTRL.IRQ_EN (R32). -/
  irqEn : Bool
  /-- ERR_CODE.CODE (R33). -/
  errCode : Byte
  /-- ERR_CODE.OP (R33). -/
  errOp : Byte
  /-- ERR_INFO (R34). -/
  errInfo : Word
  /-- IN_LEN (R35). -/
  inLen : Word
  /-- BIT_CNT (R36). -/
  bitCnt : Word
  /-- OUT_LEN (R37). -/
  outLen : Word
  /-- SYM_CNT (R38). -/
  symCnt : BitVec 9
  /-- NODE_CNT (R38). -/
  nodeCnt : BitVec 10
  /-- ROOT (R38). -/
  root : NodeIx
  /-- TOTAL, read as TOTAL_LO and TOTAL_HI (R39). -/
  total : NodeFreq
  /-- MAX_CODE_LEN (R39). -/
  maxCodeLen : Byte
  /-- FREQ (R41). -/
  freq : Vector Word 256
  /-- NODE (R42). -/
  nodes : Vector Node 512
  /-- CTAB (R43). -/
  ctab : Vector CodeEntry 256
  /-- IBUF, BBUF and OBUF (R44 to R46). -/
  mem : Memory
  /-- PENDING (R47). -/
  pending : Word
  /-- FAULT (R49, log 6). -/
  faultMark : Option Fault
  /-- The model's own (log 2): host steps left before the core agent moves. -/
  delay : Nat
  /-- The host agent's remaining program (R6, log 1). -/
  host : List HostOp
  /-- The model's own (log 4): what the host's reads returned, newest first. -/
  busLog : List (WordAddr × Word)
  /-- The model's own (log 3): the counter that free values are taken at. -/
  draws : Nat
deriving DecidableEq, Repr

/-- The reset values of R51, for given parameters. The four fields of the model's own hold log 1 to log 4's values. -/
def State.resetWith (cfg : Config) : State where
  cfg := cfg
  status := { busy := false, done := false, err := false, ovr := false, treeValid := false, ctabValid := false }
  irqEn := false
  errCode := 0#8
  errOp := 0#8
  errInfo := 0#32
  inLen := 0#32
  bitCnt := 0#32
  outLen := 0#32
  symCnt := 0#9
  nodeCnt := 0#10
  root := 0#9
  total := 0#40
  maxCodeLen := 0#8
  freq := Vector.replicate 256 0#32
  nodes := Vector.replicate 512 Node.zero
  ctab := Vector.replicate 256 none
  mem := []
  pending := 0#32
  faultMark := none
  delay := 0
  host := []
  busLog := []
  draws := 0

/-- The machine right after reset, in the reference configuration (R8, R51). -/
def State.reset : State := State.resetWith Config.reference

end Sys2Proof.Machine
end

