-- ==== Sys2Proof/Machine/Flags.lean ====
section
/-! DEFINITION. Every flag computation of the block: STATUS as a word and its write-one-to-clear (R26 to R31), CTRL, ERR_CODE
and `irq` (R32, R33, R232). There are no condition codes (R50). -/

namespace Sys2Proof.Machine

/-- One flag at one bit of a word. -/
def flagBit (b : Bool) (k : Nat) : Word := if b then BitVec.ofNat 32 (2 ^ k) else 0#32

/-- STATUS as read: bits 0 to 5, the rest 0 (R26). -/
def Status.toWord (st : Status) : Word :=
  flagBit st.busy 0 ||| flagBit st.done 1 ||| flagBit st.err 2 ||| flagBit st.ovr 3 ||| flagBit st.treeValid 4 |||
    flagBit st.ctabValid 5

/-- A write of `v` to STATUS: clears DONE, ERR and OVR where the written bit is 1, and nothing else (R26). -/
def Status.writeOneToClear (st : Status) (v : Word) : Status :=
  { st with
    done := st.done && !v.getLsbD 1
    err := st.err && !v.getLsbD 2
    ovr := st.ovr && !v.getLsbD 3 }

/-- Command accept on the flags: BUSY set, DONE and ERR cleared, the rest kept (R121). -/
def Status.accepted (st : Status) : Status := { st with busy := true, done := false, err := false }

/-- Successful completion on the flags (R126). -/
def Status.completedOk (st : Status) : Status := { st with busy := false, done := true }

/-- Completion in error on the flags (R125). -/
def Status.completedErr (st : Status) : Status := { st with busy := false, done := true, err := true }

/-- CTRL as read (R32). -/
def ctrlWord (irqEn : Bool) : Word := flagBit irqEn 0

/-- ERR_CODE as read: OP in bits 15:8, CODE in bits 7:0 (R33). -/
def errCodeWord (op code : Byte) : Word := 0#16 ++ op ++ code

/-- The numeric code of an error cause (R220). -/
def ErrCause.code : ErrCause → Byte
  | .emptyAlphabet => 1#8
  | .unknownSymbol => 2#8
  | .truncatedStream => 3#8
  | .corruptFrequencyMap => 4#8
  | .badCommand => 5#8
  | .noTree => 6#8
  | .noCodeTable => 7#8
  | .inputTooLong => 8#8
  | .bitBufferOverflow => 9#8
  | .outputOverflow => 10#8
  | .bitCountTooLarge => 11#8

/-- The interrupt output: a level, CTRL.IRQ_EN AND STATUS.DONE (R232). -/
def State.irq (s : State) : Bool := s.irqEn && s.status.done

end Sys2Proof.Machine
end

