-- ==== Sys2Proof/Machine/Ops.lean ====
section
/-! DEFINITION. The named operations over memory, tables and registers that the commands share: buffer bytes, table entries,
accept (R121), the two completions (R125, R126), operations that raise or fault (R124, R129), tree invalidation (R128), reset
(R250) and the choice of the agent that moves (R78, R122). -/

namespace Sys2Proof.Machine

/-! ### Buffers -/

/-- The byte at an address, or `none` where nothing has been written since reset (R44 to R46). -/
def Memory.read : Memory → Nat → Option Byte
  | [], _ => none
  | (k, v) :: rest, a => if k = a then some v else Memory.read rest a

/-- Write one byte, keeping the addresses strictly rising. -/
def Memory.write : Memory → Nat → Byte → Memory
  | [], a, b => [(a, b)]
  | (k, v) :: rest, a, b =>
    if a < k then (a, b) :: (k, v) :: rest
    else if a = k then (a, b) :: rest
    else (k, v) :: Memory.write rest a b

/-- Write consecutive bytes from an address up. -/
def Memory.writeBytes (m : Memory) (a : Nat) : List Byte → Memory
  | [] => m
  | b :: bs => Memory.writeBytes (m.write a b) (a + 1) bs

/-- The `n` bytes from an address up, each a value or `none`. -/
def Memory.readCells (m : Memory) (a n : Nat) : List (Option Byte) := (List.range n).map (fun i => m.read (a + i))

/-- A list of cells that all hold values, as those values. -/
def allValues : List (Option Byte) → Option (List Byte)
  | [] => some []
  | none :: _ => none
  | some b :: rest =>
    match allValues rest with
    | none => none
    | some bs => some (b :: bs)

/-- The `n` bytes from an address up, if every one holds a value. -/
def Memory.readBytes (m : Memory) (a n : Nat) : Option (List Byte) := allValues (m.readCells a n)

/-- The three buffers. -/
inductive Buffer where
  | ibuf
  | bbuf
  | obuf
deriving DecidableEq, Repr

/-- A buffer's base byte address (R61). -/
def Buffer.base : Buffer → Nat
  | .ibuf => 0x100000
  | .bbuf => 0x200000
  | .obuf => 0x300000

/-- A buffer's capacity in bytes (R8). -/
def Buffer.cap (c : Config) : Buffer → Nat
  | .ibuf => c.capIbuf
  | .bbuf => c.capBbuf
  | .obuf => c.capObuf

/-- A byte of a buffer, B[i] (R11). -/
def State.bufByte (s : State) (b : Buffer) (i : Nat) : Option Byte := s.mem.read (b.base + i)

/-! ### Tables -/

/-- The 256 byte values in ascending order. -/
def allBytes : List Byte := (List.range 256).map (BitVec.ofNat 8)

/-- The entries of a table with their byte values, ascending (`for v in 0..255`, R11). -/
def tableEntries {α : Type} (t : Vector α 256) : List (Byte × α) := allBytes.zip t.toList

/-- The table whose entry i is `f i`. -/
def tabulate {α : Type} (n : Nat) (f : Nat → α) : Vector α n := ⟨((List.range n).map f).toArray, by simp⟩

/-- An entry of a table indexed by byte value: FREQ[v], CTAB[v]. -/
def entryAt {α : Type} (t : Vector α 256) (v : Byte) : α := t[v.toNat]'v.isLt

/-- NODE[i]. -/
def nodeAt (nodes : Vector Node 512) (i : NodeIx) : Node := nodes[i.toNat]'i.isLt

/-! ### Accept and completion -/

/-- Command accept (R121). `delay` is the model's own: how many host steps pass before the core moves (log 2). -/
def State.accept (s : State) (w : Word) (delay : Nat) : State :=
  { s with
    pending := w
    status := s.status.accepted
    errCode := 0#8
    errOp := 0#8
    errInfo := 0#32
    delay := delay }

/-- Completion in success (R122, R126): nothing is in flight any more. -/
def State.completeOk (s : State) : State :=
  { s with status := s.status.completedOk, pending := 0#32, delay := 0 }

/-- Completion in error: THE one operation that records an error (R122, R125, R226). -/
def State.completeErr (s : State) (op : Byte) (cause : ErrCause) (info : Word) : State :=
  { s with
    errCode := cause.code
    errOp := op
    errInfo := info
    status := s.status.completedErr
    pending := 0#32
    delay := 0 }

/-- What an operation yields (R124): its writes, an error with the state its finished sub-operations committed, or the model
fault. -/
inductive OpOut where
  | done (s : State)
  | raised (s : State) (op : Byte) (cause : ErrCause) (info : Word)
  | fault (f : Fault)
deriving DecidableEq, Repr

/-- The next sub-operation of a composite runs on what the one before committed; an error or a fault ends it (R124). -/
def OpOut.andThen (o : OpOut) (k : State → OpOut) : OpOut :=
  match o with
  | .done s => k s
  | .raised s op cause info => .raised s op cause info
  | .fault f => .fault f

/-- The end of a command (R122): the outcome applied by R125 or R126. -/
def OpOut.complete : OpOut → Host.Outcome State Fault Refusal
  | .done s => .next s.completeOk
  | .raised s op cause info => .next (s.completeErr op cause info)
  | .fault f => .fault f

/-- A word that names no command completes in error BadCommand, with OP its bits 7:0 and ERR_INFO the word (R92, R96). -/
def State.badCommand (s : State) (w : Word) : State := s.completeErr (opField w) .badCommand w

/-- ERR_INFO of CorruptFrequencyMap: SUB in bits 31:28, DETAIL in bits 27:0 (R221). -/
def corruptInfo (sub : BitVec 4) (detail : BitVec 28) : Word := sub ++ detail

/-! ### Tree invalidation, reset, agents -/

/-- `InvalidateTree` (R128). -/
def State.invalidateTree (s : State) : State :=
  { s with
    status := { s.status with treeValid := false, ctabValid := false }
    symCnt := 0#9
    nodeCnt := 0#10
    root := 0#9
    total := 0#40
    maxCodeLen := 0#8
    nodes := Vector.replicate 512 Node.zero
    ctab := Vector.replicate 256 none }

/-- A reset event: `rst_n` asserted and released (R250). The parameters are no state; the fault mark is cleared by no step
(R49); the host agent and the model's own counters go on (log 7). -/
def State.resetEvent (s : State) : State :=
  { State.resetWith s.cfg with
    faultMark := s.faultMark
    host := s.host
    busLog := s.busLog
    draws := s.draws }

/-- Which agent moves (R78, R122): the core if a command is in flight and its delay has passed, or the host has nothing left to
do; else the host (log 2). -/
def State.turn (s : State) : Agent :=
  if s.status.busy && (s.delay == 0 || s.host.isEmpty) then .core else .host

end Sys2Proof.Machine
end

