-- ==== Sys2Proof/Machine/Operands.lean ====
section
/-! DEFINITION. Operand forms: the address map and what each location reads as (R23, R61, R71 to R73), the words of NODE and
CTAB entries (R101, R102), the packing of bits into bytes and back (R98, R99), and the operands a command reads (R91). -/

namespace Sys2Proof.Machine

/-! ### Bits and bytes -/

/-- The first `w` elements of a bit string, the first in the most significant bit; missing elements are 0. -/
def packBits : (w : Nat) → BitString → BitVec w
  | 0, _ => 0#0
  | w + 1, bits => BitVec.cons (bits.headD false) (packBits w bits.tail)

/-- n divided by d, rounded up. -/
def ceilDiv (n d : Nat) : Nat := (n + d - 1) / d

/-- Element k of the bit sequence held in bytes: bit 7 - (k mod 8) of byte k / 8 (R98). -/
def streamBit (bytes : List Byte) (k : Nat) : Bool := (bytes.getD (k / 8) 0#8).getLsbD (7 - k % 8)

/-- Elements 0 to n - 1 of the bit sequence held in bytes (R98). -/
def streamBits (bytes : List Byte) (n : Nat) : BitString := (List.range n).map (streamBit bytes)

/-- How many bytes N stream bits are written as: whole words (R99). -/
def packedLen (n : Nat) : Nat := 4 * ceilDiv (ceilDiv n 8) 4

/-- Byte j of a packed bit string: elements 8j to 8j + 7, zeros past its end (R98, R99). -/
def packedByte (bits : BitString) (j : Nat) : Byte := packBits 8 (bits.drop (8 * j))

/-- A bit string as the bytes BBUF takes (R99). -/
def packedBytes (bits : BitString) : List Byte := (List.range (packedLen bits.length)).map (packedByte bits)

/-- Output bytes zero-filled to the word boundary (R186, D13). -/
def paddedBytes (out : List Byte) : List Byte := out ++ List.replicate (4 * ceilDiv out.length 4 - out.length) 0#8

/-! ### Node and code entries as seen from the bus -/

/-- The node frequency F (R42). -/
def Node.freq : Node → NodeFreq
  | .leaf _ f => f
  | .internal f _ _ => f

/-- LEFT, 0 for a leaf (R42). -/
def Node.left : Node → NodeIx
  | .leaf _ _ => 0#9
  | .internal _ l _ => l

/-- RIGHT, 0 for a leaf (R42). -/
def Node.right : Node → NodeIx
  | .leaf _ _ => 0#9
  | .internal _ _ r => r

/-- SYM, 0 for an internal node (R42). -/
def Node.sym : Node → Byte
  | .leaf s _ => s
  | .internal _ _ _ => 0#8

/-- KIND, 0 for a leaf and 1 for an internal node (R42). -/
def Node.kind : Node → BitVec 1
  | .leaf _ _ => 0#1
  | .internal _ _ _ => 1#1

/-- Word w of a NODE entry (R101). -/
def Node.word (n : Node) (w : BitVec 2) : Word :=
  match w.toNat with
  | 0 => n.freq.extractLsb' 0 32
  | 1 => 0#24 ++ n.freq.extractLsb' 32 8
  | 2 => 0#16 ++ n.sym ++ 0#7 ++ n.kind
  | _ => 0#7 ++ n.right ++ 0#7 ++ n.left

/-- Word w of a CTAB entry (R102): VALID in bit 31 and LEN in bits 7:0 of word 0; CODE, its first element in the most
significant bit, in words 1 to 8; words 9 to 15 zero. -/
def codeWord (c : CodeEntry) (w : BitVec 4) : Word :=
  match c with
  | none => 0#32
  | some code =>
    if w.toNat = 0 then 1#1 ++ 0#23 ++ BitVec.ofNat 8 code.length
    else if w.toNat ≤ 8 then packBits 32 (code.drop (32 * (w.toNat - 1)))
    else 0#32

/-! ### The address map -/

/-- The registers of R23, in the order of their offsets. -/
inductive RegName where
  | id
  | cmd
  | status
  | ctrl
  | errCode
  | errInfo
  | inLen
  | bitCnt
  | outLen
  | symCnt
  | nodeCnt
  | root
  | totalLo
  | totalHi
  | maxCodeLen
  | capIbuf
  | capBbuf
  | capObuf
deriving DecidableEq, Repr

/-- What a word address names (R61). -/
inductive Location where
  | reg (r : RegName)
  | freq (v : Byte)
  | node (i : NodeIx) (w : BitVec 2)
  | ctab (v : Byte) (w : BitVec 4)
  | buffer (b : Buffer) (off : Nat)
  | reserved
deriving DecidableEq, Repr

/-- The register at a word offset of the register page (R23), if there is one. -/
def regAt : Nat → Option RegName
  | 0 => some .id
  | 1 => some .cmd
  | 2 => some .status
  | 3 => some .ctrl
  | 4 => some .errCode
  | 5 => some .errInfo
  | 6 => some .inLen
  | 7 => some .bitCnt
  | 8 => some .outLen
  | 9 => some .symCnt
  | 10 => some .nodeCnt
  | 11 => some .root
  | 12 => some .totalLo
  | 13 => some .totalHi
  | 14 => some .maxCodeLen
  | 15 => some .capIbuf
  | 16 => some .capBbuf
  | 17 => some .capObuf
  | _ => none

/-- A buffer's window: the word at offset `off` if it lies within the capacity, else reserved (R61, R68). -/
def bufferWindow (c : Config) (b : Buffer) (off : Nat) : Location :=
  if off + 4 ≤ b.cap c then .buffer b off else .reserved

/-- The address map (R61). -/
def locate (c : Config) (wa : WordAddr) : Location :=
  let a := 4 * wa.toNat
  if a < 0x400 then
    match regAt (a / 4) with
    | some r => .reg r
    | none => .reserved
  else if a < 0x800 then .freq (BitVec.ofNat 8 ((a - 0x400) / 4))
  else if a < 0x4000 then .reserved
  else if a < 0x6000 then .node (BitVec.ofNat 9 ((a - 0x4000) / 16)) (BitVec.ofNat 2 ((a - 0x4000) / 4))
  else if a < 0x8000 then .reserved
  else if a < 0xC000 then .ctab (BitVec.ofNat 8 ((a - 0x8000) / 64)) (BitVec.ofNat 4 ((a - 0x8000) / 4))
  else if a < 0x100000 then .reserved
  else if a < 0x200000 then bufferWindow c .ibuf (a - 0x100000)
  else if a < 0x300000 then bufferWindow c .bbuf (a - 0x200000)
  else bufferWindow c .obuf (a - 0x300000)

/-- A register's value (R24 to R40); CMD reads 0. -/
def State.regWord (s : State) : RegName → Word
  | .id => 0x48554631#32
  | .cmd => 0#32
  | .status => s.status.toWord
  | .ctrl => ctrlWord s.irqEn
  | .errCode => errCodeWord s.errOp s.errCode
  | .errInfo => s.errInfo
  | .inLen => s.inLen
  | .bitCnt => s.bitCnt
  | .outLen => s.outLen
  | .symCnt => s.symCnt.setWidth 32
  | .nodeCnt => s.nodeCnt.setWidth 32
  | .root => s.root.setWidth 32
  | .totalLo => s.total.extractLsb' 0 32
  | .totalHi => 0#24 ++ s.total.extractLsb' 32 8
  | .maxCodeLen => s.maxCodeLen.setWidth 32
  | .capIbuf => BitVec.ofNat 32 s.cfg.capIbuf
  | .capBbuf => BitVec.ofNat 32 s.cfg.capBbuf
  | .capObuf => BitVec.ofNat 32 s.cfg.capObuf

/-! ### Operands of the commands -/

/-- IBUF[0 .. IN_LEN - 1], each a value or `none` (R35, R91). -/
def State.inputCells (s : State) : List (Option Byte) := s.mem.readCells Buffer.ibuf.base s.inLen.toNat

/-- The same, if every byte holds a value. -/
def State.inputBytes (s : State) : Option (List Byte) := s.mem.readBytes Buffer.ibuf.base s.inLen.toNat

/-- BBUF[0 .. ceil(BIT_CNT / 8) - 1], if every byte holds a value (R99, R186). -/
def State.streamBytes (s : State) : Option (List Byte) := s.mem.readBytes Buffer.bbuf.base (ceilDiv s.bitCnt.toNat 8)

/-- The sum of the FREQ entries, read unsigned (R204). -/
def State.freqSum (s : State) : Nat := (s.freq.toList.map BitVec.toNat).sum

end Sys2Proof.Machine
end

