-- ==== Sys2Proof/Machine/Bus.lean ====
section
/-! DEFINITION. The host agent: MemRead and MemWrite on the address map, idle and busy (R62 to R75), and one step of the host's
program (R104, R250). -/

namespace Sys2Proof.Machine

/-- A byte of a buffer as a host word read sees it: its value, or its own 8 bits of the free draw (R68). -/
def drawnByte (cell : Option Byte) (draw : Word) (lane : Nat) : Byte := cell.getD (draw.extractLsb' (8 * lane) 8)

/-- A buffer word (R66, R68): the byte at the lowest address in bits 7:0. -/
def State.bufferWord (s : State) (b : Buffer) (off : Nat) (draw : Word) : Word :=
  wordOfBytes (drawnByte (s.bufByte b off) draw 0) (drawnByte (s.bufByte b (off + 1)) draw 1)
    (drawnByte (s.bufByte b (off + 2)) draw 2) (drawnByte (s.bufByte b (off + 3)) draw 3)

/-- What a location reads as while idle (R62). -/
def State.readIdle (s : State) (draw : Word) : Location → Word
  | .reg r => s.regWord r
  | .freq v => entryAt s.freq v
  | .node i w => (nodeAt s.nodes i).word w
  | .ctab v w => codeWord (entryAt s.ctab v) w
  | .buffer b off => s.bufferWord b off draw
  | .reserved => 0#32

/-- The registers that read as when idle while a command is in flight (R75). -/
def RegName.readableBusy : RegName → Bool
  | .id => true
  | .cmd => true
  | .status => true
  | .ctrl => true
  | .capIbuf => true
  | .capBbuf => true
  | .capObuf => true
  | .errCode => false
  | .errInfo => false
  | .inLen => false
  | .bitCnt => false
  | .outLen => false
  | .symCnt => false
  | .nodeCnt => false
  | .root => false
  | .totalLo => false
  | .totalHi => false
  | .maxCodeLen => false

/-- The locations that read as when idle while a command is in flight (R75). -/
def Location.readableBusy : Location → Bool
  | .reg r => r.readableBusy
  | .freq _ => false
  | .node _ _ => false
  | .ctab _ _ => false
  | .buffer _ _ => false
  | .reserved => true

/-- MemRead (R62, R75): the value of the word at a word address. It changes no state of the block. -/
def State.busRead (s : State) (wa : WordAddr) : Word :=
  let loc := locate s.cfg wa
  if s.status.busy && !loc.readableBusy then Config.freeWord s.draws else s.readIdle (Config.freeWord s.draws) loc

/-- A host read as a step: the value goes to the host, and the next read draws anew (R68, R75; log 3, log 4). -/
def State.hostRead (s : State) (wa : WordAddr) : State :=
  { s with busLog := (wa, s.busRead wa) :: s.busLog, draws := s.draws + 1 }

/-- A protected write: dropped with OVR set while a command is in flight (R74). -/
def State.protectedWrite (s : State) (written : State) : State :=
  if s.status.busy then { s with status := { s.status with ovr := true } } else written

/-- The four bytes of a word, lowest address first (R66, R69). -/
def bytesOfWord (v : Word) : List Byte :=
  [v.extractLsb' 0 8, v.extractLsb' 8 8, v.extractLsb' 16 8, v.extractLsb' 24 8]

/-- A write to a register (R25 to R40, R63, R74). A CMD write is the accept of a command, with its latency drawn. -/
def State.writeReg (s : State) (v : Word) : RegName → State
  | .cmd => s.protectedWrite { s.accept v (Config.latency s.draws) with draws := s.draws + 1 }
  | .status => { s with status := s.status.writeOneToClear v }
  | .ctrl => { s with irqEn := v.getLsbD 0 }
  | .inLen => s.protectedWrite { s with inLen := v }
  | .bitCnt => s.protectedWrite { s with bitCnt := v }
  | .id => s
  | .errCode => s
  | .errInfo => s
  | .outLen => s
  | .symCnt => s
  | .nodeCnt => s
  | .root => s
  | .totalLo => s
  | .totalHi => s
  | .maxCodeLen => s
  | .capIbuf => s
  | .capBbuf => s
  | .capObuf => s

/-- A write to a buffer word (R69): IBUF and BBUF only, OBUF is read-only. -/
def State.writeBuffer (s : State) (off : Nat) (v : Word) : Buffer → State
  | .ibuf => s.protectedWrite { s with mem := s.mem.writeBytes (Buffer.ibuf.base + off) (bytesOfWord v) }
  | .bbuf => s.protectedWrite { s with mem := s.mem.writeBytes (Buffer.bbuf.base + off) (bytesOfWord v) }
  | .obuf => s

/-- MemWrite (R63, R65, R74). -/
def State.busWrite (s : State) (wa : WordAddr) (v : Word) : State :=
  match locate s.cfg wa with
  | .reg r => s.writeReg v r
  | .freq x => s.protectedWrite { s with freq := s.freq.set x.toNat v x.isLt }
  | .node _ _ => s
  | .ctab _ _ => s
  | .buffer b off => s.writeBuffer off v b
  | .reserved => s

/-- A bus transaction (R105). -/
def State.busDo (s : State) : BusTxn → State
  | .write wa v => s.busWrite wa v
  | .read wa => s.hostRead wa

/-- The word address of STATUS (R23). -/
def statusWordAddr : WordAddr := 2#20

/-- The host's program moves past its first line, and a command in flight comes one host step nearer (log 2). -/
def State.hostAdvance (s : State) (rest : List HostOp) : State := { s with host := rest, delay := s.delay - 1 }

/-- A WR or RD line: its bus transaction, or a refusal where it spells none (R64, R105). -/
def State.hostTransact (s : State) (op : HostOp) (rest : List HostOp) : Host.Outcome State Fault Refusal :=
  match op.transaction with
  | some t => .next ((s.hostAdvance rest).busDo t)
  | none => .refused .notABusTransaction

/-- One host step. With nothing left to do the host does nothing (log 8). `WAIT` reads STATUS and stays while BUSY = 1 (R104);
`waitIrq` stays while `irq` = 0 (R232). -/
def hostStep (s : State) : Host.Outcome State Fault Refusal :=
  match s.host with
  | [] => .next s
  | .wr addr width v :: rest => s.hostTransact (.wr addr width v) rest
  | .rd addr width :: rest => s.hostTransact (.rd addr width) rest
  | .wait :: rest =>
    .next ((s.hostAdvance (if s.status.busy then .wait :: rest else rest)).hostRead statusWordAddr)
  | .waitIrq :: rest => .next (s.hostAdvance (if s.irq then rest else .waitIrq :: rest))
  | .rst :: rest => .next (s.hostAdvance rest).resetEvent

end Sys2Proof.Machine
end

