-- ==== Sys2Proof/Machine/Control.lean ====
section
/-! DEFINITION. The control commands NOP and CLEAR (46_control_commands). -/

namespace Sys2Proof.Machine

/-- CLEAR's writes (R212): FREQ zero, `InvalidateTree`, IN_LEN, BIT_CNT and OUT_LEN zero; CTRL, OVR and the buffers kept. -/
def State.cleared (s : State) : State :=
  { s.invalidateTree with
    freq := Vector.replicate 256 0#32
    inLen := 0#32
    bitCnt := 0#32
    outLen := 0#32 }

/-- NOP completes without effect (R210). -/
def execNop (s : State) : Host.Outcome State Fault Refusal := (OpOut.done s).complete

/-- CLEAR (R212). -/
def execClear (s : State) : Host.Outcome State Fault Refusal := (OpOut.done s.cleared).complete

end Sys2Proof.Machine
end

