-- ==== Sys2Proof/Machine/CodeTable.lean ====
section
/-! DEFINITION. The CodeTableBuilder, command CODES (43_code_table). -/

namespace Sys2Proof.Machine

/-- The leaves below a node with their path codes, LEFT before RIGHT (R170 `walk`, R172). `fuel` bounds the depth; 512, the
number of entries, is more than the depth of any tree held in NODE (log 10). -/
def pathCodes (nodes : Vector Node 512) : Nat → NodeIx → BitString → List (Byte × BitString)
  | 0, _, _ => []
  | fuel + 1, i, p =>
    match nodeAt nodes i with
    | .leaf sym _ => [(sym, p)]
    | .internal _ l r => pathCodes nodes fuel l (p ++ [false]) ++ pathCodes nodes fuel r (p ++ [true])

/-- The codes of the tree at a root, in the order they are recorded: the one-bit code 0 for a root that is a leaf (R171), else
the path codes (R172). -/
def treeCodes (nodes : Vector Node 512) (root : NodeIx) : List (Byte × BitString) :=
  match nodeAt nodes root with
  | .leaf sym _ => [(sym, [false])]
  | .internal _ _ _ => pathCodes nodes 512 root []

/-- The code recorded for v, the last one recorded standing; `none` where v is absent (R170). -/
def codeOf (codes : List (Byte × BitString)) (v : Byte) : CodeEntry := codes.reverse.lookup v

/-- The table of the recorded codes (R170). -/
def codeTable (codes : List (Byte × BitString)) : Vector CodeEntry 256 :=
  tabulate 256 (fun v => codeOf codes (BitVec.ofNat 8 v))

/-- LEN of an entry, 0 when VALID = 0 (R102). -/
def codeLen : CodeEntry → Nat
  | none => 0
  | some c => c.length

/-- The greatest LEN in a table (R39). -/
def maxLen (t : Vector CodeEntry 256) : Nat := (t.toList.map codeLen).foldl max 0

/-- CODES as an operation (R170): also a sub-operation of COMPRESS. -/
def opCodes (s : State) : OpOut :=
  if s.status.treeValid then
    let table := codeTable (treeCodes s.nodes s.root)
    .done
      { s with
        ctab := table
        maxCodeLen := BitVec.ofNat 8 (maxLen table)
        status := { s.status with ctabValid := true } }
  else .raised s (opcode .codes) .noTree 0#32

/-- CODES (R170). -/
def execCodes (s : State) : Host.Outcome State Fault Refusal := (opCodes s).complete

end Sys2Proof.Machine
end

