-- ==== Sys2Proof/Machine/Codec.lean ====
section
/-! DEFINITION. The BitstreamCodec, commands ENCODE and DECODE (44_bitstream_codec). -/

namespace Sys2Proof.Machine

/-- What ends the encoding of a byte before the input does (R180). -/
inductive EncodeStop where
  /-- The byte is `none`. -/
  | uninit
  /-- The byte at this index has no code. -/
  | unknown (i : Nat)
deriving DecidableEq, Repr

/-- The concatenated codes of the input, checked byte by byte in ascending index, `i` the index of the first (R180, R181). -/
def encodeCells (ctab : Vector CodeEntry 256) (i : Nat) : List (Option Byte) → Except EncodeStop BitString
  | [] => .ok []
  | none :: _ => .error .uninit
  | some b :: rest =>
    match entryAt ctab b with
    | none => .error (.unknown i)
    | some code =>
      match encodeCells ctab (i + 1) rest with
      | .error e => .error e
      | .ok bits => .ok (code ++ bits)

/-- ENCODE's commit: whole words of BBUF, zero padded, and BIT_CNT (R99, R180). -/
def State.commitStream (s : State) (bits : BitString) : State :=
  { s with
    mem := s.mem.writeBytes Buffer.bbuf.base (packedBytes bits)
    bitCnt := BitVec.ofNat 32 bits.length }

/-- ENCODE as an operation (R180): also the last sub-operation of COMPRESS. -/
def opEncode (s : State) : OpOut :=
  if s.cfg.capIbuf < s.inLen.toNat then .raised s (opcode .encode) .inputTooLong s.inLen
  else if s.inLen = 0#32 then .done { s with bitCnt := 0#32 }
  else if s.status.ctabValid then
    match encodeCells s.ctab 0 s.inputCells with
    | .error .uninit => .fault .uninitRead
    | .error (.unknown i) => .raised s (opcode .encode) .unknownSymbol (BitVec.ofNat 32 i)
    | .ok bits =>
      if 8 * s.cfg.capBbuf < bits.length then
        .raised s (opcode .encode) .bitBufferOverflow (BitVec.ofNat 32 bits.length)
      else .done (s.commitStream bits)
  else .raised s (opcode .encode) .noCodeTable 0#32

/-- ENCODE (R180). -/
def execEncode (s : State) : Host.Outcome State Fault Refusal := (opEncode s).complete

/-- The child a bit leads to: 0 LEFT, 1 RIGHT (R189). -/
def child (nodes : Vector Node 512) (p : NodeIx) (bit : Bool) : NodeIx :=
  if bit then (nodeAt nodes p).right else (nodeAt nodes p).left

/-- The general decode walk (R186, R189): `k` is the index of the next bit, `p` the walk pointer, `start` the index where the
code being read began. The bytes emitted, or the start of the code the stream ends in (R191). -/
def walkBits (nodes : Vector Node 512) (root : NodeIx) : BitString → Nat → NodeIx → Nat → Except Nat (List Byte)
  | [], _, p, start => if p = root then .ok [] else .error start
  | bit :: rest, k, p, start =>
    let start' := if p = root then k else start
    let q := child nodes p bit
    match nodeAt nodes q with
    | .leaf sym _ =>
      match walkBits nodes root rest (k + 1) root start' with
      | .ok out => .ok (sym :: out)
      | .error e => .error e
    | .internal _ _ _ => walkBits nodes root rest (k + 1) q start'

/-- The bytes a bit sequence decodes to under the tree at a root: its symbol once per bit for a root that is a leaf (R188), else
the walk (R189). -/
def decodeBits (nodes : Vector Node 512) (root : NodeIx) (bits : BitString) : Except Nat (List Byte) :=
  match nodeAt nodes root with
  | .leaf sym _ => .ok (List.replicate bits.length sym)
  | .internal _ _ _ => walkBits nodes root bits 0 root 0

/-- DECODE's commit: OBUF zero-filled to the word, and OUT_LEN (R186). -/
def State.commitOutput (s : State) (out : List Byte) : State :=
  { s with
    mem := s.mem.writeBytes Buffer.obuf.base (paddedBytes out)
    outLen := BitVec.ofNat 32 out.length }

/-- The end of a decoding (R186): the capacity check and the commit. -/
def State.emitOutput (s : State) (out : List Byte) : OpOut :=
  if s.cfg.capObuf < out.length then .raised s (opcode .decode) .outputOverflow (BitVec.ofNat 32 out.length)
  else .done (s.commitOutput out)

/-- DECODE as an operation (R186). -/
def opDecode (s : State) : OpOut :=
  if 8 * s.cfg.capBbuf < s.bitCnt.toNat then .raised s (opcode .decode) .bitCountTooLarge s.bitCnt
  else if s.bitCnt = 0#32 then .done { s with outLen := 0#32 }
  else if s.status.treeValid then
    match s.streamBytes with
    | none => .fault .uninitRead
    | some bytes =>
      match decodeBits s.nodes s.root (streamBits bytes s.bitCnt.toNat) with
      | .error start => .raised s (opcode .decode) .truncatedStream (BitVec.ofNat 32 start)
      | .ok out => s.emitOutput out
  else .raised s (opcode .decode) .noTree 0#32

/-- DECODE (R186). -/
def execDecode (s : State) : Host.Outcome State Fault Refusal := (opDecode s).complete

end Sys2Proof.Machine
end

