-- ==== Sys2Proof/Machine/Counter.lean ====
section
/-! DEFINITION. The FrequencyCounter, command COUNT (41_frequency_counter). -/

namespace Sys2Proof.Machine

/-- The FREQ table of a byte string: entry v is how often v occurs (R140). -/
def countTable (bytes : List Byte) : Vector Word 256 :=
  tabulate 256 (fun v => BitVec.ofNat 32 (bytes.count (BitVec.ofNat 8 v)))

/-- COUNT as an operation (R140): also the first sub-operation of COMPRESS. -/
def opCount (s : State) : OpOut :=
  if s.cfg.capIbuf < s.inLen.toNat then .raised s (opcode .count) .inputTooLong s.inLen
  else
    match s.inputBytes with
    | none => .fault .uninitRead
    | some bytes => .done { s with freq := countTable bytes }

/-- COUNT (R140). -/
def execCount (s : State) : Host.Outcome State Fault Refusal := (opCount s).complete

end Sys2Proof.Machine
end

