-- ==== Sys2Proof/Machine/Tree.lean ====
section
/-! DEFINITION. The TreeBuilder, command BUILD (42_tree_builder). The scratch node store N of R150 is a list whose element i is
N[i]; the pool is a list of keys (F, index), so that a pool element is a node's index together with its frequency. -/

namespace Sys2Proof.Machine

/-- The key of a pool element (R150, R155): its node's frequency and its index, its sequence number. -/
structure PoolKey where
  freq : Nat
  idx : Nat
deriving DecidableEq, Repr

/-- Lexicographic order of keys: smaller F first, then smaller index (R150). -/
def PoolKey.before (x y : PoolKey) : Bool := x.freq < y.freq || (x.freq == y.freq && x.idx < y.idx)

/-- The element of least key among `x` and a list. -/
def leastKey (x : PoolKey) : List PoolKey → PoolKey
  | [] => x
  | y :: ys => leastKey (if y.before x then y else x) ys

/-- Extract the element of least key from the pool (R154). -/
def extractLeast : List PoolKey → Option (PoolKey × List PoolKey)
  | [] => none
  | x :: xs => some (leastKey x xs, (x :: xs).erase (leastKey x xs))

/-- One merge (R154, R155): the two elements of least key leave the pool, the first becomes LEFT and the second RIGHT of a new
node, whose index is the next one. `none` when fewer than two remain. -/
def mergeOnce (store : List Node) (pool : List PoolKey) : Option (List Node × List PoolKey) :=
  match extractLeast pool with
  | none => none
  | some (a, pool1) =>
    match extractLeast pool1 with
    | none => none
    | some (b, pool2) =>
      some
        (store ++ [.internal (BitVec.ofNat 40 (a.freq + b.freq)) (BitVec.ofNat 9 a.idx) (BitVec.ofNat 9 b.idx)],
          pool2 ++ [{ freq := a.freq + b.freq, idx := store.length }])

/-- Merges until one element remains (R154): `fuel` merges are enough for a pool of `fuel + 1` elements. -/
def mergeAll : Nat → List Node → List PoolKey → List Node × List PoolKey
  | 0, store, pool => (store, pool)
  | fuel + 1, store, pool =>
    match mergeOnce store pool with
    | none => (store, pool)
    | some (store', pool') => mergeAll fuel store' pool'

/-- The entries of the present symbols, ascending (R151). -/
def presentEntries (freq : Vector Word 256) : List (Byte × Word) := (tableEntries freq).filter (fun e => e.2 != 0#32)

/-- The present symbols, ascending: P of R150 (R151). -/
def presentSymbols (freq : Vector Word 256) : List Byte := (presentEntries freq).map Prod.fst

/-- The smallest byte value whose entry is negative (R150 check 1, R152). -/
def firstNegative (freq : Vector Word 256) : Option Byte := ((tableEntries freq).find? (fun e => e.2.msb)).map Prod.fst

/-- The leaves, in ascending byte value (R153). -/
def leafStore (present : List (Byte × Word)) : List Node := present.map (fun e => .leaf e.1 (e.2.setWidth 40))

/-- The pool of the leaves: leaf j has index j (R150, R153). -/
def leafPool (present : List (Byte × Word)) : List PoolKey :=
  present.zipIdx.map (fun p => { freq := p.1.2.toNat, idx := p.2 })

/-- The node store of a FREQ table, and the pool when merging stops (R150). -/
def buildStore (freq : Vector Word 256) : List Node × List PoolKey :=
  let present := presentEntries freq
  mergeAll (present.length - 1) (leafStore present) (leafPool present)

/-- The index of the only element of the pool (R150). -/
def poolRoot (pool : List PoolKey) : Nat := (pool.map PoolKey.idx).headD 0

/-- BUILD's commit (R150, R157). -/
def State.commitTree (s : State) (n : Nat) (store : List Node) (r : Nat) : State :=
  { s with
    nodes := tabulate 512 (fun i => if i < 2 * n - 1 then store.getD i Node.zero else Node.zero)
    ctab := Vector.replicate 256 none
    symCnt := BitVec.ofNat 9 n
    nodeCnt := BitVec.ofNat 10 (2 * n - 1)
    root := BitVec.ofNat 9 r
    total := (store.getD r Node.zero).freq
    maxCodeLen := 0#8
    status := { s.status with treeValid := true, ctabValid := false } }

/-- BUILD as an operation (R150): also a sub-operation of COMPRESS and DECOMPRESS. -/
def opBuild (s : State) : OpOut :=
  match firstNegative s.freq with
  | some v => .raised s (opcode .build) .corruptFrequencyMap (corruptInfo 3#4 (0#20 ++ v))
  | none =>
    if (presentSymbols s.freq).isEmpty then .raised s (opcode .build) .emptyAlphabet 0#32
    else
      let built := buildStore s.freq
      .done (s.commitTree (presentSymbols s.freq).length built.1 (poolRoot built.2))

/-- BUILD (R150). -/
def execBuild (s : State) : Host.Outcome State Fault Refusal := (opBuild s).complete

end Sys2Proof.Machine
end

