-- ==== Sys2Proof/Machine/Entry.lean ====
section
/-! DEFINITION. The core entry points, commands COMPRESS and DECOMPRESS (45_entry_points). -/

namespace Sys2Proof.Machine

/-- COMPRESS as an operation (R200): COUNT; for an empty input `InvalidateTree` and BIT_CNT zero (R201); else BUILD, CODES and
ENCODE, each committing before the next (R124). -/
def opCompress (s : State) : OpOut :=
  (opCount s).andThen fun s1 =>
    if s1.inLen = 0#32 then .done { s1.invalidateTree with bitCnt := 0#32 }
    else ((opBuild s1).andThen opCodes).andThen opEncode

/-- COMPRESS (R200). -/
def execCompress (s : State) : Host.Outcome State Fault Refusal := (opCompress s).complete

/-- The decode phase of DECOMPRESS, after BUILD has committed (R204, R205): `total` is T, the sum of the frequencies. -/
def decodePhase (total : Nat) (s : State) : OpOut :=
  if s.bitCnt = 0#32 then .raised s (opcode .decompress) .corruptFrequencyMap (corruptInfo 2#4 0#28)
  else
    match s.streamBytes with
    | none => .fault .uninitRead
    | some bytes =>
      match decodeBits s.nodes s.root (streamBits bytes s.bitCnt.toNat) with
      | .error start => .raised s (opcode .decode) .truncatedStream (BitVec.ofNat 32 start)
      | .ok out =>
        if out.length ≠ total then
          .raised s (opcode .decompress) .corruptFrequencyMap (corruptInfo 2#4 (BitVec.ofNat 28 out.length))
        else s.emitOutput out

/-- DECOMPRESS as an operation (R204). -/
def opDecompress (s : State) : OpOut :=
  if 8 * s.cfg.capBbuf < s.bitCnt.toNat then .raised s (opcode .decompress) .bitCountTooLarge s.bitCnt
  else
    match firstNegative s.freq with
    | some v => .raised s (opcode .decompress) .corruptFrequencyMap (corruptInfo 3#4 (0#20 ++ v))
    | none =>
      if s.freqSum = 0 then
        if s.bitCnt = 0#32 then .done { s.invalidateTree with outLen := 0#32 }
        else .raised s (opcode .decompress) .corruptFrequencyMap (corruptInfo 1#4 0#28)
      else (opBuild s).andThen (decodePhase s.freqSum)

/-- DECOMPRESS (R204). -/
def execDecompress (s : State) : Host.Outcome State Fault Refusal := (opDecompress s).complete

end Sys2Proof.Machine
end

