-- ==== Sys2Proof/Machine/Step.lean ====
section
/-! DEFINITION. One step of the machine: the completion of the command in flight, or one host step (R6, R78, R122). -/

namespace Sys2Proof.Machine

/-- The completion step (R122): decode PENDING, run the command; a word that names none completes as BadCommand (R92). -/
def coreStep (s : State) : Host.Outcome State Fault Refusal :=
  match decode s.pending with
  | .ok i => exec i s
  | .error (.badCommand w) => .next (s.badCommand w)

/-- One step. A state that carries the fault mark is not final and goes nowhere (R49, log 6). -/
def step (s : State) : Host.Outcome State Fault Refusal :=
  match s.faultMark with
  | some f => .fault f
  | none =>
    match s.turn with
    | .core => coreStep s
    | .host => hostStep s

/-- The state in which the very next step runs the command word `w` (log 9): the word accepted as a CMD write accepts it (R121),
with no host step to come before its completion, and no fault mark. -/
def State.withFetchWord (s : State) (nbits w : Nat) : State :=
  { s.accept (BitVec.ofNat 32 (w % 2 ^ nbits)) 0 with faultMark := none }

end Sys2Proof.Machine
end

