-- ==== Sys2Proof/Safety.lean ====
section
/-! DEFINITION. What counts as a safe state, in the terms the statements use: the invariants of the machine, what a path of the
tree is, and the bit sequences of the buffers. Each invariant is meant for every state a run reaches. -/

namespace Sys2Proof.Machine

/-! ### Memory -/

/-- The address lies in one of the three buffers (R61). -/
def inBuffer (c : Config) (a : Nat) : Prop := ∃ b : Buffer, b.base ≤ a ∧ a < b.base + b.cap c

/-- The parameters are as R8 says, memory is in canonical form, and it lists buffer bytes only (R61). -/
structure State.MemInv (s : State) : Prop where
  cfg : s.cfg.wellFormed = true
  canonical : s.mem.wf
  placed : ∀ cell ∈ s.mem, inBuffer s.cfg cell.1

/-! ### The life of a command -/

/-- What accept and completion keep true of the flags and the error record (R27 to R34, R47, R121, R125, R126). -/
structure State.LifeInv (s : State) : Prop where
  /-- Outside a command PENDING is 0 (R122) and no delay is left. -/
  idle : s.status.busy = false → s.pending = 0#32 ∧ s.delay = 0
  /-- While a command is in flight the completion flags and the record are clear (R121). -/
  inFlight : s.status.busy = true → s.status.done = false ∧ s.status.err = false ∧ s.errCode = 0#8
  /-- ERR is set only beside a code (R29, R33). -/
  errHasCode : s.status.err = true → s.errCode ≠ 0#8
  /-- No code, no record (R33, R34). -/
  noCodeNoRecord : s.errCode = 0#8 → s.errOp = 0#8 ∧ s.errInfo = 0#32
  /-- Codes 12 to 255 are never produced (R220). -/
  codeRange : s.errCode.toNat ≤ 11

/-! ### The tree -/

/-- NODE[i] by its number. -/
def nodeNo (nodes : Vector Node 512) (i : Nat) : Node := nodeAt nodes (BitVec.ofNat 9 i)

/-- The node numbered c is a child of the node numbered p. -/
def isChild (nodes : Vector Node 512) (p c : Nat) : Prop :=
  ∃ f l r, nodeNo nodes p = .internal f l r ∧ (l.toNat = c ∨ r.toNat = c)

/-- NODE holds a tree of n leaves (R42, R153, R154, R157): the leaves first, in ascending byte value, each of positive
frequency; then the internal nodes, each with two different children numbered below it whose frequencies sum to its own; every
node but the last is the child of exactly one node; the entries above the tree are all zero. -/
structure IsTree (nodes : Vector Node 512) (n : Nat) : Prop where
  size : 1 ≤ n ∧ n ≤ 256
  leaves : ∀ j, j < n → ∃ sym f, nodeNo nodes j = .leaf sym f ∧ 0 < f.toNat
  ascending : ∀ i j, i < j → j < n → (nodeNo nodes i).sym.toNat < (nodeNo nodes j).sym.toNat
  internals : ∀ k, n ≤ k → k < 2 * n - 1 →
    ∃ f l r, nodeNo nodes k = .internal f l r ∧ l.toNat < k ∧ r.toNat < k ∧ l ≠ r ∧
      f.toNat = (nodeAt nodes l).freq.toNat + (nodeAt nodes r).freq.toNat
  oneParent : ∀ c, c < 2 * n - 2 → ∃ p, p < 2 * n - 1 ∧ isChild nodes p c ∧ ∀ q, q < 512 → isChild nodes q c → q = p
  zeroAbove : ∀ i, 2 * n - 1 ≤ i → i < 512 → nodeNo nodes i = Node.zero

/-- The frequency of the node numbered i. -/
def freqNo (nodes : Vector Node 512) (i : Nat) : Nat := (nodeNo nodes i).freq.toNat

/-- The node numbered x is in the pool when node k, of n leaves, is about to be made (R150, R154): it is numbered below k and no
earlier merge took it. -/
def inPoolAt (nodes : Vector Node 512) (n k x : Nat) : Prop := x < k ∧ ∀ j, n ≤ j → j < k → ¬ isChild nodes j x

/-- The key of node x comes before that of node y: smaller F first, then smaller index (R150, R155). -/
def keyBefore (nodes : Vector Node 512) (x y : Nat) : Prop :=
  freqNo nodes x < freqNo nodes y ∨ (freqNo nodes x = freqNo nodes y ∧ x < y)

/-- Node k is the merge of the two least nodes of its pool, the first of them LEFT (R154, R155). -/
def isMergeAt (nodes : Vector Node 512) (n k : Nat) : Prop :=
  ∃ a b, inPoolAt nodes n k a ∧ inPoolAt nodes n k b ∧ keyBefore nodes a b ∧
    (∀ x, inPoolAt nodes n k x → x ≠ a → x ≠ b → keyBefore nodes b x) ∧
    freqNo nodes k = freqNo nodes a + freqNo nodes b ∧
    ∃ f, nodeNo nodes k = .internal f (BitVec.ofNat 9 a) (BitVec.ofNat 9 b)

/-- The tree registers against NODE (R31, R38, R39, R128, R157). -/
structure State.TreeInv (s : State) : Prop where
  valid : s.status.treeValid = true →
    IsTree s.nodes s.symCnt.toNat ∧ s.nodeCnt.toNat = 2 * s.symCnt.toNat - 1 ∧ s.root.toNat = 2 * s.symCnt.toNat - 2 ∧
      s.total = (nodeAt s.nodes s.root).freq
  invalid : s.status.treeValid = false →
    s.symCnt = 0#9 ∧ s.nodeCnt = 0#10 ∧ s.root = 0#9 ∧ s.total = 0#40 ∧ s.nodes = Vector.replicate 512 Node.zero

/-! ### Codes -/

/-- The node reached from `p` by the branch bits of a bit string, 0 to LEFT and 1 to RIGHT (R172), if every node passed is
internal. -/
def descend (nodes : Vector Node 512) : NodeIx → BitString → Option NodeIx
  | p, [] => some p
  | p, bit :: rest =>
    match nodeAt nodes p with
    | .leaf _ _ => none
    | .internal _ l r => descend nodes (if bit then r else l) rest

/-- The bit string is the path from the root to a leaf of byte value v (R172). -/
def isPathTo (nodes : Vector Node 512) (root : NodeIx) (path : BitString) (v : Byte) : Prop :=
  ∃ q f, descend nodes root path = some q ∧ nodeAt nodes q = .leaf v f

/-- The bit string is the code of v in the tree (R171, R172): the path to its leaf, or the one bit 0 where the root is a leaf. -/
def isCodeOf (nodes : Vector Node 512) (root : NodeIx) (v : Byte) (code : BitString) : Prop :=
  (∃ f, nodeAt nodes root = .leaf v f ∧ code = [false]) ∨
    (∃ f l r, nodeAt nodes root = .internal f l r ∧ isPathTo nodes root code v)

/-- A bit sequence decodes to a byte string under the tree at a root: its symbol once per bit for a root that is a leaf (R188),
else it is the concatenation of the paths to the bytes' leaves (R189). -/
def decodesTo (nodes : Vector Node 512) (root : NodeIx) (bits : BitString) (out : List Byte) : Prop :=
  (∃ sym f, nodeAt nodes root = .leaf sym f ∧ out = List.replicate bits.length sym) ∨
    (∃ f l r, nodeAt nodes root = .internal f l r ∧
      ∃ path : Byte → BitString, (∀ v ∈ out, isPathTo nodes root (path v) v) ∧ bits = out.flatMap path)

/-- A bit sequence ends inside the code that begins at element `start` (R191): complete paths of that total length, then one or
more branch bits that lead to an internal node. -/
def endsInsideCode (nodes : Vector Node 512) (root : NodeIx) (bits : BitString) (start : Nat) : Prop :=
  ∃ (whole : List Byte) (path : Byte → BitString) (rest : BitString) (q : NodeIx) (f : NodeFreq) (l r : NodeIx),
    (∀ v ∈ whole, isPathTo nodes root (path v) v) ∧ rest ≠ [] ∧ descend nodes root rest = some q ∧
      nodeAt nodes q = .internal f l r ∧ bits = whole.flatMap path ++ rest ∧ start = (whole.flatMap path).length

/-- CTAB against the tree (R31, R39, R43, R170): while CTAB_VALID = 1 a tree is valid and CTAB holds exactly its codes, none
longer than 255 and MAX_CODE_LEN the greatest length; else CTAB and MAX_CODE_LEN are zero. -/
structure State.CodeInv (s : State) : Prop where
  needsTree : s.status.ctabValid = true → s.status.treeValid = true
  exact : s.status.ctabValid = true → ∀ v code, entryAt s.ctab v = some code ↔ isCodeOf s.nodes s.root v code
  bounded : s.status.ctabValid = true → ∀ v code, entryAt s.ctab v = some code → code.length ≤ s.maxCodeLen.toNat
  attained : s.status.ctabValid = true → ∃ v code, entryAt s.ctab v = some code ∧ code.length = s.maxCodeLen.toNat
  invalid : s.status.ctabValid = false → s.ctab = Vector.replicate 256 none ∧ s.maxCodeLen = 0#8

/-! ### Output -/

/-- The meaningful bytes of OBUF hold values and fit it (R37, R46). -/
structure State.OutInv (s : State) : Prop where
  fits : s.outLen.toNat ≤ s.cfg.capObuf
  written : ∀ i, i < s.outLen.toNat → ∃ b, s.bufByte .obuf i = some b

/-! ### Ranges of the address map -/

/-- A byte address of a reserved word: a gap of R61, or above a buffer's capacity. -/
abbrev isReservedAddr (c : Config) (a : Nat) : Prop :=
  (0x48 ≤ a ∧ a < 0x400) ∨ (0x800 ≤ a ∧ a < 0x4000) ∨ (0x6000 ≤ a ∧ a < 0x8000) ∨ (0xC000 ≤ a ∧ a < 0x100000) ∨
    (0x100000 + c.capIbuf ≤ a ∧ a < 0x200000) ∨ (0x200000 + c.capBbuf ≤ a ∧ a < 0x300000) ∨
    (0x300000 + c.capObuf ≤ a ∧ a < 0x400000)

/-- A byte address of a word that is protected while BUSY = 1: CMD, IN_LEN, BIT_CNT, FREQ, IBUF, BBUF (R23, R74). -/
abbrev isProtectedAddr (c : Config) (a : Nat) : Prop :=
  a = 0x4 ∨ a = 0x18 ∨ a = 0x1C ∨ (0x400 ≤ a ∧ a < 0x800) ∨ (0x100000 ≤ a ∧ a < 0x100000 + c.capIbuf) ∨
    (0x200000 ≤ a ∧ a < 0x200000 + c.capBbuf)

/-- A byte address of a read-only or constant register, or of NODE or CTAB (R23, R72, R73). -/
abbrev isReadOnlyAddr (a : Nat) : Prop :=
  a = 0x0 ∨ a = 0x10 ∨ a = 0x14 ∨ (0x20 ≤ a ∧ a < 0x48) ∨ (0x4000 ≤ a ∧ a < 0x6000) ∨ (0x8000 ≤ a ∧ a < 0xC000)

/-- A byte address of a word that reads as a free draw while BUSY = 1 (R75): ERR_CODE to MAX_CODE_LEN, FREQ, NODE, CTAB and the
three buffers. -/
abbrev isDrawnAddr (c : Config) (a : Nat) : Prop :=
  (0x10 ≤ a ∧ a < 0x3C) ∨ (0x400 ≤ a ∧ a < 0x800) ∨ (0x4000 ≤ a ∧ a < 0x6000) ∨ (0x8000 ≤ a ∧ a < 0xC000) ∨
    (0x100000 ≤ a ∧ a < 0x100000 + c.capIbuf) ∨ (0x200000 ≤ a ∧ a < 0x200000 + c.capBbuf) ∨
    (0x300000 ≤ a ∧ a < 0x300000 + c.capObuf)

/-! ### Bit sequences and prefix codes -/

/-- Element k of the bit sequence of a buffer (R98), if its byte holds a value. -/
def State.bufBit (s : State) (b : Buffer) (k : Nat) : Option Bool :=
  (s.bufByte b (k / 8)).map (fun byte => byte.getLsbD (7 - k % 8))

/-- BBUF holds the bit sequence, all BIT_CNT elements of it (R36, R97). -/
def State.holdsStream (s : State) (bits : BitString) : Prop :=
  bits.length = s.bitCnt.toNat ∧ ∀ k, (h : k < bits.length) → s.bufBit .bbuf k = some bits[k]

/-- IBUF holds the byte string, all IN_LEN bytes of it (R35). -/
def State.holdsInput (s : State) (input : List Byte) : Prop :=
  input.length = s.inLen.toNat ∧ ∀ i, (h : i < input.length) → s.bufByte .ibuf i = some input[i]

/-- No code of a symbol in the list is a prefix of the code of a different one (Glossary, R173). -/
def prefixFree (symbols : List Byte) (code : Byte → BitString) : Prop :=
  ∀ v ∈ symbols, ∀ w ∈ symbols, v ≠ w → ¬ code v <+: code w

/-- The total encoded length of data with the counts of a FREQ table under a code (R158, R174). -/
def codeCost (freq : Vector Word 256) (code : Byte → BitString) : Nat :=
  ((presentSymbols freq).map (fun v => (entryAt freq v).toNat * (code v).length)).sum

end Sys2Proof.Machine
end

