-- ==== Sys2Proof/Certificates/Slice0/Obligations.lean ====
section
/-! DEFINITION. The statements for the provers. Each docstring names the rules it formalises. -/

open Sys2Proof Sys2Proof.Machine

/-! ### Encoding -/

/-- R95, R211: the nine command words, and three words that name no command. -/
def Obligations.CommandWordsDecode : Prop :=
  decode 0x00000000#32 = .ok .nop ∧ decode 0x00000001#32 = .ok .count ∧ decode 0x00000002#32 = .ok .build ∧
  decode 0x00000003#32 = .ok .codes ∧ decode 0x00000004#32 = .ok .encode ∧ decode 0x00000005#32 = .ok .decode ∧
  decode 0x00000006#32 = .ok .compress ∧ decode 0x00000007#32 = .ok .decompress ∧ decode 0x00000008#32 = .ok .clear ∧
  decode 0x00000009#32 = .error (.badCommand 0x00000009#32) ∧
  decode 0x00000100#32 = .error (.badCommand 0x00000100#32) ∧
  decode 0x80000006#32 = .error (.badCommand 0x80000006#32)

/-- R92, R95: every 32-bit word is either exactly one command, whose word it is, or BadCommand, and BadCommand exactly when a
reserved bit is set or the opcode is above 0x08; and every command's word decodes to it. -/
def Obligations.DecodeIsTotalAndExact : Prop :=
  (∀ w : Word, (∃ i, decode w = .ok i ∧ w = encode i ∧ ∀ j, w = encode j → j = i) ∨
    (decode w = .error (.badCommand w) ∧ ∀ j, w ≠ encode j)) ∧
  (∀ w : Word, decode w = .error (.badCommand w) ↔ (w.extractLsb' 8 24 ≠ 0#24 ∨ 8 < (w.extractLsb' 0 8).toNat)) ∧
  (∀ i : Instr, decode (encode i) = .ok i)

/-- R104: the pseudo-instructions. `CMD` is the write of the command's word to CMD, `RUN` that and a `WAIT`, `WRBYTES` the word
writes from the address up, a missing byte of the last word taken as 0x00. -/
def Obligations.PseudoInstructionsExpand : Prop :=
  (∀ i : Instr, expandLine (.cmd i) = [.wr 0x000004#22 4 (encode i)] ∧
    expandLine (.run i) = [.wr 0x000004#22 4 (encode i), .wait]) ∧
  (∀ (a : Addr) (bytes : List Byte),
    (expandLine (.wrBytes a bytes)).length = ceilDiv bytes.length 4 ∧
    ∀ m, m < ceilDiv bytes.length 4 →
      (expandLine (.wrBytes a bytes))[m]? = some (.wr (a + BitVec.ofNat 22 (4 * m)) 4
        (bytes.getD (4 * m + 3) 0#8 ++ bytes.getD (4 * m + 2) 0#8 ++ bytes.getD (4 * m + 1) 0#8 ++ bytes.getD (4 * m) 0#8)))

/-! ### Steps -/

/-- R122: when the command in flight is the core agent's to complete and its word decodes to a command, the step is that
command's run, with nothing added. Which agent moves is the model's choice (log 2). -/
def Obligations.StepRunsDecodedCommand : Prop :=
  ∀ (s : State) (i : Instr), s.faultMark = none → s.status.busy = true → (s.delay = 0 ∨ s.host = []) →
    decode s.pending = .ok i → step s = exec i s

/-- R62, R76, R105 and log 1 to log 4: while no completion is due, a step is one host access. A WR is the bus write at the
address bits 21:2; a RD changes no state of the block, only the host's record of what it read and the draw counter; either way
the host's program moves on by one line and the model's delay by one. -/
def Obligations.StepRunsHostAccess : Prop :=
  ∀ (s : State) (a : Addr) (v : Word) (rest : List HostOp), s.faultMark = none →
    (s.status.busy = false ∨ s.delay ≠ 0) → a.toNat % 4 = 0 →
    4 * (a.extractLsb' 2 20).toNat = a.toNat ∧
    (s.host = .wr a 4 v :: rest →
      step s = .next ({ s with host := rest, delay := s.delay - 1 }.busWrite (a.extractLsb' 2 20) v)) ∧
    (s.host = .rd a 4 :: rest →
      step s = .next
        { s with
          host := rest
          delay := s.delay - 1
          draws := s.draws + 1
          busLog := (a.extractLsb' 2 20, s.busRead (a.extractLsb' 2 20)) :: s.busLog })

/-- R64: program text that names a misaligned address or a width other than 4 bytes spells no bus transaction and is
refused. -/
def Obligations.NonWordAccessRefused : Prop :=
  ∀ (s : State) (a : Addr) (width : Nat) (v : Word) (rest : List HostOp), s.faultMark = none →
    (s.status.busy = false ∨ s.delay ≠ 0) → (a.toNat % 4 ≠ 0 ∨ width ≠ 4) →
    (s.host = .wr a width v :: rest ∨ s.host = .rd a width :: rest) →
    step s = .refused .notABusTransaction

/-- R92, R96: a pending word that names no command completes in error BadCommand, with OP its bits 7:0 and ERR_INFO the whole
word, and has no other effect. Which agent moves is the model's choice (log 2). -/
def Obligations.BadCommandCompletes : Prop :=
  ∀ s : State, s.faultMark = none → s.status.busy = true → (s.delay = 0 ∨ s.host = []) →
    (s.pending.extractLsb' 8 24 ≠ 0#24 ∨ 8 < (s.pending.extractLsb' 0 8).toNat) →
    step s = .next
      { s with
        errCode := 5#8
        errOp := s.pending.extractLsb' 0 8
        errInfo := s.pending
        status := { s.status with err := true, done := true, busy := false }
        pending := 0#32
        delay := 0 }

/-- R121, R25: a CMD write while idle accepts any word: PENDING and BUSY are set, DONE, ERR and the error record cleared, and
nothing else of the block changes. The clauses on host, delay and draws are the model's choice (log 1 to log 3), and the completion
is StepRunsDecodedCommand and BadCommandCompletes. -/
def Obligations.CmdWriteAccepts : Prop :=
  ∀ (s : State) (w : Word) (rest : List HostOp), s.faultMark = none → s.status.busy = false →
    s.host = .wr 0x000004#22 4 w :: rest →
    ∃ d, step s = .next
      { s with
        pending := w
        status := { s.status with busy := true, done := false, err := false }
        errCode := 0#8
        errOp := 0#8
        errInfo := 0#32
        delay := d
        draws := s.draws + 1
        host := rest }

/-- Inferred from R27, R121, R122 and R250: nothing but a command's accept sets BUSY, and nothing but a completion or reset clears
it. That these do so is CmdWriteAccepts, CompletionShape, BadCommandCompletes and ResetEvent. -/
def Obligations.BusyChangesOnlyByAcceptCompletionReset : Prop :=
  ∀ s t : State, step s = .next t →
    (s.status.busy = false → t.status.busy = true → ∃ w rest, s.host = .wr 0x000004#22 4 w :: rest) ∧
    (s.status.busy = true → t.status.busy = false → s.turn = .core ∨ ∃ rest, s.host = .rst :: rest)

/-- R30: OVR is set by a host write to a protected location while BUSY = 1 only, and cleared by a STATUS write with bit 3 set or
by reset only; no accept and no completion changes it. -/
def Obligations.OvrIsSticky : Prop :=
  ∀ s t : State, step s = .next t →
    (s.status.ovr = false → t.status.ovr = true →
      s.status.busy = true ∧ ∃ a v rest, s.host = .wr a 4 v :: rest ∧ isProtectedAddr s.cfg a.toNat) ∧
    (s.status.ovr = true → t.status.ovr = false →
      (∃ v rest, s.host = .wr 0x000008#22 4 v :: rest ∧ v.getLsbD 3 = true) ∨ ∃ rest, s.host = .rst :: rest)

/-- R123, R79: between accept and completion no host step changes what a command reads: only reset does. -/
def Obligations.OperandsStableInFlight : Prop :=
  ∀ s t : State, s.status.busy = true → s.turn = .host → step s = .next t → (∀ rest, s.host ≠ .rst :: rest) →
    t.pending = s.pending ∧ t.inLen = s.inLen ∧ t.bitCnt = s.bitCnt ∧ t.freq = s.freq ∧ t.nodes = s.nodes ∧
      t.root = s.root ∧ t.ctab = s.ctab ∧ t.mem = s.mem ∧ t.cfg = s.cfg ∧ t.status.treeValid = s.status.treeValid ∧
      t.status.ctabValid = s.status.ctabValid ∧ t.status.busy = true

/-- R122, R104, R262 and log 2: the program line WAIT ends. From a state with a command in flight and WAIT next, after as many
steps as the delay and two more the command has completed and the host is past the line, unless the command is the model fault
UninitRead. -/
def Obligations.WaitEnds : Prop :=
  ∀ (s : State) (rest : List HostOp), s.faultMark = none → s.status.busy = true → s.host = .wait :: rest →
    match Host.Core.run core (s.delay + 2) s with
    | .next t => t.host = rest ∧ t.status.busy = false ∧ t.status.done = true
    | .fault f => f = .uninitRead
    | .refused _ => False

/-! ### The bus -/

/-- R23 to R26, R32 to R40: what each register reads as while idle, at its offset. -/
def Obligations.RegisterMapReads : Prop :=
  ∀ s : State, s.status.busy = false →
    s.busRead 0x00#20 = 0x48554631#32 ∧ s.busRead 0x01#20 = 0#32 ∧ s.busRead 0x02#20 = s.status.toWord ∧
    s.busRead 0x03#20 = (if s.irqEn then 1#32 else 0#32) ∧
    s.busRead 0x04#20 = s.errCode.setWidth 32 ||| (s.errOp.setWidth 32 <<< 8) ∧ s.busRead 0x05#20 = s.errInfo ∧
    s.busRead 0x06#20 = s.inLen ∧ s.busRead 0x07#20 = s.bitCnt ∧ s.busRead 0x08#20 = s.outLen ∧
    s.busRead 0x09#20 = s.symCnt.setWidth 32 ∧ s.busRead 0x0A#20 = s.nodeCnt.setWidth 32 ∧
    s.busRead 0x0B#20 = s.root.setWidth 32 ∧ s.busRead 0x0C#20 = s.total.setWidth 32 ∧
    s.busRead 0x0D#20 = (s.total >>> 32).setWidth 32 ∧ s.busRead 0x0E#20 = s.maxCodeLen.setWidth 32 ∧
    s.busRead 0x0F#20 = BitVec.ofNat 32 s.cfg.capIbuf ∧ s.busRead 0x10#20 = BitVec.ofNat 32 s.cfg.capBbuf ∧
    s.busRead 0x11#20 = BitVec.ofNat 32 s.cfg.capObuf

/-- R26: the STATUS word's bits, and what a write to it clears; R232: `irq`. -/
def Obligations.StatusBitsAndIrq : Prop :=
  ∀ (s : State) (v : Word) (k : Nat),
    s.status.toWord.getLsbD k =
      (match k with
        | 0 => s.status.busy
        | 1 => s.status.done
        | 2 => s.status.err
        | 3 => s.status.ovr
        | 4 => s.status.treeValid
        | 5 => s.status.ctabValid
        | _ => false) ∧
    ((s.busWrite 0x02#20 v).status.toWord.getLsbD k =
      (s.status.toWord.getLsbD k && !(v.getLsbD k && (k == 1 || k == 2 || k == 3)))) ∧
    s.busWrite 0x02#20 v = { s with status := (s.busWrite 0x02#20 v).status } ∧
    (s.irq = true ↔ s.irqEn = true ∧ s.status.done = true)

/-- R65: a reserved address reads 0 and ignores writes, whether or not BUSY = 1. The reserved word addresses are those of the
map's gaps and those above each buffer's capacity. -/
def Obligations.ReservedAddressesInert : Prop :=
  ∀ (s : State) (wa : WordAddr) (v : Word), s.cfg.wellFormed = true → isReservedAddr s.cfg (4 * wa.toNat) →
    s.busRead wa = 0#32 ∧ s.busWrite wa v = s

/-- R71, R72, R73: the words of FREQ, NODE and CTAB entries while idle. -/
def Obligations.TableReads : Prop :=
  ∀ (s : State) (v : Byte) (i : NodeIx) (w2 : BitVec 2) (w4 : BitVec 4), s.status.busy = false →
    s.busRead (BitVec.ofNat 20 (0x100 + v.toNat)) = entryAt s.freq v ∧
    s.busRead (BitVec.ofNat 20 (0x1000 + 4 * i.toNat + w2.toNat)) = (nodeAt s.nodes i).word w2 ∧
    s.busRead (BitVec.ofNat 20 (0x2000 + 16 * v.toNat + w4.toNat)) = codeWord (entryAt s.ctab v) w4

/-- R101: the fields of a NODE entry's four words. -/
def Obligations.NodeWordLayout : Prop :=
  ∀ n : Node,
    n.word 0#2 = n.freq.extractLsb' 0 32 ∧ n.word 1#2 = (n.freq.extractLsb' 32 8).setWidth 32 ∧
    (n.word 2#2).getLsbD 0 = (match n with | .leaf _ _ => false | .internal _ _ _ => true) ∧
    (n.word 2#2).extractLsb' 8 8 = n.sym ∧ (n.word 2#2).extractLsb' 1 7 = 0#7 ∧ (n.word 2#2).extractLsb' 16 16 = 0#16 ∧
    (n.word 3#2).extractLsb' 0 9 = n.left ∧ (n.word 3#2).extractLsb' 16 9 = n.right ∧
    (n.word 3#2).extractLsb' 9 7 = 0#7 ∧ (n.word 3#2).extractLsb' 25 7 = 0#7

/-- R102: the sixteen words of a CTAB entry whose code has at most 255 elements. -/
def Obligations.CodeWordLayout : Prop :=
  ∀ (code : BitString), code.length ≤ 255 →
    (codeWord (some code) 0#4).getLsbD 31 = true ∧
    (codeWord (some code) 0#4).extractLsb' 0 8 = BitVec.ofNat 8 code.length ∧
    (codeWord (some code) 0#4).extractLsb' 8 23 = 0#23 ∧
    (∀ j, j < 256 → (codeWord (some code) (BitVec.ofNat 4 (1 + j / 32))).getLsbD (31 - j % 32) = code.getD j false) ∧
    (∀ w : BitVec 4, 9 ≤ w.toNat → codeWord (some code) w = 0#32) ∧
    (∀ w : BitVec 4, codeWord none w = 0#32)

/-- R66, R68: a word read of a buffer while idle takes the byte at the lowest address in bits 7:0; a byte that holds `none`
reads as some 8 bits, whatever they are, and the statement says nothing of it (log 3). -/
def Obligations.BufferWordReads : Prop :=
  ∀ (s : State) (b : Buffer) (o : Nat), s.cfg.wellFormed = true → s.status.busy = false → o % 4 = 0 → o + 4 ≤ b.cap s.cfg →
    ∀ j, j < 4 → ∀ byte, s.bufByte b (o + j) = some byte →
      (s.busRead (BitVec.ofNat 20 ((b.base + o) / 4))).extractLsb' (8 * j) 8 = byte

/-- R69, R70: a word write to IBUF or BBUF while idle sets its four bytes, the lowest address from bits 7:0, and changes nothing
else: no other byte, no register, no flag. A word write to OBUF is ignored. -/
def Obligations.BufferWordWrites : Prop :=
  ∀ (s : State) (b : Buffer) (o : Nat) (v : Word), s.cfg.wellFormed = true → s.status.busy = false → o % 4 = 0 →
    o + 4 ≤ b.cap s.cfg →
    let t := s.busWrite (BitVec.ofNat 20 ((b.base + o) / 4)) v
    (b ≠ .obuf → (∀ j, j < 4 → t.bufByte b (o + j) = some (v.extractLsb' (8 * j) 8)) ∧
      (∀ a, (a < b.base + o ∨ b.base + o + 4 ≤ a) → t.mem.read a = s.mem.read a) ∧
      t = { s with mem := t.mem } ∧ t.busRead (BitVec.ofNat 20 ((b.base + o) / 4)) = v) ∧
    (b = .obuf → t = s)

/-- R63, R71: register and FREQ writes while idle (a CMD write is CmdWriteAccepts, a STATUS write StatusBitsAndIrq, a buffer
write BufferWordWrites); the read-only and constant registers, NODE and CTAB ignore a write, R65, R72, R73. -/
def Obligations.IdleWrites : Prop :=
  ∀ (s : State) (x : Word) (v : Byte) (wa : WordAddr), s.status.busy = false →
    s.busWrite 0x03#20 x = { s with irqEn := x.getLsbD 0 } ∧
    s.busWrite 0x06#20 x = { s with inLen := x } ∧
    s.busWrite 0x07#20 x = { s with bitCnt := x } ∧
    (∀ t, t = s.busWrite (BitVec.ofNat 20 (0x100 + v.toNat)) x →
      t = { s with freq := t.freq } ∧ entryAt t.freq v = x ∧ ∀ u, u ≠ v → entryAt t.freq u = entryAt s.freq u) ∧
    (isReadOnlyAddr (4 * wa.toNat) → s.busWrite wa x = s)

/-- R74: writes while BUSY = 1. A protected location (CMD, IN_LEN, BIT_CNT, FREQ, IBUF, BBUF) drops the write and sets OVR;
STATUS and CTRL act as when idle; every other address is ignored without a flag. -/
def Obligations.BusyWrites : Prop :=
  ∀ (s : State) (wa : WordAddr) (x : Word), s.cfg.wellFormed = true → s.status.busy = true →
    (isProtectedAddr s.cfg (4 * wa.toNat) → s.busWrite wa x = { s with status := { s.status with ovr := true } }) ∧
    (4 * wa.toNat = 0x8 → s.busWrite wa x =
      { s with status :=
        { s.status with
          done := s.status.done && !x.getLsbD 1
          err := s.status.err && !x.getLsbD 2
          ovr := s.status.ovr && !x.getLsbD 3 } }) ∧
    (4 * wa.toNat = 0xC → s.busWrite wa x = { s with irqEn := x.getLsbD 0 }) ∧
    (¬ isProtectedAddr s.cfg (4 * wa.toNat) → 4 * wa.toNat ≠ 0x8 → 4 * wa.toNat ≠ 0xC → s.busWrite wa x = s)

/-- R75: reads while BUSY = 1. ID, CMD, STATUS, CTRL, the CAP registers and the reserved addresses read as when idle; every
other location reads as the free draw, whatever it is (its form is the model's, log 3). -/
def Obligations.BusyReads : Prop :=
  ∀ (s : State) (wa : WordAddr), s.cfg.wellFormed = true → s.status.busy = true →
    s.busRead 0x00#20 = 0x48554631#32 ∧ s.busRead 0x01#20 = 0#32 ∧ s.busRead 0x02#20 = s.status.toWord ∧
    s.busRead 0x03#20 = (if s.irqEn then 1#32 else 0#32) ∧
    s.busRead 0x0F#20 = BitVec.ofNat 32 s.cfg.capIbuf ∧ s.busRead 0x10#20 = BitVec.ofNat 32 s.cfg.capBbuf ∧
    s.busRead 0x11#20 = BitVec.ofNat 32 s.cfg.capObuf ∧
    (isReservedAddr s.cfg (4 * wa.toNat) → s.busRead wa = 0#32) ∧
    (isDrawnAddr s.cfg (4 * wa.toNat) → s.busRead wa = Config.freeWord s.draws)

/-! ### Reset -/

/-- R51: the state after reset. That it is the reset state of R8's reference configuration is the model's choice (log 5). -/
def Obligations.ResetValues : Prop :=
  State.reset.status = ⟨false, false, false, false, false, false⟩ ∧ State.reset.irqEn = false ∧
  State.reset.errCode = 0#8 ∧ State.reset.errOp = 0#8 ∧ State.reset.errInfo = 0#32 ∧
  State.reset.inLen = 0#32 ∧ State.reset.bitCnt = 0#32 ∧ State.reset.outLen = 0#32 ∧
  State.reset.symCnt = 0#9 ∧ State.reset.nodeCnt = 0#10 ∧ State.reset.root = 0#9 ∧ State.reset.total = 0#40 ∧
  State.reset.maxCodeLen = 0#8 ∧ State.reset.pending = 0#32 ∧
  (∀ v, entryAt State.reset.freq v = 0#32) ∧ (∀ i w, (nodeAt State.reset.nodes i).word w = 0#32) ∧
  (∀ v w, codeWord (entryAt State.reset.ctab v) w = 0#32) ∧ (∀ b i, State.reset.bufByte b i = none) ∧
  State.reset.cfg = { capIbuf := 2 ^ 20, capBbuf := 2 ^ 20, capObuf := 2 ^ 20 } ∧ State.reset.irq = false ∧
  State.reset.busRead 0x00#20 = 0x48554631#32 ∧ State.reset.busRead 0x01#20 = 0#32

/-- R250, R251: asserting `rst_n` takes every piece of state to its reset value, also with a command in flight, which is
abandoned. That the parameters, the fault mark and the host agent go on is the model's choice (log 7). -/
def Obligations.ResetEvent : Prop :=
  ∀ (s : State) (rest : List HostOp), s.faultMark = none → (s.status.busy = false ∨ s.delay ≠ 0) →
    s.host = .rst :: rest →
    step s = .next
      { State.reset with cfg := s.cfg, host := rest, busLog := s.busLog, draws := s.draws }

/-! ### What every command keeps and sets -/

/-- R122, R125, R126: how every completion ends. Success sets DONE, clears BUSY and keeps ERR and the record; an error sets ERR
and DONE, clears BUSY and records a code of 1 to 11 and an opcode. PENDING becomes 0 and OVR is kept. -/
def Obligations.CompletionShape : Prop :=
  ∀ (i : Instr) (s t : State), exec i s = .next t →
    t.status.busy = false ∧ t.status.done = true ∧ t.pending = 0#32 ∧ t.status.ovr = s.status.ovr ∧
    ((t.status.err = s.status.err ∧ t.errCode = s.errCode ∧ t.errOp = s.errOp ∧ t.errInfo = s.errInfo) ∨
      (t.status.err = true ∧ 1 ≤ t.errCode.toNat ∧ t.errCode.toNat ≤ 11 ∧ t.errOp.toNat ≤ 7))

/-- R124: a standalone command that completes in error writes nothing but the error record and the completion flags. -/
def Obligations.ErrorWritesNothing : Prop :=
  ∀ (i : Instr) (s t : State), i ≠ .compress → i ≠ .decompress → s.status.err = false → exec i s = .next t →
    t.status.err = true →
    t = { s with
      errCode := t.errCode
      errOp := opcode i
      errInfo := t.errInfo
      status := { s.status with err := true, done := true, busy := false }
      pending := 0#32
      delay := 0 }

/-- R32, R35, R44: the frame of every command. CTRL, the parameters, the fault mark and the host agent are kept; no byte changes
but of BBUF and OBUF; IN_LEN is written by CLEAR only, FREQ by COUNT, COMPRESS and CLEAR only, BIT_CNT by ENCODE, COMPRESS and
CLEAR only, OUT_LEN by DECODE, DECOMPRESS and CLEAR only, NODE and the tree registers not by NOP, COUNT, CODES, ENCODE and
DECODE, CTAB not by NOP, COUNT, ENCODE and DECODE, memory by ENCODE, DECODE, COMPRESS and DECOMPRESS only. -/
def Obligations.CommandFrame : Prop :=
  ∀ (i : Instr) (s t : State), s.cfg.wellFormed = true → exec i s = .next t →
    t.irqEn = s.irqEn ∧ t.cfg = s.cfg ∧ t.faultMark = s.faultMark ∧ t.host = s.host ∧ t.busLog = s.busLog ∧
    t.draws = s.draws ∧
    (∀ a, (a < 0x200000 ∨ 0x200000 + s.cfg.capBbuf ≤ a) → (a < 0x300000 ∨ 0x300000 + s.cfg.capObuf ≤ a) →
      t.mem.read a = s.mem.read a) ∧
    (i ≠ .clear → t.inLen = s.inLen) ∧
    (i ≠ .count → i ≠ .compress → i ≠ .clear → t.freq = s.freq) ∧
    (i ≠ .encode → i ≠ .compress → i ≠ .clear → t.bitCnt = s.bitCnt) ∧
    (i ≠ .decode → i ≠ .decompress → i ≠ .clear → t.outLen = s.outLen) ∧
    (i ≠ .encode → i ≠ .decode → i ≠ .compress → i ≠ .decompress → t.mem = s.mem) ∧
    (i = .nop ∨ i = .count ∨ i = .codes ∨ i = .encode ∨ i = .decode →
      t.nodes = s.nodes ∧ t.symCnt = s.symCnt ∧ t.nodeCnt = s.nodeCnt ∧ t.root = s.root ∧ t.total = s.total ∧
        t.status.treeValid = s.status.treeValid) ∧
    (i = .nop ∨ i = .count ∨ i = .encode ∨ i = .decode →
      t.ctab = s.ctab ∧ t.maxCodeLen = s.maxCodeLen ∧ t.status.ctabValid = s.status.ctabValid)

/-! ### Invariants -/

/-- R8, R44 to R46, R61: every step keeps the parameters legal, memory canonical and within the buffers. -/
def Obligations.StepKeepsMemInv : Prop :=
  ∀ s t : State, s.MemInv → step s = .next t → t.MemInv

/-- R27 to R29, R33, R34, R47, R220: every step keeps the flags and the error record consistent. -/
def Obligations.StepKeepsLifeInv : Prop :=
  ∀ s t : State, s.LifeInv → step s = .next t → t.LifeInv

/-- R31, R38, R39, R42, R154, R157: every step keeps NODE a tree of its registers while TREE_VALID = 1 and all zero while it
is 0. -/
def Obligations.StepKeepsTreeInv : Prop :=
  ∀ s t : State, s.TreeInv → step s = .next t → t.TreeInv

/-- R31, R39, R43, R170, R173: every step keeps CTAB the code table of the tree while CTAB_VALID = 1 and zero while it is 0. -/
def Obligations.StepKeepsCodeInv : Prop :=
  ∀ s t : State, s.TreeInv → s.CodeInv → step s = .next t → t.CodeInv

/-- R37, R46: every step keeps OBUF[0 .. OUT_LEN - 1] written and OUT_LEN within CAP_OBUF. -/
def Obligations.StepKeepsOutInv : Prop :=
  ∀ s t : State, s.OutInv → step s = .next t → t.OutInv

/-- R51: the invariants hold after reset. -/
def Obligations.ResetMeetsInvariants : Prop :=
  State.reset.MemInv ∧ State.reset.LifeInv ∧ State.reset.TreeInv ∧ State.reset.CodeInv ∧ State.reset.OutInv

/-! ### NOP and CLEAR -/

/-- R210: NOP completes without effect. -/
def Obligations.NopCompletes : Prop :=
  ∀ s : State, exec .nop s = .next
    { s with status := { s.status with done := true, busy := false }, pending := 0#32, delay := 0 }

/-- R212, R128: CLEAR zeroes FREQ, the tree, the code table, IN_LEN, BIT_CNT and OUT_LEN, and keeps CTRL, OVR, ERR, the error
record and every buffer byte. -/
def Obligations.ClearCompletes : Prop :=
  ∀ s : State, ∃ t, exec .clear s = .next t ∧
    t = { s with
      status := { s.status with done := true, busy := false, treeValid := false, ctabValid := false }
      pending := 0#32
      delay := 0
      freq := t.freq
      nodes := t.nodes
      ctab := t.ctab
      inLen := 0#32
      bitCnt := 0#32
      outLen := 0#32
      symCnt := 0#9
      nodeCnt := 0#10
      root := 0#9
      total := 0#40
      maxCodeLen := 0#8 } ∧
    (∀ v, entryAt t.freq v = 0#32) ∧ (∀ i, nodeAt t.nodes i = Node.zero) ∧ (∀ v, entryAt t.ctab v = none)

/-! ### COUNT -/

/-- R140: COUNT within the buffer's capacity, with every byte written, puts in FREQ[v] how often v occurs and changes nothing
else but what a completion does. -/
def Obligations.CountCounts : Prop :=
  ∀ s : State, s.inLen.toNat ≤ s.cfg.capIbuf → (∀ i, i < s.inLen.toNat → s.bufByte .ibuf i ≠ none) →
    ∃ t, exec .count s = .next t ∧ t = { s.completeOk with freq := t.freq } ∧
      ∀ v, entryAt t.freq v =
        BitVec.ofNat 32 ((List.range s.inLen.toNat).countP (fun i => s.bufByte .ibuf i == some v))

/-- R140, R224, R129: COUNT beyond the capacity completes in error InputTooLong and writes nothing; else a byte that holds `none`
is the model fault. -/
def Obligations.CountErrors : Prop :=
  ∀ s : State,
    (s.cfg.capIbuf < s.inLen.toNat → exec .count s = .next (s.completeErr 0x01#8 .inputTooLong s.inLen)) ∧
    (s.inLen.toNat ≤ s.cfg.capIbuf → (∃ i, i < s.inLen.toNat ∧ s.bufByte .ibuf i = none) →
      exec .count s = .fault .uninitRead)

/-- R141: after a successful COUNT the counts sum to IN_LEN and the keys are exactly the values that occur. -/
def Obligations.CountMeetsFrequencyMap : Prop :=
  ∀ s t : State, s.cfg.wellFormed = true → s.inLen.toNat ≤ s.cfg.capIbuf → exec .count s = .next t →
    t.freqSum = s.inLen.toNat ∧
    ∀ v, 0 < (entryAt t.freq v).toInt ↔ ∃ i, i < s.inLen.toNat ∧ s.bufByte .ibuf i = some v

/-! ### BUILD -/

/-- R150, R151, R153 to R157: BUILD of a FREQ table with no negative entry and some present symbol. The leaves are the present
symbols in ascending order; node k of the merges has as LEFT and RIGHT the two nodes of least key (F, index) among those numbered
below k that no earlier merge took, LEFT the lesser, and their sum as frequency; the rest of NODE and CTAB is zero; the tree
registers and the validity bits are those of the tree; nothing else changes but what a completion does. -/
def Obligations.BuildMerges : Prop :=
  ∀ s : State, (∀ v, (entryAt s.freq v).msb = false) → (∃ v, entryAt s.freq v ≠ 0#32) →
    ∃ t n, exec .build s = .next t ∧ n = (presentSymbols s.freq).length ∧
      (∀ v, v ∈ presentSymbols s.freq ↔ entryAt s.freq v ≠ 0#32) ∧
      (presentSymbols s.freq).Pairwise (fun u v => u.toNat < v.toNat) ∧
      (∀ j, (hj : j < (presentSymbols s.freq).length) → nodeNo t.nodes j =
        .leaf (presentSymbols s.freq)[j] ((entryAt s.freq (presentSymbols s.freq)[j]).setWidth 40)) ∧
      (∀ k, n ≤ k → k < 2 * n - 1 → isMergeAt t.nodes n k) ∧
      (∀ i, 2 * n - 1 ≤ i → i < 512 → nodeNo t.nodes i = Node.zero) ∧
      (∀ v, entryAt t.ctab v = none) ∧
      t = { s.completeOk with
        nodes := t.nodes
        ctab := t.ctab
        symCnt := BitVec.ofNat 9 n
        nodeCnt := BitVec.ofNat 10 (2 * n - 1)
        root := BitVec.ofNat 9 (2 * n - 2)
        total := (nodeNo t.nodes (2 * n - 2)).freq
        maxCodeLen := 0#8
        status := { s.completeOk.status with treeValid := true, ctabValid := false } }

/-- R39, R154: TOTAL is the sum of all present frequencies. -/
def Obligations.BuildTotalIsSum : Prop :=
  ∀ s t : State, (∀ v, (entryAt s.freq v).msb = false) → (∃ v, entryAt s.freq v ≠ 0#32) → exec .build s = .next t →
    t.total.toNat = s.freqSum ∧ IsTree t.nodes t.symCnt.toNat

/-- R150, R152: BUILD's errors in their order: the smallest negative entry, then the empty alphabet; on either nothing is
written. -/
def Obligations.BuildErrors : Prop :=
  ∀ s : State,
    (∀ v : Byte, (entryAt s.freq v).msb = true → (∀ u : Byte, u.toNat < v.toNat → (entryAt s.freq u).msb = false) →
      exec .build s = .next (s.completeErr 0x02#8 .corruptFrequencyMap (0x30000000#32 + v.setWidth 32))) ∧
    ((∀ v, entryAt s.freq v = 0#32) → exec .build s = .next (s.completeErr 0x02#8 .emptyAlphabet 0#32))

/-- R158: for two or more present symbols the tree BUILD makes is of least cost: no prefix code over the present symbols encodes
data with the counts FREQ in fewer bits than the leaf depths give. -/
def Obligations.BuildIsOptimal : Prop :=
  ∀ (s t : State) (depthPath c : Byte → BitString), (∀ v, (entryAt s.freq v).msb = false) →
    2 ≤ (presentSymbols s.freq).length → exec .build s = .next t →
    (∀ v ∈ presentSymbols s.freq, isPathTo t.nodes t.root (depthPath v) v) →
    prefixFree (presentSymbols s.freq) c →
    codeCost s.freq depthPath ≤ codeCost s.freq c

/-! ### CODES -/

/-- R170 to R172, R174: CODES on a valid tree writes exactly the tree's codes, the path of each leaf and the one bit 0 for the
degenerate tree, and the greatest length; nothing else changes but what a completion does. -/
def Obligations.CodesAreLeafPaths : Prop :=
  ∀ s : State, s.TreeInv → s.status.treeValid = true →
    ∃ t, exec .codes s = .next t ∧
      t = { s.completeOk with
        ctab := t.ctab
        maxCodeLen := t.maxCodeLen
        status := { s.completeOk.status with ctabValid := true } } ∧
      (∀ v code, entryAt t.ctab v = some code ↔ isCodeOf s.nodes s.root v code) ∧
      (∀ v code, entryAt t.ctab v = some code → code.length ≤ t.maxCodeLen.toNat) ∧
      (∃ v code, entryAt t.ctab v = some code ∧ code.length = t.maxCodeLen.toNat)

/-- R170: CODES without a valid tree completes in error NoTree and writes nothing. -/
def Obligations.CodesNeedTree : Prop :=
  ∀ s : State, s.status.treeValid = false → exec .codes s = .next (s.completeErr 0x03#8 .noTree 0#32)

/-- R173: in every state that meets the invariants with CTAB_VALID = 1, exactly the byte values of the tree's leaves have a
code, every code is non-empty, and no code is a prefix of a different symbol's. -/
def Obligations.CodeTableIsPrefixFree : Prop :=
  ∀ s : State, s.TreeInv → s.CodeInv → s.status.ctabValid = true →
    (∀ v, (∃ code, entryAt s.ctab v = some code) ↔ ∃ j f, j < s.symCnt.toNat ∧ nodeNo s.nodes j = .leaf v f) ∧
    (∀ v code, entryAt s.ctab v = some code → code ≠ [] ∧ code.length ≤ 255) ∧
    (∀ v w c d, entryAt s.ctab v = some c → entryAt s.ctab w = some d → v ≠ w → ¬ c <+: d)

/-! ### ENCODE -/

/-- R180, R181, R98, R99: ENCODE of a non-empty input every byte of which is written and has a code: BIT_CNT is the length of the
concatenated codes, the stream elements are those codes in input order, the padding to the word is 0, and nothing else changes
but what a completion does. -/
def Obligations.EncodeConcatenatesCodes : Prop :=
  ∀ (s : State) (input : List Byte) (code : Byte → BitString), s.cfg.wellFormed = true → s.inLen ≠ 0#32 →
    s.inLen.toNat ≤ s.cfg.capIbuf → s.status.ctabValid = true → s.holdsInput input →
    (∀ b ∈ input, entryAt s.ctab b = some (code b)) → (input.flatMap code).length ≤ 8 * s.cfg.capBbuf →
    ∃ t, exec .encode s = .next t ∧ t = { s.completeOk with mem := t.mem, bitCnt := t.bitCnt } ∧
      t.bitCnt.toNat = (input.flatMap code).length ∧
      (∀ k, k < 8 * packedLen (input.flatMap code).length →
        t.bufBit .bbuf k = some ((input.flatMap code).getD k false)) ∧
      (∀ a, (a < 0x200000 ∨ 0x200000 + packedLen (input.flatMap code).length ≤ a) → t.mem.read a = s.mem.read a)

/-- R180, R182, R183, R224: ENCODE of an empty input, and its errors in their order, each of which writes nothing. -/
def Obligations.EncodeErrors : Prop :=
  ∀ s : State,
    (s.cfg.capIbuf < s.inLen.toNat → exec .encode s = .next (s.completeErr 0x04#8 .inputTooLong s.inLen)) ∧
    (s.inLen = 0#32 → exec .encode s = .next { s.completeOk with bitCnt := 0#32 }) ∧
    (s.inLen.toNat ≤ s.cfg.capIbuf → s.inLen ≠ 0#32 →
      (s.status.ctabValid = false → exec .encode s = .next (s.completeErr 0x04#8 .noCodeTable 0#32)) ∧
      (s.status.ctabValid = true →
        (∀ i, i < s.inLen.toNat →
          (∀ j, j < i → ∃ b c, s.bufByte .ibuf j = some b ∧ entryAt s.ctab b = some c) →
          (s.bufByte .ibuf i = none → exec .encode s = .fault .uninitRead) ∧
          (∀ b, s.bufByte .ibuf i = some b → entryAt s.ctab b = none →
            exec .encode s = .next (s.completeErr 0x04#8 .unknownSymbol (BitVec.ofNat 32 i)))) ∧
        (∀ (input : List Byte) (code : Byte → BitString), s.holdsInput input →
          (∀ b ∈ input, entryAt s.ctab b = some (code b)) → 8 * s.cfg.capBbuf < (input.flatMap code).length →
          exec .encode s = .next
            (s.completeErr 0x04#8 .bitBufferOverflow (BitVec.ofNat 32 (input.flatMap code).length)))))

/-! ### DECODE -/

/-- R186 to R189: DECODE, on a valid tree, of a stream that decodes to some bytes: those bytes in OBUF, zero-filled to the word,
and nothing else changes but what a completion does. -/
def Obligations.DecodeWalksTree : Prop :=
  ∀ (s : State) (bits : BitString) (out : List Byte), s.TreeInv → s.status.treeValid = true →
    s.bitCnt ≠ 0#32 → s.bitCnt.toNat ≤ 8 * s.cfg.capBbuf → s.holdsStream bits → decodesTo s.nodes s.root bits out →
    out.length ≤ s.cfg.capObuf →
    ∃ t, exec .decode s = .next t ∧ t = { s.completeOk with mem := t.mem, outLen := t.outLen } ∧
      t.outLen.toNat = out.length ∧
      (∀ i, i < 4 * ceilDiv out.length 4 → t.bufByte .obuf i = some (out.getD i 0#8)) ∧
      (∀ a, (a < 0x300000 ∨ 0x300000 + 4 * ceilDiv out.length 4 ≤ a) → t.mem.read a = s.mem.read a)

/-- R191: a stream that ends inside a code fails with TruncatedStream, recording where the unfinished code began, and emits
nothing. -/
def Obligations.DecodeDetectsTruncation : Prop :=
  ∀ (s : State) (bits : BitString) (start : Nat), s.TreeInv → s.status.treeValid = true →
    s.bitCnt.toNat ≤ 8 * s.cfg.capBbuf → s.holdsStream bits → endsInsideCode s.nodes s.root bits start →
    exec .decode s = .next (s.completeErr 0x05#8 .truncatedStream (BitVec.ofNat 32 start))

/-- R186, R190, R224: DECODE of a zero-length stream, and its other errors in their order, each of which
writes nothing. -/
def Obligations.DecodeErrors : Prop :=
  ∀ s : State,
    (8 * s.cfg.capBbuf < s.bitCnt.toNat → exec .decode s = .next (s.completeErr 0x05#8 .bitCountTooLarge s.bitCnt)) ∧
    (s.bitCnt = 0#32 → exec .decode s = .next { s.completeOk with outLen := 0#32 }) ∧
    (s.bitCnt.toNat ≤ 8 * s.cfg.capBbuf → s.bitCnt ≠ 0#32 →
      (s.status.treeValid = false → exec .decode s = .next (s.completeErr 0x05#8 .noTree 0#32)) ∧
      (s.status.treeValid = true → (∃ j, j < ceilDiv s.bitCnt.toNat 8 ∧ s.bufByte .bbuf j = none) →
        exec .decode s = .fault .uninitRead) ∧
      (∀ (bits : BitString) (out : List Byte), s.TreeInv → s.status.treeValid = true → s.holdsStream bits →
        decodesTo s.nodes s.root bits out → s.cfg.capObuf < out.length →
        exec .decode s = .next (s.completeErr 0x05#8 .outputOverflow (BitVec.ofNat 32 out.length))))

/-- R192: DECODE inverts ENCODE under the same tree. -/
def Obligations.DecodeInvertsEncode : Prop :=
  ∀ s t u : State, s.cfg.wellFormed = true → s.TreeInv → s.CodeInv → s.status.ctabValid = true → s.status.err = false →
    s.inLen.toNat ≤ s.cfg.capObuf → exec .encode s = .next t → t.status.err = false →
    u.cfg = s.cfg → u.nodes = s.nodes → u.root = s.root → u.status.treeValid = true → u.status.err = false →
    u.bitCnt = t.bitCnt →
    (∀ j, j < ceilDiv t.bitCnt.toNat 8 → u.bufByte .bbuf j = t.bufByte .bbuf j) →
    ∃ w, exec .decode u = .next w ∧ w.status.err = false ∧ w.outLen = s.inLen ∧
      ∀ i, i < s.inLen.toNat → w.bufByte .obuf i = s.bufByte .ibuf i

/-! ### COMPRESS -/

/-- R200, R127: on a non-empty input a COMPRESS whose four sub-operations succeed leaves the state that the standalone COUNT,
BUILD, CODES and ENCODE leave one after the other. -/
def Obligations.CompressIsSequence : Prop :=
  ∀ s a b c d : State, s.status.err = false → s.inLen ≠ 0#32 → exec .count s = .next a → exec .build a = .next b →
    exec .codes b = .next c → exec .encode c = .next d → d.status.err = false → exec .compress s = .next d

/-- R202, R200: a COMPRESS of 1 to CAP_IBUF written bytes raises no error but BitBufferOverflow, by ENCODE, with the tree and the
code table committed and BBUF and BIT_CNT unchanged; and where BBUF holds 255 bits for each byte it succeeds. -/
def Obligations.CompressCompletes : Prop :=
  ∀ s : State, s.cfg.wellFormed = true → s.status.err = false → s.inLen ≠ 0#32 → s.inLen.toNat ≤ s.cfg.capIbuf →
    (∀ i, i < s.inLen.toNat → s.bufByte .ibuf i ≠ none) →
    ∃ t, exec .compress s = .next t ∧ t.status.treeValid = true ∧ t.status.ctabValid = true ∧
      (∀ v, entryAt t.freq v =
        BitVec.ofNat 32 ((List.range s.inLen.toNat).countP (fun i => s.bufByte .ibuf i == some v))) ∧
      ((t.status.err = false ∧ t.bitCnt.toNat ≤ 8 * s.cfg.capBbuf) ∨
        (t.status.err = true ∧ t.errCode = 9#8 ∧ t.errOp = 0x04#8 ∧ 8 * s.cfg.capBbuf < t.errInfo.toNat ∧
          t.bitCnt = s.bitCnt ∧ t.mem = s.mem)) ∧
      (255 * s.inLen.toNat ≤ 8 * s.cfg.capBbuf → t.status.err = false)

/-- R200, R201, R224: COMPRESS of an empty input empties FREQ, invalidates the tree and sets BIT_CNT to 0 without an error; an
input beyond the capacity is InputTooLong raised by COUNT, with nothing written; a byte that holds `none` is the model fault. -/
def Obligations.CompressEmptyAndErrors : Prop :=
  ∀ s : State,
    (s.inLen = 0#32 → ∃ t, exec .compress s = .next t ∧
      t = { s.completeOk.invalidateTree with freq := t.freq, bitCnt := 0#32 } ∧ ∀ v, entryAt t.freq v = 0#32) ∧
    (s.cfg.capIbuf < s.inLen.toNat → exec .compress s = .next (s.completeErr 0x01#8 .inputTooLong s.inLen)) ∧
    (s.inLen.toNat ≤ s.cfg.capIbuf → (∃ i, i < s.inLen.toNat ∧ s.bufByte .ibuf i = none) →
      exec .compress s = .fault .uninitRead)

/-- From R158, R174, R200 and R202, with the fixed eight-bit code: a COMPRESS of written bytes no more than
BBUF can hold never overflows BBUF, since the tree's code costs no more than eight bits a byte. -/
def Obligations.CompressFitsWhereInputFits : Prop :=
  ∀ s t : State, s.cfg.wellFormed = true → s.status.err = false → s.inLen.toNat ≤ s.cfg.capIbuf →
    s.inLen.toNat ≤ s.cfg.capBbuf → exec .compress s = .next t →
    t.status.err = false ∧ t.bitCnt.toNat ≤ 8 * s.inLen.toNat

/-! ### DECOMPRESS -/

/-- R204, R205: DECOMPRESS of a FREQ table with sum T > 0 and a stream that the tree BUILD makes of it decodes to T bytes within
CAP_OBUF: the tree is BUILD's, the bytes are the decoded ones, zero-filled to the word. Where the stream decodes to another
count, or to more than CAP_OBUF bytes, or ends inside a code, the errors of R204, with the tree committed and OBUF and OUT_LEN
unchanged. -/
def Obligations.DecompressDecodesAndChecksTotal : Prop :=
  ∀ (s b : State) (bits : BitString) (out : List Byte) (start : Nat), s.cfg.wellFormed = true → s.status.err = false →
    exec .build s = .next b → b.status.err = false → s.bitCnt ≠ 0#32 → s.bitCnt.toNat ≤ 8 * s.cfg.capBbuf →
    s.holdsStream bits →
    (decodesTo b.nodes b.root bits out → out.length = s.freqSum → out.length ≤ s.cfg.capObuf →
      ∃ t, exec .decompress s = .next t ∧ t = { b with mem := t.mem, outLen := t.outLen } ∧
        t.outLen.toNat = out.length ∧
        (∀ i, i < 4 * ceilDiv out.length 4 → t.bufByte .obuf i = some (out.getD i 0#8)) ∧
        (∀ a, (a < 0x300000 ∨ 0x300000 + 4 * ceilDiv out.length 4 ≤ a) → t.mem.read a = s.mem.read a)) ∧
    (decodesTo b.nodes b.root bits out → out.length = s.freqSum → s.cfg.capObuf < out.length →
      exec .decompress s = .next (b.completeErr 0x05#8 .outputOverflow (BitVec.ofNat 32 out.length))) ∧
    (decodesTo b.nodes b.root bits out → out.length ≠ s.freqSum →
      exec .decompress s = .next
        (b.completeErr 0x07#8 .corruptFrequencyMap (0x20000000#32 + BitVec.ofNat 32 out.length))) ∧
    (endsInsideCode b.nodes b.root bits start →
      exec .decompress s = .next (b.completeErr 0x05#8 .truncatedStream (BitVec.ofNat 32 start)))

/-- R204, R205, R188: a DECOMPRESS of a FREQ table with no negative entry and some present symbol, and of a non-empty stream of
written bytes within the capacity, completes with BUILD's tree valid and no code table: without error and with OUT_LEN the sum
of the frequencies, or with TruncatedStream, CorruptFrequencyMap or OutputOverflow and OBUF and OUT_LEN unchanged. Where only one
symbol is present and BIT_CNT is its count, within CAP_OBUF, it completes without error and OBUF holds that many copies of it. -/
def Obligations.DecompressCompletes : Prop :=
  ∀ s : State, s.cfg.wellFormed = true → s.status.err = false → (∀ v, (entryAt s.freq v).msb = false) →
    (∃ v, entryAt s.freq v ≠ 0#32) → s.bitCnt ≠ 0#32 → s.bitCnt.toNat ≤ 8 * s.cfg.capBbuf →
    (∀ j, j < ceilDiv s.bitCnt.toNat 8 → s.bufByte .bbuf j ≠ none) →
    ∃ t, exec .decompress s = .next t ∧ t.status.treeValid = true ∧ t.status.ctabValid = false ∧
      ((t.status.err = false ∧ t.outLen.toNat = s.freqSum ∧
          ∀ i, i < t.outLen.toNat → ∃ v, t.bufByte .obuf i = some v ∧ entryAt s.freq v ≠ 0#32) ∨
        (t.status.err = true ∧ (t.errCode = 3#8 ∨ t.errCode = 4#8 ∨ t.errCode = 10#8) ∧ t.outLen = s.outLen ∧
          t.mem = s.mem)) ∧
      (∀ v, (∀ u, u ≠ v → entryAt s.freq u = 0#32) → s.bitCnt = entryAt s.freq v → s.bitCnt.toNat ≤ s.cfg.capObuf →
        t.status.err = false ∧ t.outLen = s.bitCnt ∧ ∀ i, i < s.bitCnt.toNat → t.bufByte .obuf i = some v)

/-- R204, R206, R224: DECOMPRESS of the empty payload, and its checks before the walk in their order. -/
def Obligations.DecompressEmptyAndErrors : Prop :=
  ∀ s : State,
    (8 * s.cfg.capBbuf < s.bitCnt.toNat →
      exec .decompress s = .next (s.completeErr 0x07#8 .bitCountTooLarge s.bitCnt)) ∧
    (s.bitCnt.toNat ≤ 8 * s.cfg.capBbuf →
      (∀ v : Byte, (entryAt s.freq v).msb = true → (∀ u : Byte, u.toNat < v.toNat → (entryAt s.freq u).msb = false) →
        exec .decompress s = .next (s.completeErr 0x07#8 .corruptFrequencyMap (0x30000000#32 + v.setWidth 32))) ∧
      ((∀ v, entryAt s.freq v = 0#32) →
        (s.bitCnt = 0#32 → exec .decompress s = .next { s.completeOk.invalidateTree with outLen := 0#32 }) ∧
        (s.bitCnt ≠ 0#32 →
          exec .decompress s = .next (s.completeErr 0x07#8 .corruptFrequencyMap 0x10000000#32))) ∧
      (∀ b : State, s.status.err = false → exec .build s = .next b → b.status.err = false →
        (s.bitCnt = 0#32 →
          exec .decompress s = .next (b.completeErr 0x07#8 .corruptFrequencyMap 0x20000000#32)) ∧
        (s.bitCnt ≠ 0#32 → (∃ j, j < ceilDiv s.bitCnt.toNat 8 ∧ s.bufByte .bbuf j = none) →
          exec .decompress s = .fault .uninitRead)))

/-- R207: the round trip. A COMPRESS that completes without error from IN_LEN written bytes, and a DECOMPRESS in any state with
the same parameters that holds its FREQ, BIT_CNT and stream bytes: DECOMPRESS completes without error and OBUF holds the
input. The empty input gives OUT_LEN 0. -/
def Obligations.RoundTrip : Prop :=
  ∀ s t u : State, s.cfg.wellFormed = true → s.status.err = false → s.inLen.toNat ≤ s.cfg.capObuf →
    exec .compress s = .next t → t.status.err = false →
    u.cfg = s.cfg → u.freq = t.freq → u.bitCnt = t.bitCnt → u.status.err = false →
    (∀ j, j < ceilDiv t.bitCnt.toNat 8 → u.bufByte .bbuf j = t.bufByte .bbuf j) →
    ∃ w, exec .decompress u = .next w ∧ w.status.err = false ∧ w.outLen = s.inLen ∧
      ∀ i, i < s.inLen.toNat → w.bufByte .obuf i = s.bufByte .ibuf i
end

