-- ==== Sys2Proof/Laws/Memory.lean ====
section
/-! SUPPORT. The laws of buffer memory: read after write, the bytes a run of writes leaves, the canonical form kept, and what
reading a run of bytes answers. -/

namespace Sys2Proof.Machine

@[simp] theorem Memory.read_nil (a : Nat) : Memory.read [] a = none := rfl

theorem Memory.read_write (m : Memory) (a : Nat) (b : Byte) (x : Nat) :
    (m.write a b).read x = if a = x then some b else m.read x := by
  induction m with
  | nil => simp [Memory.write, Memory.read]
  | cons c rest ih =>
    obtain ⟨k, v⟩ := c
    simp only [Memory.write]
    split
    · simp [Memory.read]
    · split
      · rename_i h; subst h; simp only [Memory.read]; split <;> rfl
      · rename_i h1 h2
        simp only [Memory.read, ih]
        by_cases hk : k = x
        · have : a ≠ x := by omega
          simp [hk, this]
        · simp [hk]

@[simp] theorem Memory.read_write_same (m : Memory) (a : Nat) (b : Byte) : (m.write a b).read a = some b := by
  simp [Memory.read_write]

theorem Memory.read_write_other (m : Memory) {a x : Nat} (b : Byte) (h : a ≠ x) : (m.write a b).read x = m.read x := by
  simp [Memory.read_write, h]

@[simp] theorem Memory.writeBytes_nil (m : Memory) (a : Nat) : m.writeBytes a [] = m := rfl

/-- The bytes that a run of writes leaves: its own where it reaches, the old ones elsewhere. -/
theorem Memory.read_writeBytes (bs : List Byte) (m : Memory) (a x : Nat) :
    (m.writeBytes a bs).read x = if a ≤ x ∧ x < a + bs.length then bs[x - a]? else m.read x := by
  induction bs generalizing m a with
  | nil => simp [Memory.writeBytes]
  | cons b bs ih =>
    simp only [Memory.writeBytes, ih, Memory.read_write, List.length_cons]
    by_cases hx : a = x
    · subst hx; simp
    · by_cases h : a + 1 ≤ x ∧ x < a + 1 + bs.length
      · have h' : a ≤ x ∧ x < a + (bs.length + 1) := by omega
        have hs : x - a = (x - (a + 1)) + 1 := by omega
        rw [if_pos h, if_pos h', hs, List.getElem?_cons_succ]
      · have h' : ¬(a ≤ x ∧ x < a + (bs.length + 1)) := by omega
        rw [if_neg h, if_neg h', if_neg hx]

theorem Memory.read_writeBytes_outside (bs : List Byte) (m : Memory) {a x : Nat} (h : x < a ∨ a + bs.length ≤ x) :
    (m.writeBytes a bs).read x = m.read x := by
  rw [Memory.read_writeBytes, if_neg (by omega)]

theorem Memory.read_writeBytes_inside (bs : List Byte) (m : Memory) (a i : Nat) (h : i < bs.length) :
    (m.writeBytes a bs).read (a + i) = some bs[i] := by
  rw [Memory.read_writeBytes, if_pos (by omega), Nat.add_sub_cancel_left, List.getElem?_eq_getElem h]

/-- Every address listed after a write was listed before or is the one written. -/
theorem Memory.mem_write {m : Memory} {a : Nat} {b : Byte} {c : Host.Cell} (h : c ∈ m.write a b) : c.1 = a ∨ c ∈ m := by
  induction m with
  | nil => simp [Memory.write] at h; simp [h]
  | cons d rest ih =>
    obtain ⟨k, v⟩ := d
    simp only [Memory.write] at h
    split at h
    · simp only [List.mem_cons] at h ⊢; rcases h with h | h | h <;> simp [h]
    · split at h
      · simp only [List.mem_cons] at h ⊢; rcases h with h | h <;> simp [h]
      · simp only [List.mem_cons] at h ⊢
        rcases h with h | h
        · simp [h]
        · rcases ih h with h | h <;> simp [h]

/-- A write keeps the canonical form. -/
theorem Memory.write_wf {m : Memory} (a : Nat) (b : Byte) (h : m.wf) : (m.write a b).wf := by
  induction m with
  | nil => simp [Memory.write, Memory.wf]
  | cons d rest ih =>
    obtain ⟨k, v⟩ := d
    obtain ⟨hk, hrest⟩ := List.pairwise_cons.1 h
    simp only [Memory.write]
    split
    · rename_i hlt
      refine List.pairwise_cons.2 ⟨?_, h⟩
      intro c hc
      rcases List.mem_cons.1 hc with hc | hc
      · subst hc; exact hlt
      · exact Nat.lt_trans hlt (hk c hc)
    · split
      · rename_i _ heq
        exact List.pairwise_cons.2 ⟨fun c hc => heq ▸ hk c hc, hrest⟩
      · rename_i h1 h2
        refine List.pairwise_cons.2 ⟨?_, ih hrest⟩
        intro c hc
        rcases Memory.mem_write hc with hc | hc
        · show k < c.1; omega
        · exact hk c hc

/-- A run of writes keeps the canonical form. -/
theorem Memory.writeBytes_wf (bs : List Byte) {m : Memory} (a : Nat) (h : m.wf) : (m.writeBytes a bs).wf := by
  induction bs generalizing m a with
  | nil => exact h
  | cons b bs ih => exact ih (a + 1) (Memory.write_wf a b h)

/-- Every address listed after a run of writes was listed before or lies in the run. -/
theorem Memory.mem_writeBytes (bs : List Byte) {m : Memory} {a : Nat} {c : Host.Cell} (h : c ∈ m.writeBytes a bs) :
    (a ≤ c.1 ∧ c.1 < a + bs.length) ∨ c ∈ m := by
  induction bs generalizing m a with
  | nil => exact .inr h
  | cons b bs ih =>
    simp only [List.length_cons]
    rcases ih h with h | h
    · left; omega
    · rcases Memory.mem_write h with h | h
      · left; omega
      · exact .inr h

@[simp] theorem Memory.length_readCells (m : Memory) (a n : Nat) : (m.readCells a n).length = n := by
  simp [Memory.readCells]

theorem allValues_eq_some {cells : List (Option Byte)} {bs : List Byte} :
    allValues cells = some bs ↔ cells = bs.map some := by
  induction cells generalizing bs with
  | nil => cases bs <;> simp [allValues]
  | cons c rest ih =>
    cases c with
    | none => cases bs <;> simp [allValues]
    | some b =>
      cases bs with
      | nil =>
        simp only [allValues]
        cases allValues rest <;> simp
      | cons b' bs' =>
        simp only [allValues, List.map_cons, List.cons.injEq, Option.some.injEq]
        rw [← ih]
        cases allValues rest <;> simp

theorem allValues_eq_none {cells : List (Option Byte)} : allValues cells = none ↔ none ∈ cells := by
  induction cells with
  | nil => simp [allValues]
  | cons c rest ih =>
    cases c with
    | none => simp [allValues]
    | some b =>
      simp only [allValues, List.mem_cons, reduceCtorEq, false_or, ← ih]
      cases allValues rest <;> simp

/-- Reading a run of bytes answers them exactly when each holds its value. -/
theorem Memory.readBytes_eq_some {m : Memory} {a n : Nat} {bs : List Byte} :
    m.readBytes a n = some bs ↔ bs.length = n ∧ ∀ i, (h : i < bs.length) → m.read (a + i) = some bs[i] := by
  rw [Memory.readBytes, allValues_eq_some]
  constructor
  · intro h
    have hl : bs.length = n := by simpa using (congrArg List.length h).symm
    refine ⟨hl, fun i hi => ?_⟩
    have := congrArg (fun l => l[i]?) h
    simpa [Memory.readCells, hl ▸ hi, hi] using this
  · rintro ⟨hl, h⟩
    refine List.ext_getElem (by simp [hl]) fun i h1 h2 => ?_
    simp only [List.length_map] at h2
    simp [Memory.readCells, h i h2]

/-- Reading a run of bytes fails exactly when one of them holds none. -/
theorem Memory.readBytes_eq_none {m : Memory} {a n : Nat} :
    m.readBytes a n = none ↔ ∃ i, i < n ∧ m.read (a + i) = none := by
  simp [Memory.readBytes, allValues_eq_none, Memory.readCells]

end Sys2Proof.Machine
end

