-- ==== Sys2Proof/Laws/Ops.lean ====
section
/-! SUPPORT. What each shared operation and each command operation can do, once each: the provers cite these instead of unfolding
them. -/

namespace Sys2Proof.Machine

/-! ### Outcomes -/

/-- A command that answers a next state completed its operation in success or in error (R125, R126). -/
theorem OpOut.complete_cases {o : OpOut} {t : State} (h : o.complete = .next t) :
    (∃ s, o = .done s ∧ t = s.completeOk) ∨
      ∃ s op cause info, o = .raised s op cause info ∧ t = s.completeErr op cause info := by
  cases o with
  | done s => exact .inl ⟨s, rfl, by simpa [OpOut.complete] using h.symm⟩
  | raised s op cause info => exact .inr ⟨s, op, cause, info, rfl, by simpa [OpOut.complete] using h.symm⟩
  | fault f => simp [OpOut.complete] at h

@[simp] theorem OpOut.complete_done (s : State) : (OpOut.done s).complete = .next s.completeOk := rfl

@[simp] theorem OpOut.complete_raised (s : State) (op : Byte) (cause : ErrCause) (info : Word) :
    (OpOut.raised s op cause info).complete = .next (s.completeErr op cause info) := rfl

@[simp] theorem OpOut.complete_fault (f : Fault) : (OpOut.fault f).complete = .fault f := rfl

@[simp] theorem OpOut.done_andThen (s : State) (k : State → OpOut) : (OpOut.done s).andThen k = k s := rfl

@[simp] theorem OpOut.raised_andThen (s : State) (op : Byte) (cause : ErrCause) (info : Word) (k : State → OpOut) :
    (OpOut.raised s op cause info).andThen k = .raised s op cause info := rfl

@[simp] theorem OpOut.fault_andThen (f : Fault) (k : State → OpOut) : (OpOut.fault f).andThen k = .fault f := rfl

/-- No command is refused, and its only fault is UninitRead (R129). -/
theorem OpOut.complete_ne_refused (o : OpOut) (r : Refusal) : o.complete ≠ .refused r := by
  cases o <;> simp [OpOut.complete]

/-- A composite ends well only through both of its parts (R124). -/
theorem OpOut.andThen_eq_done {o : OpOut} {k : State → OpOut} {t : State} :
    o.andThen k = .done t ↔ ∃ s, o = .done s ∧ k s = .done t := by
  cases o <;> simp [OpOut.andThen]

/-- Every error cause has a code of 1 to 11 (R220). -/
theorem ErrCause.code_range (c : ErrCause) : 1 ≤ c.code.toNat ∧ c.code.toNat ≤ 11 := by cases c <;> decide

/-- The error record reads back as {OP, CODE} (R33). -/
theorem errCodeWord_toNat (op code : Byte) : (errCodeWord op code).toNat = op.toNat * 256 + code.toNat := by
  have h : ∀ x : BitVec 32, x = errCodeWord op code → x.toNat = op.toNat * 256 + code.toNat := by
    intro x hx
    subst hx
    have h1 := op.isLt
    have h2 := code.isLt
    simp only [errCodeWord, BitVec.toNat_append, BitVec.toNat_ofNat]
    rw [← Nat.shiftLeft_add_eq_or_of_lt h2]
    simp [Nat.shiftLeft_eq]
  exact h _ rfl

/-! ### COUNT, BUILD and CODES -/

/-- What COUNT can do (R140). -/
theorem opCount_cases (s : State) :
    (s.cfg.capIbuf < s.inLen.toNat ∧ opCount s = .raised s 0x01#8 .inputTooLong s.inLen) ∨
      (s.inLen.toNat ≤ s.cfg.capIbuf ∧ s.inputBytes = none ∧ opCount s = .fault .uninitRead) ∨
      ∃ bytes, s.inLen.toNat ≤ s.cfg.capIbuf ∧ s.inputBytes = some bytes ∧
        opCount s = .done { s with freq := countTable bytes } := by
  unfold opCount
  split
  · exact .inl ⟨‹_›, rfl⟩
  · have hle : s.inLen.toNat ≤ s.cfg.capIbuf := by omega
    cases h : s.inputBytes with
    | none => exact .inr (.inl ⟨hle, rfl, rfl⟩)
    | some bytes => exact .inr (.inr ⟨bytes, hle, rfl, rfl⟩)

/-- What BUILD can do (R150, R152). -/
theorem opBuild_cases (s : State) :
    (∃ v, firstNegative s.freq = some v ∧
        opBuild s = .raised s 0x02#8 .corruptFrequencyMap (corruptInfo 3#4 (0#20 ++ v))) ∨
      (firstNegative s.freq = none ∧ presentSymbols s.freq = [] ∧ opBuild s = .raised s 0x02#8 .emptyAlphabet 0#32) ∨
      (firstNegative s.freq = none ∧ presentSymbols s.freq ≠ [] ∧
        opBuild s = .done (s.commitTree (presentSymbols s.freq).length (buildStore s.freq).1
          (poolRoot (buildStore s.freq).2))) := by
  unfold opBuild
  cases h : firstNegative s.freq with
  | some v => exact .inl ⟨v, rfl, rfl⟩
  | none =>
    by_cases hp : presentSymbols s.freq = []
    · exact .inr (.inl ⟨rfl, hp, by simp [hp, opcode]⟩)
    · exact .inr (.inr ⟨rfl, hp, by simp [hp]⟩)

/-- What CODES can do (R170). -/
theorem opCodes_cases (s : State) :
    (s.status.treeValid = false ∧ opCodes s = .raised s 0x03#8 .noTree 0#32) ∨
      (s.status.treeValid = true ∧
        opCodes s = .done { s with
          ctab := codeTable (treeCodes s.nodes s.root)
          maxCodeLen := BitVec.ofNat 8 (maxLen (codeTable (treeCodes s.nodes s.root)))
          status := { s.status with ctabValid := true } }) := by
  unfold opCodes
  cases h : s.status.treeValid
  · exact .inl ⟨rfl, rfl⟩
  · exact .inr ⟨rfl, rfl⟩

/-! ### ENCODE and DECODE -/

/-- What ENCODE can do (R180): an error or a fault that leaves the state as it was, the empty input, or the stream's commit. -/
theorem opEncode_cases (s : State) :
    (∃ cause info, opEncode s = .raised s 0x04#8 cause info) ∨ opEncode s = .fault .uninitRead ∨
      (s.inLen = 0#32 ∧ opEncode s = .done { s with bitCnt := 0#32 }) ∨
      ∃ bits, s.inLen ≠ 0#32 ∧ s.inLen.toNat ≤ s.cfg.capIbuf ∧ s.status.ctabValid = true ∧
        encodeCells s.ctab 0 s.inputCells = .ok bits ∧ bits.length ≤ 8 * s.cfg.capBbuf ∧
        opEncode s = .done (s.commitStream bits) := by
  unfold opEncode
  split
  · exact .inl ⟨_, _, rfl⟩
  · rename_i hcap
    split
    · exact .inr (.inr (.inl ⟨‹_›, rfl⟩))
    · rename_i hne
      split
      · rename_i hv
        cases he : encodeCells s.ctab 0 s.inputCells with
        | error e =>
          cases e with
          | uninit => exact .inr (.inl rfl)
          | unknown i => exact .inl ⟨_, _, rfl⟩
        | ok bits =>
          by_cases hb : 8 * s.cfg.capBbuf < bits.length
          · exact .inl ⟨_, _, by simp [hb, opcode]; exact ⟨rfl, rfl⟩⟩
          · exact .inr (.inr (.inr ⟨bits, hne, by omega, hv, rfl, by omega, by simp [hb]⟩))
      · exact .inl ⟨_, _, rfl⟩

/-- What the end of a decoding can do (R186). -/
theorem emitOutput_cases (s : State) (out : List Byte) :
    (s.cfg.capObuf < out.length ∧
        s.emitOutput out = .raised s 0x05#8 .outputOverflow (BitVec.ofNat 32 out.length)) ∨
      (out.length ≤ s.cfg.capObuf ∧ s.emitOutput out = .done (s.commitOutput out)) := by
  unfold State.emitOutput
  split
  · exact .inl ⟨‹_›, rfl⟩
  · exact .inr ⟨by omega, rfl⟩

/-- What DECODE can do (R186): an error or a fault that leaves the state as it was, the empty stream, or the output's commit. -/
theorem opDecode_cases (s : State) :
    (∃ cause info, opDecode s = .raised s 0x05#8 cause info) ∨ opDecode s = .fault .uninitRead ∨
      (s.bitCnt = 0#32 ∧ opDecode s = .done { s with outLen := 0#32 }) ∨
      ∃ bytes out, s.bitCnt ≠ 0#32 ∧ s.bitCnt.toNat ≤ 8 * s.cfg.capBbuf ∧ s.status.treeValid = true ∧
        s.streamBytes = some bytes ∧ decodeBits s.nodes s.root (streamBits bytes s.bitCnt.toNat) = .ok out ∧
        out.length ≤ s.cfg.capObuf ∧ opDecode s = .done (s.commitOutput out) := by
  unfold opDecode
  split
  · exact .inl ⟨_, _, rfl⟩
  · rename_i hcap
    split
    · exact .inr (.inr (.inl ⟨‹_›, rfl⟩))
    · rename_i hne
      split
      · rename_i hv
        cases hs : s.streamBytes with
        | none => exact .inr (.inl rfl)
        | some bytes =>
          cases hd : decodeBits s.nodes s.root (streamBits bytes s.bitCnt.toNat) with
          | error e => exact .inl ⟨_, _, by simp only [hd]; exact rfl⟩
          | ok out =>
            simp only [hd]
            rcases emitOutput_cases s out with ⟨_, h⟩ | ⟨hle, h⟩
            · exact .inl ⟨_, _, h⟩
            · exact .inr (.inr (.inr ⟨bytes, out, hne, by omega, hv, rfl, hd, hle, h⟩))
      · exact .inl ⟨_, _, rfl⟩

/-! ### COMPRESS and DECOMPRESS -/

/-- What COMPRESS can do (R200, R201): COUNT's error or fault; the empty input; or BUILD, CODES and ENCODE after COUNT. -/
theorem opCompress_cases (s : State) :
    (opCompress s = .raised s 0x01#8 .inputTooLong s.inLen ∧ s.cfg.capIbuf < s.inLen.toNat) ∨
      (opCompress s = .fault .uninitRead ∧ s.inputBytes = none) ∨
      ∃ bytes, s.inLen.toNat ≤ s.cfg.capIbuf ∧ s.inputBytes = some bytes ∧
        ((s.inLen = 0#32 ∧
            opCompress s = .done { ({ s with freq := countTable bytes } : State).invalidateTree with bitCnt := 0#32 }) ∨
          (s.inLen ≠ 0#32 ∧
            opCompress s = ((opBuild { s with freq := countTable bytes }).andThen opCodes).andThen opEncode)) := by
  unfold opCompress
  rcases opCount_cases s with ⟨hc, h⟩ | ⟨_, hi, h⟩ | ⟨bytes, hle, hi, h⟩
  · exact .inl ⟨by simp [h], hc⟩
  · exact .inr (.inl ⟨by simp [h], hi⟩)
  · refine .inr (.inr ⟨bytes, hle, hi, ?_⟩)
    by_cases h0 : s.inLen = 0#32
    · exact .inl ⟨h0, by simp [h, h0]⟩
    · exact .inr ⟨h0, by simp [h, h0]⟩

/-- What the decode phase of DECOMPRESS can do (R204, R205): an error or a fault that leaves the state as it was, or the
output's commit with as many bytes as the total. -/
theorem decodePhase_cases (total : Nat) (s : State) :
    (∃ op cause info, decodePhase total s = .raised s op cause info ∧ (op = 0x05#8 ∨ op = 0x07#8)) ∨
      decodePhase total s = .fault .uninitRead ∨
      ∃ bytes out, s.bitCnt ≠ 0#32 ∧ s.streamBytes = some bytes ∧
        decodeBits s.nodes s.root (streamBits bytes s.bitCnt.toNat) = .ok out ∧ out.length = total ∧
        out.length ≤ s.cfg.capObuf ∧ decodePhase total s = .done (s.commitOutput out) := by
  unfold decodePhase
  split
  · exact .inl ⟨_, _, _, rfl, .inr rfl⟩
  · rename_i hne
    cases hs : s.streamBytes with
    | none => exact .inr (.inl rfl)
    | some bytes =>
      cases hd : decodeBits s.nodes s.root (streamBits bytes s.bitCnt.toNat) with
      | error e => exact .inl ⟨_, _, _, by simp only [hd]; exact rfl, .inl rfl⟩
      | ok out =>
        simp only [hd]
        by_cases ht : out.length = total
        · rcases emitOutput_cases s out with ⟨_, h⟩ | ⟨hle, h⟩
          · exact .inl ⟨_, _, _, by simp [ht]; exact h, .inl rfl⟩
          · exact .inr (.inr ⟨bytes, out, hne, rfl, hd, ht, hle, by simp [ht]; exact h⟩)
        · exact .inl ⟨_, _, _, by simp [ht]; exact ⟨rfl, rfl, rfl⟩, .inr rfl⟩

/-- What DECOMPRESS can do (R204): an error before BUILD that leaves the state as it was; the empty payload; or BUILD and the
decode phase. -/
theorem opDecompress_cases (s : State) :
    (∃ cause info, opDecompress s = .raised s 0x07#8 cause info) ∨
      (s.bitCnt = 0#32 ∧ s.freqSum = 0 ∧ opDecompress s = .done { s.invalidateTree with outLen := 0#32 }) ∨
      (s.bitCnt.toNat ≤ 8 * s.cfg.capBbuf ∧ firstNegative s.freq = none ∧ s.freqSum ≠ 0 ∧
        opDecompress s = (opBuild s).andThen (decodePhase s.freqSum)) := by
  unfold opDecompress
  split
  · exact .inl ⟨_, _, rfl⟩
  · rename_i hcap
    cases hn : firstNegative s.freq with
    | some v => exact .inl ⟨_, _, rfl⟩
    | none =>
      by_cases h0 : s.freqSum = 0
      · by_cases hb : s.bitCnt = 0#32
        · exact .inr (.inl ⟨hb, h0, by simp [h0, hb]⟩)
        · exact .inl ⟨_, _, by simp [h0, hb, opcode]; exact ⟨rfl, rfl⟩⟩
      · exact .inr (.inr ⟨by omega, rfl, h0, by simp [h0]⟩)

/-! ### The step -/

/-- What a completion step can do (R92, R122). -/
theorem coreStep_cases (s : State) :
    (∃ i, decode s.pending = .ok i ∧ coreStep s = exec i s) ∨
      (decode s.pending = .error (.badCommand s.pending) ∧ coreStep s = .next (s.badCommand s.pending)) := by
  have herr : ∀ e, decode s.pending = .error e → e = .badCommand s.pending := by
    intro e he
    unfold decode at he
    split at he
    · exact (Except.error.inj he).symm
    · split at he
      · exact absurd he (by simp)
      · exact (Except.error.inj he).symm
  unfold coreStep
  cases hd : decode s.pending with
  | ok i => exact .inl ⟨i, rfl, rfl⟩
  | error e =>
    have := herr e hd
    subst this
    exact .inr ⟨rfl, rfl⟩

/-- What a step that answers a next state did: a completion or a host step (R6, R78, R122). -/
theorem step_cases {s t : State} (h : step s = .next t) :
    s.faultMark = none ∧
      ((s.turn = .core ∧ coreStep s = .next t) ∨ (s.turn = .host ∧ hostStep s = .next t)) := by
  unfold step at h
  cases hf : s.faultMark with
  | some f => simp [hf] at h
  | none =>
    cases ht : s.turn with
    | core => simp only [hf, ht] at h; exact ⟨rfl, .inl ⟨rfl, h⟩⟩
    | host => simp only [hf, ht] at h; exact ⟨rfl, .inr ⟨rfl, h⟩⟩

/-- The core agent moves only while a command is in flight (R122). -/
theorem turn_core_busy {s : State} (h : s.turn = .core) : s.status.busy = true := by
  cases hb : s.status.busy with
  | true => rfl
  | false => simp [State.turn, hb] at h

/-- What a host step that answers a next state did (R104, R250). -/
theorem hostStep_cases {s t : State} (h : hostStep s = .next t) :
    (s.host = [] ∧ t = s) ∨
      (∃ op rest txn, s.host = op :: rest ∧ op.transaction = some txn ∧ t = (s.hostAdvance rest).busDo txn) ∨
      (∃ rest, s.host = .wait :: rest ∧
        t = (s.hostAdvance (if s.status.busy then .wait :: rest else rest)).hostRead statusWordAddr) ∨
      (∃ rest, s.host = .waitIrq :: rest ∧ t = s.hostAdvance (if s.irq then rest else .waitIrq :: rest)) ∨
      (∃ rest, s.host = .rst :: rest ∧ t = (s.hostAdvance rest).resetEvent) := by
  have htx : ∀ op rest, s.hostTransact op rest = .next t →
      ∃ txn, op.transaction = some txn ∧ t = (s.hostAdvance rest).busDo txn := by
    intro op rest hx
    unfold State.hostTransact at hx
    split at hx
    · rename_i txn heq
      exact ⟨txn, heq, by simpa using hx.symm⟩
    · simp at hx
  unfold hostStep at h
  split at h
  · exact .inl ⟨‹_›, by simpa using h.symm⟩
  · rename_i addr width v rest heq
    obtain ⟨txn, h1, h2⟩ := htx _ _ h
    exact .inr (.inl ⟨_, rest, txn, heq, h1, h2⟩)
  · rename_i addr width rest heq
    obtain ⟨txn, h1, h2⟩ := htx _ _ h
    exact .inr (.inl ⟨_, rest, txn, heq, h1, h2⟩)
  · rename_i rest heq
    exact .inr (.inr (.inl ⟨rest, heq, by simpa using h.symm⟩))
  · rename_i rest heq
    exact .inr (.inr (.inr (.inl ⟨rest, heq, by simpa using h.symm⟩)))
  · rename_i rest heq
    exact .inr (.inr (.inr (.inr ⟨rest, heq, by simpa using h.symm⟩)))

end Sys2Proof.Machine
end

