-- ==== Sys2Proof/Laws/PerInstr.lean ====
section
/-! SUPPORT. What holds of every command as syntax, one lemma per constructor. -/

namespace Sys2Proof.Laws.EncodedWell

/-- A command's word is well-formed, holds the command's opcode in OP and zeros in RSV (R90, R95). -/
def Statement (i : Instr) : Prop :=
  commandWordWellFormed (encode i) = true ∧ opField (encode i) = opcode i ∧ rsvField (encode i) = 0#24

theorem nop : Statement .nop := by unfold Statement; decide
theorem count : Statement .count := by unfold Statement; decide
theorem build : Statement .build := by unfold Statement; decide
theorem codes : Statement .codes := by unfold Statement; decide
theorem encode : Statement .encode := by unfold Statement; decide
theorem decode : Statement .decode := by unfold Statement; decide
theorem compress : Statement .compress := by unfold Statement; decide
theorem decompress : Statement .decompress := by unfold Statement; decide
theorem clear : Statement .clear := by unfold Statement; decide

end Sys2Proof.Laws.EncodedWell
end

