-- ==== Sys2Proof/Laws/State.lean ====
section
/-! SUPPORT. One lemma per field of State per update, true by definition, so that no proof unfolds a record update. -/

namespace Sys2Proof.Machine

variable (s : State)


@[simp] theorem State.accept_cfg (w : Word) (d : Nat) : (s.accept w d).cfg = s.cfg := rfl
@[simp] theorem State.accept_status (w : Word) (d : Nat) : (s.accept w d).status = s.status.accepted := rfl
@[simp] theorem State.accept_irqEn (w : Word) (d : Nat) : (s.accept w d).irqEn = s.irqEn := rfl
@[simp] theorem State.accept_errCode (w : Word) (d : Nat) : (s.accept w d).errCode = 0#8 := rfl
@[simp] theorem State.accept_errOp (w : Word) (d : Nat) : (s.accept w d).errOp = 0#8 := rfl
@[simp] theorem State.accept_errInfo (w : Word) (d : Nat) : (s.accept w d).errInfo = 0#32 := rfl
@[simp] theorem State.accept_inLen (w : Word) (d : Nat) : (s.accept w d).inLen = s.inLen := rfl
@[simp] theorem State.accept_bitCnt (w : Word) (d : Nat) : (s.accept w d).bitCnt = s.bitCnt := rfl
@[simp] theorem State.accept_outLen (w : Word) (d : Nat) : (s.accept w d).outLen = s.outLen := rfl
@[simp] theorem State.accept_symCnt (w : Word) (d : Nat) : (s.accept w d).symCnt = s.symCnt := rfl
@[simp] theorem State.accept_nodeCnt (w : Word) (d : Nat) : (s.accept w d).nodeCnt = s.nodeCnt := rfl
@[simp] theorem State.accept_root (w : Word) (d : Nat) : (s.accept w d).root = s.root := rfl
@[simp] theorem State.accept_total (w : Word) (d : Nat) : (s.accept w d).total = s.total := rfl
@[simp] theorem State.accept_maxCodeLen (w : Word) (d : Nat) : (s.accept w d).maxCodeLen = s.maxCodeLen := rfl
@[simp] theorem State.accept_freq (w : Word) (d : Nat) : (s.accept w d).freq = s.freq := rfl
@[simp] theorem State.accept_nodes (w : Word) (d : Nat) : (s.accept w d).nodes = s.nodes := rfl
@[simp] theorem State.accept_ctab (w : Word) (d : Nat) : (s.accept w d).ctab = s.ctab := rfl
@[simp] theorem State.accept_mem (w : Word) (d : Nat) : (s.accept w d).mem = s.mem := rfl
@[simp] theorem State.accept_pending (w : Word) (d : Nat) : (s.accept w d).pending = w := rfl
@[simp] theorem State.accept_faultMark (w : Word) (d : Nat) : (s.accept w d).faultMark = s.faultMark := rfl
@[simp] theorem State.accept_delay (w : Word) (d : Nat) : (s.accept w d).delay = d := rfl
@[simp] theorem State.accept_host (w : Word) (d : Nat) : (s.accept w d).host = s.host := rfl
@[simp] theorem State.accept_busLog (w : Word) (d : Nat) : (s.accept w d).busLog = s.busLog := rfl
@[simp] theorem State.accept_draws (w : Word) (d : Nat) : (s.accept w d).draws = s.draws := rfl

@[simp] theorem State.completeOk_cfg : (s.completeOk).cfg = s.cfg := rfl
@[simp] theorem State.completeOk_status : (s.completeOk).status = s.status.completedOk := rfl
@[simp] theorem State.completeOk_irqEn : (s.completeOk).irqEn = s.irqEn := rfl
@[simp] theorem State.completeOk_errCode : (s.completeOk).errCode = s.errCode := rfl
@[simp] theorem State.completeOk_errOp : (s.completeOk).errOp = s.errOp := rfl
@[simp] theorem State.completeOk_errInfo : (s.completeOk).errInfo = s.errInfo := rfl
@[simp] theorem State.completeOk_inLen : (s.completeOk).inLen = s.inLen := rfl
@[simp] theorem State.completeOk_bitCnt : (s.completeOk).bitCnt = s.bitCnt := rfl
@[simp] theorem State.completeOk_outLen : (s.completeOk).outLen = s.outLen := rfl
@[simp] theorem State.completeOk_symCnt : (s.completeOk).symCnt = s.symCnt := rfl
@[simp] theorem State.completeOk_nodeCnt : (s.completeOk).nodeCnt = s.nodeCnt := rfl
@[simp] theorem State.completeOk_root : (s.completeOk).root = s.root := rfl
@[simp] theorem State.completeOk_total : (s.completeOk).total = s.total := rfl
@[simp] theorem State.completeOk_maxCodeLen : (s.completeOk).maxCodeLen = s.maxCodeLen := rfl
@[simp] theorem State.completeOk_freq : (s.completeOk).freq = s.freq := rfl
@[simp] theorem State.completeOk_nodes : (s.completeOk).nodes = s.nodes := rfl
@[simp] theorem State.completeOk_ctab : (s.completeOk).ctab = s.ctab := rfl
@[simp] theorem State.completeOk_mem : (s.completeOk).mem = s.mem := rfl
@[simp] theorem State.completeOk_pending : (s.completeOk).pending = 0#32 := rfl
@[simp] theorem State.completeOk_faultMark : (s.completeOk).faultMark = s.faultMark := rfl
@[simp] theorem State.completeOk_delay : (s.completeOk).delay = 0 := rfl
@[simp] theorem State.completeOk_host : (s.completeOk).host = s.host := rfl
@[simp] theorem State.completeOk_busLog : (s.completeOk).busLog = s.busLog := rfl
@[simp] theorem State.completeOk_draws : (s.completeOk).draws = s.draws := rfl

@[simp] theorem State.completeErr_cfg (op : Byte) (c : ErrCause) (x : Word) : (s.completeErr op c x).cfg = s.cfg := rfl
@[simp] theorem State.completeErr_status (op : Byte) (c : ErrCause) (x : Word) :
    (s.completeErr op c x).status = s.status.completedErr := rfl
@[simp] theorem State.completeErr_irqEn (op : Byte) (c : ErrCause) (x : Word) : (s.completeErr op c x).irqEn = s.irqEn := rfl
@[simp] theorem State.completeErr_errCode (op : Byte) (c : ErrCause) (x : Word) :
    (s.completeErr op c x).errCode = c.code := rfl
@[simp] theorem State.completeErr_errOp (op : Byte) (c : ErrCause) (x : Word) : (s.completeErr op c x).errOp = op := rfl
@[simp] theorem State.completeErr_errInfo (op : Byte) (c : ErrCause) (x : Word) : (s.completeErr op c x).errInfo = x := rfl
@[simp] theorem State.completeErr_inLen (op : Byte) (c : ErrCause) (x : Word) : (s.completeErr op c x).inLen = s.inLen := rfl
@[simp] theorem State.completeErr_bitCnt (op : Byte) (c : ErrCause) (x : Word) :
    (s.completeErr op c x).bitCnt = s.bitCnt := rfl
@[simp] theorem State.completeErr_outLen (op : Byte) (c : ErrCause) (x : Word) :
    (s.completeErr op c x).outLen = s.outLen := rfl
@[simp] theorem State.completeErr_symCnt (op : Byte) (c : ErrCause) (x : Word) :
    (s.completeErr op c x).symCnt = s.symCnt := rfl
@[simp] theorem State.completeErr_nodeCnt (op : Byte) (c : ErrCause) (x : Word) :
    (s.completeErr op c x).nodeCnt = s.nodeCnt := rfl
@[simp] theorem State.completeErr_root (op : Byte) (c : ErrCause) (x : Word) : (s.completeErr op c x).root = s.root := rfl
@[simp] theorem State.completeErr_total (op : Byte) (c : ErrCause) (x : Word) : (s.completeErr op c x).total = s.total := rfl
@[simp] theorem State.completeErr_maxCodeLen (op : Byte) (c : ErrCause) (x : Word) :
    (s.completeErr op c x).maxCodeLen = s.maxCodeLen := rfl
@[simp] theorem State.completeErr_freq (op : Byte) (c : ErrCause) (x : Word) : (s.completeErr op c x).freq = s.freq := rfl
@[simp] theorem State.completeErr_nodes (op : Byte) (c : ErrCause) (x : Word) : (s.completeErr op c x).nodes = s.nodes := rfl
@[simp] theorem State.completeErr_ctab (op : Byte) (c : ErrCause) (x : Word) : (s.completeErr op c x).ctab = s.ctab := rfl
@[simp] theorem State.completeErr_mem (op : Byte) (c : ErrCause) (x : Word) : (s.completeErr op c x).mem = s.mem := rfl
@[simp] theorem State.completeErr_pending (op : Byte) (c : ErrCause) (x : Word) :
    (s.completeErr op c x).pending = 0#32 := rfl
@[simp] theorem State.completeErr_faultMark (op : Byte) (c : ErrCause) (x : Word) :
    (s.completeErr op c x).faultMark = s.faultMark := rfl
@[simp] theorem State.completeErr_delay (op : Byte) (c : ErrCause) (x : Word) : (s.completeErr op c x).delay = 0 := rfl
@[simp] theorem State.completeErr_host (op : Byte) (c : ErrCause) (x : Word) : (s.completeErr op c x).host = s.host := rfl
@[simp] theorem State.completeErr_busLog (op : Byte) (c : ErrCause) (x : Word) :
    (s.completeErr op c x).busLog = s.busLog := rfl
@[simp] theorem State.completeErr_draws (op : Byte) (c : ErrCause) (x : Word) : (s.completeErr op c x).draws = s.draws := rfl

@[simp] theorem State.invalidateTree_cfg : (s.invalidateTree).cfg = s.cfg := rfl
@[simp] theorem State.invalidateTree_status :
    (s.invalidateTree).status = { s.status with treeValid := false, ctabValid := false } := rfl
@[simp] theorem State.invalidateTree_irqEn : (s.invalidateTree).irqEn = s.irqEn := rfl
@[simp] theorem State.invalidateTree_errCode : (s.invalidateTree).errCode = s.errCode := rfl
@[simp] theorem State.invalidateTree_errOp : (s.invalidateTree).errOp = s.errOp := rfl
@[simp] theorem State.invalidateTree_errInfo : (s.invalidateTree).errInfo = s.errInfo := rfl
@[simp] theorem State.invalidateTree_inLen : (s.invalidateTree).inLen = s.inLen := rfl
@[simp] theorem State.invalidateTree_bitCnt : (s.invalidateTree).bitCnt = s.bitCnt := rfl
@[simp] theorem State.invalidateTree_outLen : (s.invalidateTree).outLen = s.outLen := rfl
@[simp] theorem State.invalidateTree_symCnt : (s.invalidateTree).symCnt = 0#9 := rfl
@[simp] theorem State.invalidateTree_nodeCnt : (s.invalidateTree).nodeCnt = 0#10 := rfl
@[simp] theorem State.invalidateTree_root : (s.invalidateTree).root = 0#9 := rfl
@[simp] theorem State.invalidateTree_total : (s.invalidateTree).total = 0#40 := rfl
@[simp] theorem State.invalidateTree_maxCodeLen : (s.invalidateTree).maxCodeLen = 0#8 := rfl
@[simp] theorem State.invalidateTree_freq : (s.invalidateTree).freq = s.freq := rfl
@[simp] theorem State.invalidateTree_nodes : (s.invalidateTree).nodes = Vector.replicate 512 Node.zero := rfl
@[simp] theorem State.invalidateTree_ctab : (s.invalidateTree).ctab = Vector.replicate 256 none := rfl
@[simp] theorem State.invalidateTree_mem : (s.invalidateTree).mem = s.mem := rfl
@[simp] theorem State.invalidateTree_pending : (s.invalidateTree).pending = s.pending := rfl
@[simp] theorem State.invalidateTree_faultMark : (s.invalidateTree).faultMark = s.faultMark := rfl
@[simp] theorem State.invalidateTree_delay : (s.invalidateTree).delay = s.delay := rfl
@[simp] theorem State.invalidateTree_host : (s.invalidateTree).host = s.host := rfl
@[simp] theorem State.invalidateTree_busLog : (s.invalidateTree).busLog = s.busLog := rfl
@[simp] theorem State.invalidateTree_draws : (s.invalidateTree).draws = s.draws := rfl

@[simp] theorem State.commitTree_cfg (n : Nat) (st : List Node) (r : Nat) : (s.commitTree n st r).cfg = s.cfg := rfl
@[simp] theorem State.commitTree_status (n : Nat) (st : List Node) (r : Nat) :
    (s.commitTree n st r).status = { s.status with treeValid := true, ctabValid := false } := rfl
@[simp] theorem State.commitTree_irqEn (n : Nat) (st : List Node) (r : Nat) : (s.commitTree n st r).irqEn = s.irqEn := rfl
@[simp] theorem State.commitTree_errCode (n : Nat) (st : List Node) (r : Nat) :
    (s.commitTree n st r).errCode = s.errCode := rfl
@[simp] theorem State.commitTree_errOp (n : Nat) (st : List Node) (r : Nat) : (s.commitTree n st r).errOp = s.errOp := rfl
@[simp] theorem State.commitTree_errInfo (n : Nat) (st : List Node) (r : Nat) :
    (s.commitTree n st r).errInfo = s.errInfo := rfl
@[simp] theorem State.commitTree_inLen (n : Nat) (st : List Node) (r : Nat) : (s.commitTree n st r).inLen = s.inLen := rfl
@[simp] theorem State.commitTree_bitCnt (n : Nat) (st : List Node) (r : Nat) : (s.commitTree n st r).bitCnt = s.bitCnt := rfl
@[simp] theorem State.commitTree_outLen (n : Nat) (st : List Node) (r : Nat) : (s.commitTree n st r).outLen = s.outLen := rfl
@[simp] theorem State.commitTree_symCnt (n : Nat) (st : List Node) (r : Nat) :
    (s.commitTree n st r).symCnt = BitVec.ofNat 9 n := rfl
@[simp] theorem State.commitTree_nodeCnt (n : Nat) (st : List Node) (r : Nat) :
    (s.commitTree n st r).nodeCnt = BitVec.ofNat 10 (2 * n - 1) := rfl
@[simp] theorem State.commitTree_root (n : Nat) (st : List Node) (r : Nat) :
    (s.commitTree n st r).root = BitVec.ofNat 9 r := rfl
@[simp] theorem State.commitTree_total (n : Nat) (st : List Node) (r : Nat) :
    (s.commitTree n st r).total = (st.getD r Node.zero).freq := rfl
@[simp] theorem State.commitTree_maxCodeLen (n : Nat) (st : List Node) (r : Nat) :
    (s.commitTree n st r).maxCodeLen = 0#8 := rfl
@[simp] theorem State.commitTree_freq (n : Nat) (st : List Node) (r : Nat) : (s.commitTree n st r).freq = s.freq := rfl
@[simp] theorem State.commitTree_nodes (n : Nat) (st : List Node) (r : Nat) :
    (s.commitTree n st r).nodes = tabulate 512 (fun i => if i < 2 * n - 1 then st.getD i Node.zero else Node.zero) := rfl
@[simp] theorem State.commitTree_ctab (n : Nat) (st : List Node) (r : Nat) :
    (s.commitTree n st r).ctab = Vector.replicate 256 none := rfl
@[simp] theorem State.commitTree_mem (n : Nat) (st : List Node) (r : Nat) : (s.commitTree n st r).mem = s.mem := rfl
@[simp] theorem State.commitTree_pending (n : Nat) (st : List Node) (r : Nat) :
    (s.commitTree n st r).pending = s.pending := rfl
@[simp] theorem State.commitTree_faultMark (n : Nat) (st : List Node) (r : Nat) :
    (s.commitTree n st r).faultMark = s.faultMark := rfl
@[simp] theorem State.commitTree_delay (n : Nat) (st : List Node) (r : Nat) : (s.commitTree n st r).delay = s.delay := rfl
@[simp] theorem State.commitTree_host (n : Nat) (st : List Node) (r : Nat) : (s.commitTree n st r).host = s.host := rfl
@[simp] theorem State.commitTree_busLog (n : Nat) (st : List Node) (r : Nat) : (s.commitTree n st r).busLog = s.busLog := rfl
@[simp] theorem State.commitTree_draws (n : Nat) (st : List Node) (r : Nat) : (s.commitTree n st r).draws = s.draws := rfl

@[simp] theorem State.commitStream_cfg (b : BitString) : (s.commitStream b).cfg = s.cfg := rfl
@[simp] theorem State.commitStream_status (b : BitString) : (s.commitStream b).status = s.status := rfl
@[simp] theorem State.commitStream_irqEn (b : BitString) : (s.commitStream b).irqEn = s.irqEn := rfl
@[simp] theorem State.commitStream_errCode (b : BitString) : (s.commitStream b).errCode = s.errCode := rfl
@[simp] theorem State.commitStream_errOp (b : BitString) : (s.commitStream b).errOp = s.errOp := rfl
@[simp] theorem State.commitStream_errInfo (b : BitString) : (s.commitStream b).errInfo = s.errInfo := rfl
@[simp] theorem State.commitStream_inLen (b : BitString) : (s.commitStream b).inLen = s.inLen := rfl
@[simp] theorem State.commitStream_bitCnt (b : BitString) : (s.commitStream b).bitCnt = BitVec.ofNat 32 b.length := rfl
@[simp] theorem State.commitStream_outLen (b : BitString) : (s.commitStream b).outLen = s.outLen := rfl
@[simp] theorem State.commitStream_symCnt (b : BitString) : (s.commitStream b).symCnt = s.symCnt := rfl
@[simp] theorem State.commitStream_nodeCnt (b : BitString) : (s.commitStream b).nodeCnt = s.nodeCnt := rfl
@[simp] theorem State.commitStream_root (b : BitString) : (s.commitStream b).root = s.root := rfl
@[simp] theorem State.commitStream_total (b : BitString) : (s.commitStream b).total = s.total := rfl
@[simp] theorem State.commitStream_maxCodeLen (b : BitString) : (s.commitStream b).maxCodeLen = s.maxCodeLen := rfl
@[simp] theorem State.commitStream_freq (b : BitString) : (s.commitStream b).freq = s.freq := rfl
@[simp] theorem State.commitStream_nodes (b : BitString) : (s.commitStream b).nodes = s.nodes := rfl
@[simp] theorem State.commitStream_ctab (b : BitString) : (s.commitStream b).ctab = s.ctab := rfl
@[simp] theorem State.commitStream_mem (b : BitString) :
    (s.commitStream b).mem = s.mem.writeBytes Buffer.bbuf.base (packedBytes b) := rfl
@[simp] theorem State.commitStream_pending (b : BitString) : (s.commitStream b).pending = s.pending := rfl
@[simp] theorem State.commitStream_faultMark (b : BitString) : (s.commitStream b).faultMark = s.faultMark := rfl
@[simp] theorem State.commitStream_delay (b : BitString) : (s.commitStream b).delay = s.delay := rfl
@[simp] theorem State.commitStream_host (b : BitString) : (s.commitStream b).host = s.host := rfl
@[simp] theorem State.commitStream_busLog (b : BitString) : (s.commitStream b).busLog = s.busLog := rfl
@[simp] theorem State.commitStream_draws (b : BitString) : (s.commitStream b).draws = s.draws := rfl

@[simp] theorem State.commitOutput_cfg (o : List Byte) : (s.commitOutput o).cfg = s.cfg := rfl
@[simp] theorem State.commitOutput_status (o : List Byte) : (s.commitOutput o).status = s.status := rfl
@[simp] theorem State.commitOutput_irqEn (o : List Byte) : (s.commitOutput o).irqEn = s.irqEn := rfl
@[simp] theorem State.commitOutput_errCode (o : List Byte) : (s.commitOutput o).errCode = s.errCode := rfl
@[simp] theorem State.commitOutput_errOp (o : List Byte) : (s.commitOutput o).errOp = s.errOp := rfl
@[simp] theorem State.commitOutput_errInfo (o : List Byte) : (s.commitOutput o).errInfo = s.errInfo := rfl
@[simp] theorem State.commitOutput_inLen (o : List Byte) : (s.commitOutput o).inLen = s.inLen := rfl
@[simp] theorem State.commitOutput_bitCnt (o : List Byte) : (s.commitOutput o).bitCnt = s.bitCnt := rfl
@[simp] theorem State.commitOutput_outLen (o : List Byte) : (s.commitOutput o).outLen = BitVec.ofNat 32 o.length := rfl
@[simp] theorem State.commitOutput_symCnt (o : List Byte) : (s.commitOutput o).symCnt = s.symCnt := rfl
@[simp] theorem State.commitOutput_nodeCnt (o : List Byte) : (s.commitOutput o).nodeCnt = s.nodeCnt := rfl
@[simp] theorem State.commitOutput_root (o : List Byte) : (s.commitOutput o).root = s.root := rfl
@[simp] theorem State.commitOutput_total (o : List Byte) : (s.commitOutput o).total = s.total := rfl
@[simp] theorem State.commitOutput_maxCodeLen (o : List Byte) : (s.commitOutput o).maxCodeLen = s.maxCodeLen := rfl
@[simp] theorem State.commitOutput_freq (o : List Byte) : (s.commitOutput o).freq = s.freq := rfl
@[simp] theorem State.commitOutput_nodes (o : List Byte) : (s.commitOutput o).nodes = s.nodes := rfl
@[simp] theorem State.commitOutput_ctab (o : List Byte) : (s.commitOutput o).ctab = s.ctab := rfl
@[simp] theorem State.commitOutput_mem (o : List Byte) :
    (s.commitOutput o).mem = s.mem.writeBytes Buffer.obuf.base (paddedBytes o) := rfl
@[simp] theorem State.commitOutput_pending (o : List Byte) : (s.commitOutput o).pending = s.pending := rfl
@[simp] theorem State.commitOutput_faultMark (o : List Byte) : (s.commitOutput o).faultMark = s.faultMark := rfl
@[simp] theorem State.commitOutput_delay (o : List Byte) : (s.commitOutput o).delay = s.delay := rfl
@[simp] theorem State.commitOutput_host (o : List Byte) : (s.commitOutput o).host = s.host := rfl
@[simp] theorem State.commitOutput_busLog (o : List Byte) : (s.commitOutput o).busLog = s.busLog := rfl
@[simp] theorem State.commitOutput_draws (o : List Byte) : (s.commitOutput o).draws = s.draws := rfl

@[simp] theorem State.hostAdvance_cfg (r : List HostOp) : (s.hostAdvance r).cfg = s.cfg := rfl
@[simp] theorem State.hostAdvance_status (r : List HostOp) : (s.hostAdvance r).status = s.status := rfl
@[simp] theorem State.hostAdvance_irqEn (r : List HostOp) : (s.hostAdvance r).irqEn = s.irqEn := rfl
@[simp] theorem State.hostAdvance_errCode (r : List HostOp) : (s.hostAdvance r).errCode = s.errCode := rfl
@[simp] theorem State.hostAdvance_errOp (r : List HostOp) : (s.hostAdvance r).errOp = s.errOp := rfl
@[simp] theorem State.hostAdvance_errInfo (r : List HostOp) : (s.hostAdvance r).errInfo = s.errInfo := rfl
@[simp] theorem State.hostAdvance_inLen (r : List HostOp) : (s.hostAdvance r).inLen = s.inLen := rfl
@[simp] theorem State.hostAdvance_bitCnt (r : List HostOp) : (s.hostAdvance r).bitCnt = s.bitCnt := rfl
@[simp] theorem State.hostAdvance_outLen (r : List HostOp) : (s.hostAdvance r).outLen = s.outLen := rfl
@[simp] theorem State.hostAdvance_symCnt (r : List HostOp) : (s.hostAdvance r).symCnt = s.symCnt := rfl
@[simp] theorem State.hostAdvance_nodeCnt (r : List HostOp) : (s.hostAdvance r).nodeCnt = s.nodeCnt := rfl
@[simp] theorem State.hostAdvance_root (r : List HostOp) : (s.hostAdvance r).root = s.root := rfl
@[simp] theorem State.hostAdvance_total (r : List HostOp) : (s.hostAdvance r).total = s.total := rfl
@[simp] theorem State.hostAdvance_maxCodeLen (r : List HostOp) : (s.hostAdvance r).maxCodeLen = s.maxCodeLen := rfl
@[simp] theorem State.hostAdvance_freq (r : List HostOp) : (s.hostAdvance r).freq = s.freq := rfl
@[simp] theorem State.hostAdvance_nodes (r : List HostOp) : (s.hostAdvance r).nodes = s.nodes := rfl
@[simp] theorem State.hostAdvance_ctab (r : List HostOp) : (s.hostAdvance r).ctab = s.ctab := rfl
@[simp] theorem State.hostAdvance_mem (r : List HostOp) : (s.hostAdvance r).mem = s.mem := rfl
@[simp] theorem State.hostAdvance_pending (r : List HostOp) : (s.hostAdvance r).pending = s.pending := rfl
@[simp] theorem State.hostAdvance_faultMark (r : List HostOp) : (s.hostAdvance r).faultMark = s.faultMark := rfl
@[simp] theorem State.hostAdvance_delay (r : List HostOp) : (s.hostAdvance r).delay = s.delay - 1 := rfl
@[simp] theorem State.hostAdvance_host (r : List HostOp) : (s.hostAdvance r).host = r := rfl
@[simp] theorem State.hostAdvance_busLog (r : List HostOp) : (s.hostAdvance r).busLog = s.busLog := rfl
@[simp] theorem State.hostAdvance_draws (r : List HostOp) : (s.hostAdvance r).draws = s.draws := rfl

@[simp] theorem State.hostRead_cfg (wa : WordAddr) : (s.hostRead wa).cfg = s.cfg := rfl
@[simp] theorem State.hostRead_status (wa : WordAddr) : (s.hostRead wa).status = s.status := rfl
@[simp] theorem State.hostRead_irqEn (wa : WordAddr) : (s.hostRead wa).irqEn = s.irqEn := rfl
@[simp] theorem State.hostRead_errCode (wa : WordAddr) : (s.hostRead wa).errCode = s.errCode := rfl
@[simp] theorem State.hostRead_errOp (wa : WordAddr) : (s.hostRead wa).errOp = s.errOp := rfl
@[simp] theorem State.hostRead_errInfo (wa : WordAddr) : (s.hostRead wa).errInfo = s.errInfo := rfl
@[simp] theorem State.hostRead_inLen (wa : WordAddr) : (s.hostRead wa).inLen = s.inLen := rfl
@[simp] theorem State.hostRead_bitCnt (wa : WordAddr) : (s.hostRead wa).bitCnt = s.bitCnt := rfl
@[simp] theorem State.hostRead_outLen (wa : WordAddr) : (s.hostRead wa).outLen = s.outLen := rfl
@[simp] theorem State.hostRead_symCnt (wa : WordAddr) : (s.hostRead wa).symCnt = s.symCnt := rfl
@[simp] theorem State.hostRead_nodeCnt (wa : WordAddr) : (s.hostRead wa).nodeCnt = s.nodeCnt := rfl
@[simp] theorem State.hostRead_root (wa : WordAddr) : (s.hostRead wa).root = s.root := rfl
@[simp] theorem State.hostRead_total (wa : WordAddr) : (s.hostRead wa).total = s.total := rfl
@[simp] theorem State.hostRead_maxCodeLen (wa : WordAddr) : (s.hostRead wa).maxCodeLen = s.maxCodeLen := rfl
@[simp] theorem State.hostRead_freq (wa : WordAddr) : (s.hostRead wa).freq = s.freq := rfl
@[simp] theorem State.hostRead_nodes (wa : WordAddr) : (s.hostRead wa).nodes = s.nodes := rfl
@[simp] theorem State.hostRead_ctab (wa : WordAddr) : (s.hostRead wa).ctab = s.ctab := rfl
@[simp] theorem State.hostRead_mem (wa : WordAddr) : (s.hostRead wa).mem = s.mem := rfl
@[simp] theorem State.hostRead_pending (wa : WordAddr) : (s.hostRead wa).pending = s.pending := rfl
@[simp] theorem State.hostRead_faultMark (wa : WordAddr) : (s.hostRead wa).faultMark = s.faultMark := rfl
@[simp] theorem State.hostRead_delay (wa : WordAddr) : (s.hostRead wa).delay = s.delay := rfl
@[simp] theorem State.hostRead_host (wa : WordAddr) : (s.hostRead wa).host = s.host := rfl
@[simp] theorem State.hostRead_busLog (wa : WordAddr) : (s.hostRead wa).busLog = (wa, s.busRead wa) :: s.busLog := rfl
@[simp] theorem State.hostRead_draws (wa : WordAddr) : (s.hostRead wa).draws = s.draws + 1 := rfl

@[simp] theorem Status.accepted_busy (st : Status) : st.accepted.busy = true := rfl
@[simp] theorem Status.accepted_done (st : Status) : st.accepted.done = false := rfl
@[simp] theorem Status.accepted_err (st : Status) : st.accepted.err = false := rfl
@[simp] theorem Status.accepted_ovr (st : Status) : st.accepted.ovr = st.ovr := rfl
@[simp] theorem Status.accepted_treeValid (st : Status) : st.accepted.treeValid = st.treeValid := rfl
@[simp] theorem Status.accepted_ctabValid (st : Status) : st.accepted.ctabValid = st.ctabValid := rfl
@[simp] theorem Status.completedOk_busy (st : Status) : st.completedOk.busy = false := rfl
@[simp] theorem Status.completedOk_done (st : Status) : st.completedOk.done = true := rfl
@[simp] theorem Status.completedOk_err (st : Status) : st.completedOk.err = st.err := rfl
@[simp] theorem Status.completedOk_ovr (st : Status) : st.completedOk.ovr = st.ovr := rfl
@[simp] theorem Status.completedOk_treeValid (st : Status) : st.completedOk.treeValid = st.treeValid := rfl
@[simp] theorem Status.completedOk_ctabValid (st : Status) : st.completedOk.ctabValid = st.ctabValid := rfl
@[simp] theorem Status.completedErr_busy (st : Status) : st.completedErr.busy = false := rfl
@[simp] theorem Status.completedErr_done (st : Status) : st.completedErr.done = true := rfl
@[simp] theorem Status.completedErr_err (st : Status) : st.completedErr.err = true := rfl
@[simp] theorem Status.completedErr_ovr (st : Status) : st.completedErr.ovr = st.ovr := rfl
@[simp] theorem Status.completedErr_treeValid (st : Status) : st.completedErr.treeValid = st.treeValid := rfl
@[simp] theorem Status.completedErr_ctabValid (st : Status) : st.completedErr.ctabValid = st.ctabValid := rfl

end Sys2Proof.Machine
end

