-- ==== Sys2Proof/Laws/Tables.lean ====
section
/-! SUPPORT. The laws of tables indexed by byte value or node number, and of the packing of bits. -/

namespace Sys2Proof.Machine

@[simp] theorem getElem_tabulate {α : Type} (n : Nat) (f : Nat → α) (i : Nat) (h : i < n) : (tabulate n f)[i] = f i := by
  simp [tabulate]

@[simp] theorem entryAt_tabulate {α : Type} (f : Nat → α) (v : Byte) : entryAt (tabulate 256 f) v = f v.toNat := by
  simp [entryAt]

@[simp] theorem entryAt_replicate {α : Type} (x : α) (v : Byte) : entryAt (Vector.replicate 256 x) v = x := by
  simp [entryAt]

@[simp] theorem nodeAt_tabulate (f : Nat → Node) (i : NodeIx) : nodeAt (tabulate 512 f) i = f i.toNat := by
  simp [nodeAt]

@[simp] theorem nodeAt_replicate (x : Node) (i : NodeIx) : nodeAt (Vector.replicate 512 x) i = x := by
  simp [nodeAt]

/-- Two tables with the same entries are the same table. -/
theorem table_ext {α : Type} {t u : Vector α 256} (h : ∀ v, entryAt t v = entryAt u v) : t = u := by
  apply Vector.ext
  intro i hi
  have := h (BitVec.ofNat 8 i)
  simpa [entryAt, Nat.mod_eq_of_lt hi] using this

/-- A write of one entry. -/
theorem entryAt_set {α : Type} (t : Vector α 256) (v : Byte) (x : α) (u : Byte) :
    entryAt (t.set v.toNat x v.isLt) u = if v = u then x else entryAt t u := by
  simp only [entryAt, Vector.getElem_set, BitVec.toNat_inj]

@[simp] theorem mem_allBytes (v : Byte) : v ∈ allBytes := by
  simp only [allBytes, List.mem_map, List.mem_range]
  exact ⟨v.toNat, v.isLt, by simp⟩

@[simp] theorem length_allBytes : allBytes.length = 256 := by simp [allBytes]

theorem tableEntries_eq_map {α : Type} (t : Vector α 256) : tableEntries t = allBytes.map (fun v => (v, entryAt t v)) := by
  refine List.ext_getElem (by simp [tableEntries]) fun i h1 h2 => ?_
  have hi : i < 256 := by simpa using h2
  simp [tableEntries, allBytes, entryAt, Nat.mod_eq_of_lt hi]

/-- R151 in one line: the present symbols are the byte values with a non-zero entry, ascending. -/
theorem presentSymbols_eq_filter (freq : Vector Word 256) :
    presentSymbols freq = allBytes.filter (fun v => entryAt freq v != 0#32) := by
  simp [presentSymbols, presentEntries, tableEntries_eq_map, List.filter_map, Function.comp_def]

/-- The entries that BUILD works on are those of the present symbols. -/
theorem presentEntries_eq_map (freq : Vector Word 256) :
    presentEntries freq = (presentSymbols freq).map (fun v => (v, entryAt freq v)) := by
  simp [presentSymbols, presentEntries, tableEntries_eq_map, List.filter_map, Function.comp_def]

theorem firstNegative_eq_find (freq : Vector Word 256) :
    firstNegative freq = allBytes.find? (fun v => (entryAt freq v).msb) := by
  simp [firstNegative, tableEntries_eq_map, List.find?_map, Function.comp_def]

theorem firstNegative_eq_none {freq : Vector Word 256} :
    firstNegative freq = none ↔ ∀ v, (entryAt freq v).msb = false := by
  simp [firstNegative_eq_find]

theorem mem_presentSymbols {freq : Vector Word 256} {v : Byte} : v ∈ presentSymbols freq ↔ entryAt freq v ≠ 0#32 := by
  simp [presentSymbols_eq_filter]

/-- The sum of the entries, over the byte values (R204). -/
theorem freqSum_eq (s : State) : s.freqSum = (allBytes.map (fun v => (entryAt s.freq v).toNat)).sum := by
  have h : s.freq.toList = allBytes.map (entryAt s.freq) := by
    refine List.ext_getElem (by simp) fun i h1 h2 => ?_
    have hi : i < 256 := by simpa using h1
    simp [allBytes, entryAt, Nat.mod_eq_of_lt hi]
  rw [State.freqSum, h, List.map_map]
  rfl

/-- Element t of a packed bit string, at its place counted from the least significant bit (R98, R102). -/
theorem getLsbD_packBits (w : Nat) (bits : BitString) (t : Nat) (h : t < w) :
    (packBits w bits).getLsbD (w - 1 - t) = bits.getD t false := by
  induction w generalizing bits t with
  | zero => omega
  | succ w ih =>
    rw [packBits, BitVec.getLsbD_cons]
    cases t with
    | zero => cases bits <;> simp
    | succ t =>
      have hne : w + 1 - 1 - (t + 1) ≠ w := by omega
      have hidx : w + 1 - 1 - (t + 1) = w - 1 - t := by omega
      rw [if_neg hne, hidx, ih bits.tail t (by omega)]
      cases bits <;> simp

/-- Element k of a bit string is where R98 says in the bytes it is packed into. -/
theorem getLsbD_packedByte (bits : BitString) (k : Nat) :
    (packedByte bits (k / 8)).getLsbD (7 - k % 8) = bits.getD k false := by
  have h := getLsbD_packBits 8 (bits.drop (8 * (k / 8))) (k % 8) (Nat.mod_lt _ (by omega))
  rw [packedByte]
  simp only [Nat.add_one_sub_one] at h
  rw [show (8 - 1 - k % 8) = 7 - k % 8 from by omega] at h
  rw [h]
  simp [List.getD_eq_getElem?_getD, Nat.div_add_mod]

@[simp] theorem length_packedBytes (bits : BitString) : (packedBytes bits).length = packedLen bits.length := by
  simp [packedBytes]

@[simp] theorem length_streamBits (bytes : List Byte) (n : Nat) : (streamBits bytes n).length = n := by
  simp [streamBits]

/-- The padded output is whole words (R186). -/
theorem length_paddedBytes (out : List Byte) : (paddedBytes out).length = 4 * ceilDiv out.length 4 := by
  simp [paddedBytes, ceilDiv]; omega

/-- Packed bytes fit a buffer of whole words that holds the bits (R99). -/
theorem packedLen_le {n cap : Nat} (h : n ≤ 8 * cap) (hcap : cap % 4 = 0) : packedLen n ≤ cap := by
  simp only [packedLen, ceilDiv]; omega

/-- The packed bytes hold all the bits (R99). -/
theorem le_packedLen (n : Nat) : n ≤ 8 * packedLen n := by
  simp only [packedLen, ceilDiv]; omega

end Sys2Proof.Machine
end

