-- ==== Sys2Proof/Tests/Slice0.lean ====
section
/-! SUPPORT. Tests on one step or one command each, with results taken from the spec's own examples and vectors
(95_test_vectors), and a witness for the hypotheses of each statement that has any. -/

set_option Elab.async false

namespace Sys2Proof.Tests

open Sys2Proof.Machine

/-! ### Helpers -/

/-- The answer is a next state, and it passes the check. -/
def nextAnd (o : Host.Outcome State Fault Refusal) (p : State → Bool) : Bool :=
  match o with
  | .next t => p t
  | .fault _ => false
  | .refused _ => false

theorem exists_of_nextAnd {o : Host.Outcome State Fault Refusal} {p : State → Bool} (h : nextAnd o p = true) :
    ∃ t, o = .next t ∧ p t = true := by
  cases o with
  | next t => exact ⟨t, rfl, h⟩
  | fault f => exact absurd h (by simp [nextAnd])
  | refused r => exact absurd h (by simp [nextAnd])

/-- The answer is the model fault. -/
def isUninit (o : Host.Outcome State Fault Refusal) : Bool :=
  match o with
  | .next _ => false
  | .fault .uninitRead => true
  | .refused _ => false

/-- The error record of a state, {OP, CODE} and ERR_INFO, with STATUS. -/
def record (t : State) : Word × Word × Word := (errCodeWord t.errOp t.errCode, t.errInfo, t.status.toWord)

/-- The reset state with the parameters of the small vectors. -/
def smallReset : State := State.resetWith { capIbuf := 0x40, capBbuf := 4, capObuf := 4 }

/-- A state with bytes in IBUF and their number in IN_LEN. -/
def withInput (s : State) (bytes : List Byte) : State :=
  { s with mem := s.mem.writeBytes Buffer.ibuf.base bytes, inLen := BitVec.ofNat 32 bytes.length }

/-- A state with bytes in BBUF and a bit count. -/
def withStream (s : State) (bytes : List Byte) (n : Nat) : State :=
  { s with mem := s.mem.writeBytes Buffer.bbuf.base bytes, bitCnt := BitVec.ofNat 32 n }

/-- A state with FREQ entries. -/
def withFreq (s : State) (entries : List (Nat × Nat)) : State :=
  { s with freq := tabulate 256 (fun v => BitVec.ofNat 32 ((entries.lookup v).getD 0)) }

/-- The tree of "AAAAB" (L1-4). -/
def abNodes : Vector Node 512 :=
  tabulate 512 (fun i => if i = 0 then .leaf 0x41#8 4#40 else if i = 1 then .leaf 0x42#8 1#40
    else if i = 2 then .internal 5#40 1#9 0#9 else Node.zero)

/-- A state with that tree valid. -/
def withTree (s : State) : State :=
  { s with
    nodes := abNodes
    symCnt := 2#9
    nodeCnt := 3#10
    root := 2#9
    total := 5#40
    status := { s.status with treeValid := true } }

/-- The code table of that tree (L1-4). -/
def abCodes : Vector CodeEntry 256 :=
  tabulate 256 (fun v => if v = 0x41 then some [true] else if v = 0x42 then some [false] else none)

/-- A state with that tree and code table valid. -/
def withCodes (s : State) : State :=
  { withTree s with
    ctab := abCodes
    maxCodeLen := 1#8
    status := { s.status with treeValid := true, ctabValid := true } }

/-- The degenerate tree of 0x41 (L2-2 j). -/
def withOneLeaf (s : State) : State :=
  { s with
    nodes := tabulate 512 (fun i => if i = 0 then .leaf 0x41#8 1#40 else Node.zero)
    symCnt := 1#9
    nodeCnt := 1#10
    root := 0#9
    total := 1#40
    status := { s.status with treeValid := true } }

/-! ### Well-formedness: an ill-formed term for each check -/

theorem test_cap_not_multiple_of_four : ({ Config.reference with capIbuf := 6 } : Config).wellFormed = false := by decide
theorem test_cap_zero : ({ Config.reference with capBbuf := 0 } : Config).wellFormed = false := by decide
theorem test_cap_too_large : ({ Config.reference with capObuf := 0x100004 } : Config).wellFormed = false := by decide
theorem test_reference_config : Config.reference.wellFormed = true := by decide
theorem test_word_reserved_bit : commandWordWellFormed 0x00000100#32 = false := by decide
theorem test_word_unassigned_opcode : commandWordWellFormed 0x00000009#32 = false := by decide
theorem test_access_misaligned : (HostOp.wr 0x000006#22 4 0#32).wellFormed = false := by decide
theorem test_access_narrow : (HostOp.rd 0x000008#22 2).wellFormed = false := by decide

/-! ### Decoding: words written out bit by bit from R90 and R95 -/

theorem test_decode_nop : decode 0b00000000000000000000000000000000#32 = .ok .nop := by decide
theorem test_decode_count : decode 0b00000000000000000000000000000001#32 = .ok .count := by decide
theorem test_decode_build : decode 0b00000000000000000000000000000010#32 = .ok .build := by decide
theorem test_decode_codes : decode 0b00000000000000000000000000000011#32 = .ok .codes := by decide
theorem test_decode_encode : decode 0b00000000000000000000000000000100#32 = .ok .encode := by decide
theorem test_decode_decode : decode 0b00000000000000000000000000000101#32 = .ok .decode := by decide
theorem test_decode_compress : decode 0b00000000000000000000000000000110#32 = .ok .compress := by decide
theorem test_decode_decompress : decode 0b00000000000000000000000000000111#32 = .ok .decompress := by decide
theorem test_decode_clear : decode 0b00000000000000000000000000001000#32 = .ok .clear := by decide
theorem test_decode_bad : decode 0x80000006#32 = .error (.badCommand 0x80000006#32) := by decide

/-- P3: `WRBYTES` of eleven bytes. -/
theorem test_wrBytes : expandLine (.wrBytes 0x100000#22
    [0x41#8, 0x42#8, 0x52#8, 0x41#8, 0x43#8, 0x41#8, 0x44#8, 0x41#8, 0x42#8, 0x52#8, 0x41#8]) =
    [.wr 0x100000#22 4 0x41524241#32, .wr 0x100004#22 4 0x41444143#32, .wr 0x100008#22 4 0x00415242#32] := by decide

/-- P1: `WR CMD, 6` is the transaction (1, 0x00001, 6). -/
theorem test_triple : (HostOp.wr cmdAddr 4 (encode .compress)).transaction.map BusTxn.triple =
    some (true, 0x00001#20, some 0x00000006#32) := by decide

/-! ### Every command runs as the first after reset -/

theorem test_first_nop : nextAnd (step (State.reset.withFetchWord 32 0)) (fun t => t.status.toWord == 2#32) = true := by
  decide +kernel
theorem test_first_build : nextAnd (step (State.reset.withFetchWord 32 2))
    (fun t => record t == (0x00000201#32, 0#32, 6#32)) = true := by decide +kernel
theorem test_first_codes : nextAnd (step (State.reset.withFetchWord 32 3))
    (fun t => record t == (0x00000306#32, 0#32, 6#32)) = true := by decide +kernel
theorem test_first_bad : nextAnd (step (State.reset.withFetchWord 32 0x109))
    (fun t => record t == (0x00000905#32, 0x109#32, 6#32)) = true := by decide +kernel

/-! ### Commands, one each, against 95_test_vectors -/

/-- L2-1 b. -/
theorem test_count : nextAnd (exec .count (withInput smallReset [0x00#8, 0xFF#8, 0x00#8, 0x80#8, 0x00#8])) (fun t =>
    entryAt t.freq 0x00#8 == 3#32 && entryAt t.freq 0xFF#8 == 1#32 && entryAt t.freq 0x80#8 == 1#32 &&
      entryAt t.freq 0x41#8 == 0#32) = true := by decide +kernel

/-- L2-1 e. -/
theorem test_count_uninit : isUninit (exec .count { withInput smallReset [0x41#8] with inLen := 2#32 }) = true := by
  decide +kernel

/-- L2-2 e: the leaf of equal frequency leaves the pool before the internal node. -/
theorem test_build_tie : nextAnd (exec .build (withFreq smallReset [(0x41, 1), (0x42, 1), (0x43, 2)])) (fun t =>
    nodeAt t.nodes 3#9 == .internal 2#40 0#9 1#9 && nodeAt t.nodes 4#9 == .internal 4#40 2#9 3#9 && t.root == 4#9 &&
      t.symCnt == 3#9 && t.nodeCnt == 5#10 && t.total == 4#40) = true := by decide +kernel

/-- L2-2 l: the smallest negative entry. -/
theorem test_build_negative : nextAnd (exec .build (withFreq smallReset [(7, 0xFFFFFFFF), (3, 0x80000000), (0x41, 4)]))
    (fun t => record t == (0x00000204#32, 0x30000003#32, 6#32)) = true := by decide +kernel

/-- L1-4. -/
theorem test_codes : nextAnd (exec .codes (withTree smallReset)) (fun t =>
    codeWord (entryAt t.ctab 0x41#8) 0#4 == 0x80000001#32 && codeWord (entryAt t.ctab 0x41#8) 1#4 == 0x80000000#32 &&
      entryAt t.ctab 0x42#8 == some [false] && entryAt t.ctab 0x43#8 == none && t.maxCodeLen == 1#8) = true := by
  decide +kernel

/-- L2-3 f: the degenerate tree. -/
theorem test_codes_degenerate : nextAnd (exec .codes (withOneLeaf smallReset)) (fun t =>
    entryAt t.ctab 0x41#8 == some [false] && t.maxCodeLen == 1#8) = true := by decide +kernel

/-- L2-4 a. -/
theorem test_encode : nextAnd (exec .encode (withInput (withCodes smallReset) [0x41#8, 0x41#8, 0x41#8, 0x41#8, 0x42#8]))
    (fun t => t.bitCnt == 5#32 && t.bufByte .bbuf 0 == some 0xF0#8 && t.bufByte .bbuf 3 == some 0x00#8 &&
      t.bufByte .bbuf 4 == none) = true := by decide +kernel

/-- L2-4 i. -/
theorem test_encode_unknown : nextAnd (exec .encode (withInput (withCodes smallReset) [0x41#8, 0x42#8, 0x43#8, 0x41#8]))
    (fun t => record t == (0x00000402#32, 2#32, 0x36#32)) = true := by decide +kernel

/-- L2-5 h. -/
theorem test_decode_command : nextAnd (exec .decode (withStream (withTree smallReset) [0xF0#8] 4)) (fun t =>
    t.outLen == 4#32 && t.bufByte .obuf 3 == some 0x41#8 && t.bufByte .obuf 4 == none) = true := by decide +kernel

/-- L2-5 i: bit values are ignored in a degenerate stream, and the output is zero-filled to the word. -/
theorem test_decode_degenerate : nextAnd (exec .decode (withStream (withOneLeaf smallReset) [0xE0#8] 3)) (fun t =>
    t.outLen == 3#32 && t.bufByte .obuf 2 == some 0x41#8 && t.bufByte .obuf 3 == some 0x00#8) = true := by decide +kernel

/-- L2-6 a. -/
theorem test_compress : nextAnd (exec .compress (withInput smallReset [0x41#8, 0x41#8, 0x41#8, 0x41#8, 0x42#8])) (fun t =>
    t.status.toWord == 0x32#32 && t.bitCnt == 5#32 && t.bufByte .bbuf 0 == some 0xF0#8 && t.root == 2#9 &&
      nodeAt t.nodes 2#9 == .internal 5#40 1#9 0#9 && entryAt t.ctab 0x41#8 == some [true]) = true := by decide +kernel

/-- L2-6 e: an overflow leaves COUNT, BUILD and CODES committed. -/
theorem test_compress_overflow : nextAnd (exec .compress (withInput smallReset (List.replicate 0x21 0x41#8))) (fun t =>
    record t == (0x00000409#32, 0x21#32, 0x36#32) && entryAt t.freq 0x41#8 == 0x21#32 && t.bitCnt == 0#32) = true := by
  decide +kernel

/-- L2-7 e, with BIT_CNT 0 and a sum of 5. -/
theorem test_decompress_empty_stream : nextAnd (exec .decompress (withFreq smallReset [(0x41, 4), (0x42, 1)])) (fun t =>
    record t == (0x00000704#32, 0x20000000#32, 0x16#32)) = true := by decide +kernel

/-- L2-7 b. -/
theorem test_decompress : nextAnd (exec .decompress
    (withStream (withFreq State.reset [(0x41, 4), (0x42, 1)]) [0xF0#8] 5)) (fun t =>
    t.status.toWord == 0x12#32 && t.outLen == 5#32 && t.bufByte .obuf 0 == some 0x41#8 &&
      t.bufByte .obuf 4 == some 0x42#8 && t.bufByte .obuf 7 == some 0x00#8) = true := by decide +kernel

/-- L2-8 c. -/
theorem test_clear : nextAnd (exec .clear (withInput (withCodes smallReset) [0x41#8])) (fun t =>
    t.status.toWord == 2#32 && t.inLen == 0#32 && t.bufByte .ibuf 0 == some 0x41#8 && nodeAt t.nodes 2#9 == Node.zero) =
    true := by decide +kernel

/-! ### The bus -/

/-- L2-9 e (R70). -/
theorem test_bus_write_word : (State.reset.busWrite 0x40000#20 0x44434241#32).bufByte .ibuf 1 = some 0x42#8 := by
  decide +kernel

/-- L2-9 h: a protected write while busy. -/
theorem test_bus_busy_write : ((State.reset.accept 0#32 3).busWrite 0x00006#20 7#32).status.toWord = 9#32 := by
  decide +kernel

/-- NODE[2] word 3 of L1-4. -/
theorem test_bus_node_word : (withTree State.reset).busRead 0x0100B#20 = 0x00000001#32 := by decide +kernel

/-- CTAB[0x41] word 1 of L1-4 (P1). -/
theorem test_bus_ctab_word : (withCodes State.reset).busRead 0x02411#20 = 0x80000000#32 := by decide +kernel

/-! ### Witnesses: for each statement with hypotheses, a state and operands that meet them together -/

/-- The invariants of the tree of "AAAAB". -/
theorem isTree_abNodes : IsTree abNodes 2 := by
  have hno : ∀ q, q < 512 → q ≠ 2 → ∃ sym f, nodeNo abNodes q = .leaf sym f := by
    intro q hq hne
    have hq' : q % 512 = q := Nat.mod_eq_of_lt hq
    simp only [nodeNo, abNodes, nodeAt, tabulate]
    simp only [Vector.getElem_mk, List.getElem_toArray, List.getElem_map, List.getElem_range, BitVec.toNat_ofNat, hq']
    split
    · exact ⟨_, _, rfl⟩
    · split
      · exact ⟨_, _, rfl⟩
      · simp [Node.zero]
  have hparent : ∀ c q, q < 512 → isChild abNodes q c → q = 2 := by
    intro c q hq hc
    by_contra hne
    obtain ⟨sym, f, h⟩ := hno q hq hne
    obtain ⟨f', l, r, h', _⟩ := hc
    rw [h] at h'
    exact absurd h' (by simp)
  have h2 : nodeNo abNodes 2 = .internal 5#40 1#9 0#9 := by decide +kernel
  refine ⟨by omega, ?_, ?_, ?_, ?_, ?_⟩
  · intro j hj
    have : j = 0 ∨ j = 1 := by omega
    rcases this with rfl | rfl
    · exact ⟨0x41#8, 4#40, by decide +kernel, by decide⟩
    · exact ⟨0x42#8, 1#40, by decide +kernel, by decide⟩
  · intro i j hij hj
    have : i = 0 ∧ j = 1 := by omega
    obtain ⟨rfl, rfl⟩ := this
    decide +kernel
  · intro k h1 h3
    have : k = 2 := by omega
    subst this
    exact ⟨5#40, 1#9, 0#9, h2, by decide, by decide, by decide, by decide +kernel⟩
  · intro c hc
    refine ⟨2, by omega, ⟨_, _, _, h2, ?_⟩, fun q hq hcq => hparent c q hq hcq⟩
    have : c = 0 ∨ c = 1 := by omega
    rcases this with rfl | rfl <;> simp
  · intro i h1 h3
    have hi : i % 512 = i := Nat.mod_eq_of_lt h3
    simp only [nodeNo, abNodes, nodeAt, tabulate]
    simp only [Vector.getElem_mk, List.getElem_toArray, List.getElem_map, List.getElem_range, BitVec.toNat_ofNat, hi]
    rw [if_neg (by omega), if_neg (by omega), if_neg (by omega)]

theorem treeInv_withTree (s : State) : (withTree s).TreeInv where
  valid := fun _ => ⟨isTree_abNodes, by simp [withTree], by simp [withTree], by
    show (5#40 : NodeFreq) = (nodeAt abNodes 2#9).freq
    decide +kernel⟩
  invalid := by simp [withTree]

theorem codeInv_withCodes (s : State) : (withCodes s).CodeInv := by
  have hroot : nodeAt abNodes 2#9 = .internal 5#40 1#9 0#9 := by decide +kernel
  have h0 : nodeAt abNodes 0#9 = .leaf 0x41#8 4#40 := by decide +kernel
  have h1 : nodeAt abNodes 1#9 = .leaf 0x42#8 1#40 := by decide +kernel
  have hcode : ∀ v : Byte, entryAt abCodes v =
      if v.toNat = 0x41 then some [true] else if v.toNat = 0x42 then some [false] else none := by
    intro v
    simp [abCodes, entryAt, tabulate]
  have hpath : ∀ (v : Byte) (code : BitString), isCodeOf abNodes 2#9 v code ↔
      (code = [true] ∧ v = 0x41#8) ∨ (code = [false] ∧ v = 0x42#8) := by
    intro v code
    simp only [isCodeOf, hroot, isPathTo]
    constructor
    · rintro (⟨_, h, _⟩ | ⟨_, _, _, _, q, f, hd, hq⟩)
      · exact Node.noConfusion h
      cases code with
      | nil =>
        simp only [descend, Option.some.injEq] at hd
        rw [← hd, hroot] at hq
        exact Node.noConfusion hq
      | cons b rest =>
        simp only [descend, hroot] at hd
        cases b <;> cases rest <;> simp_all [descend]
    · rintro (⟨rfl, rfl⟩ | ⟨rfl, rfl⟩)
      · exact .inr ⟨_, _, _, rfl, 0#9, 4#40, by simp [descend, hroot], h0⟩
      · exact .inr ⟨_, _, _, rfl, 1#9, 1#40, by simp [descend, hroot], h1⟩
  refine ⟨fun _ => rfl, fun _ v code => ?_, fun _ v code h => ?_, fun _ => ⟨0x41#8, [true], ?_, rfl⟩, fun h => ?_⟩
  · show entryAt abCodes v = some code ↔ isCodeOf abNodes 2#9 v code
    rw [hcode, hpath]
    constructor
    · intro h
      split at h
      · rename_i hv
        exact .inl ⟨by simpa using h.symm, BitVec.eq_of_toNat_eq hv⟩
      · split at h
        · rename_i hv
          exact .inr ⟨by simpa using h.symm, BitVec.eq_of_toNat_eq hv⟩
        · exact absurd h (by simp)
    · rintro (⟨rfl, rfl⟩ | ⟨rfl, rfl⟩) <;> rfl
  · have h' : entryAt abCodes v = some code := h
    rw [hcode] at h'
    show code.length ≤ 1
    split at h'
    · obtain rfl : [true] = code := by simpa using h'
      simp
    · split at h'
      · obtain rfl : [false] = code := by simpa using h'
        simp
      · exact absurd h' (by simp)
  · show entryAt abCodes 0x41#8 = some [true]
    rw [hcode]
    rfl
  · exact absurd h (by simp [withCodes, withTree])

theorem abNodes_path_a : isPathTo abNodes 2#9 [true] 0x41#8 := ⟨0#9, 4#40, by decide +kernel, by decide +kernel⟩

/-- The stream 1111 of L2-5 h. -/
def streamState : State := withStream (withTree State.reset) [0xF0#8] 4

theorem streamState_decodes : decodesTo streamState.nodes streamState.root [true, true, true, true]
    [0x41#8, 0x41#8, 0x41#8, 0x41#8] := by
  have hroot : nodeAt abNodes 2#9 = .internal 5#40 1#9 0#9 := by decide +kernel
  refine .inr ⟨_, _, _, hroot, fun _ => [true], fun v hv => ?_, rfl⟩
  obtain rfl : v = 0x41#8 := by simpa using hv
  exact abNodes_path_a

theorem streamState_holds : streamState.holdsStream [true, true, true, true] :=
  ⟨by decide +kernel, by decide +kernel⟩

/-- The tree of "ABCC" (L2-2 e), whose root has an internal child. -/
def abccNodes : Vector Node 512 :=
  tabulate 512 (fun i => if i = 0 then .leaf 0x41#8 1#40 else if i = 1 then .leaf 0x42#8 1#40
    else if i = 2 then .leaf 0x43#8 2#40 else if i = 3 then .internal 2#40 0#9 1#9
    else if i = 4 then .internal 4#40 2#9 3#9 else Node.zero)

/-- A state with that tree valid, and the stream 01 in BBUF, which ends inside a code that begins at element 1. -/
def truncatedState : State :=
  { withStream State.reset [0x40#8] 2 with
    nodes := abccNodes
    symCnt := 3#9
    nodeCnt := 5#10
    root := 4#9
    total := 4#40
    status := { State.reset.status with treeValid := true } }

theorem isTree_abccNodes : IsTree abccNodes 3 := by
  have hno : ∀ q, q < 512 → q ≠ 3 → q ≠ 4 → ∃ sym f, nodeNo abccNodes q = .leaf sym f := by
    intro q hq h3 h4
    have hq' : q % 512 = q := Nat.mod_eq_of_lt hq
    simp only [nodeNo, abccNodes, nodeAt, tabulate]
    simp only [Vector.getElem_mk, List.getElem_toArray, List.getElem_map, List.getElem_range, BitVec.toNat_ofNat, hq']
    split
    · exact ⟨_, _, rfl⟩
    · split
      · exact ⟨_, _, rfl⟩
      · split
        · exact ⟨_, _, rfl⟩
        · simp [Node.zero]
  have h3 : nodeNo abccNodes 3 = .internal 2#40 0#9 1#9 := by decide +kernel
  have h4 : nodeNo abccNodes 4 = .internal 4#40 2#9 3#9 := by decide +kernel
  have hparent : ∀ c q, q < 512 → isChild abccNodes q c → (q = 3 ∧ (c = 0 ∨ c = 1)) ∨ (q = 4 ∧ (c = 2 ∨ c = 3)) := by
    intro c q hq hc
    obtain ⟨f', l, r, h', hc'⟩ := hc
    by_cases e3 : q = 3
    · subst e3
      rw [h3] at h'
      simp only [Node.internal.injEq] at h'
      obtain ⟨_, rfl, rfl⟩ := h'
      simp only [BitVec.toNat_ofNat] at hc'
      left; omega
    · by_cases e4 : q = 4
      · subst e4
        rw [h4] at h'
        simp only [Node.internal.injEq] at h'
        obtain ⟨_, rfl, rfl⟩ := h'
        simp only [BitVec.toNat_ofNat] at hc'
        right; omega
      · obtain ⟨sym, f, h⟩ := hno q hq e3 e4
        rw [h] at h'
        exact absurd h' (by simp)
  refine ⟨by omega, ?_, ?_, ?_, ?_, ?_⟩
  · intro j hj
    have : j = 0 ∨ j = 1 ∨ j = 2 := by omega
    rcases this with rfl | rfl | rfl
    · exact ⟨0x41#8, 1#40, by decide +kernel, by decide⟩
    · exact ⟨0x42#8, 1#40, by decide +kernel, by decide⟩
    · exact ⟨0x43#8, 2#40, by decide +kernel, by decide⟩
  · intro i j hij hj
    have : (i = 0 ∧ j = 1) ∨ (i = 0 ∧ j = 2) ∨ (i = 1 ∧ j = 2) := by omega
    rcases this with ⟨rfl, rfl⟩ | ⟨rfl, rfl⟩ | ⟨rfl, rfl⟩ <;> decide +kernel
  · intro k h1 h5
    have : k = 3 ∨ k = 4 := by omega
    rcases this with rfl | rfl
    · exact ⟨2#40, 0#9, 1#9, h3, by decide, by decide, by decide, by decide +kernel⟩
    · exact ⟨4#40, 2#9, 3#9, h4, by decide, by decide, by decide, by decide +kernel⟩
  · intro c hc
    have : c = 0 ∨ c = 1 ∨ c = 2 ∨ c = 3 := by omega
    rcases this with rfl | rfl | rfl | rfl
    · exact ⟨3, by omega, ⟨_, _, _, h3, by simp⟩, fun q hq hcq => by have := hparent _ q hq hcq; omega⟩
    · exact ⟨3, by omega, ⟨_, _, _, h3, by simp⟩, fun q hq hcq => by have := hparent _ q hq hcq; omega⟩
    · exact ⟨4, by omega, ⟨_, _, _, h4, by simp⟩, fun q hq hcq => by have := hparent _ q hq hcq; omega⟩
    · exact ⟨4, by omega, ⟨_, _, _, h4, by simp⟩, fun q hq hcq => by have := hparent _ q hq hcq; omega⟩
  · intro i h1 h5
    have hi : i % 512 = i := Nat.mod_eq_of_lt h5
    simp only [nodeNo, abccNodes, nodeAt, tabulate]
    simp only [Vector.getElem_mk, List.getElem_toArray, List.getElem_map, List.getElem_range, BitVec.toNat_ofNat, hi]
    rw [if_neg (by omega), if_neg (by omega), if_neg (by omega), if_neg (by omega), if_neg (by omega)]

theorem truncatedState_treeInv : truncatedState.TreeInv where
  valid := fun _ => ⟨isTree_abccNodes, by decide, by decide, by
    show (4#40 : NodeFreq) = (nodeAt abccNodes 4#9).freq
    decide +kernel⟩
  invalid := fun h => absurd h (by decide)

theorem abcc_endsInsideCode : endsInsideCode abccNodes 4#9 [false, true] 1 :=
  ⟨[0x43#8], fun _ => [false], [true], 3#9, 2#40, 0#9, 1#9, fun v hv => by
    obtain rfl : v = 0x43#8 := by simpa using hv
    exact ⟨2#9, 2#40, by decide +kernel, by decide +kernel⟩, by simp, by decide +kernel, by decide +kernel, rfl, rfl⟩

/-! The steps. -/

theorem witness_StepRunsDecodedCommand : ∃ (s : State) (i : Instr), s.faultMark = none ∧ s.status.busy = true ∧
    (s.delay = 0 ∨ s.host = []) ∧ decode s.pending = .ok i :=
  ⟨State.reset.withFetchWord 32 1, .count, rfl, rfl, .inl rfl, by decide +kernel⟩

theorem witness_StepRunsHostAccess_wr : ∃ (s : State) (a : Addr) (v : Word) (rest : List HostOp), s.faultMark = none ∧
    (s.status.busy = false ∨ s.delay ≠ 0) ∧ a.toNat % 4 = 0 ∧ s.host = .wr a 4 v :: rest :=
  ⟨{ State.reset with host := [.wr 0x3FFFFC#22 4 5#32] }, 0x3FFFFC#22, 5#32, [], rfl, .inl rfl, by decide, rfl⟩

theorem witness_StepRunsHostAccess_rd : ∃ (s : State) (a : Addr) (rest : List HostOp), s.faultMark = none ∧
    (s.status.busy = false ∨ s.delay ≠ 0) ∧ a.toNat % 4 = 0 ∧ s.host = .rd a 4 :: rest :=
  ⟨{ State.reset.accept 1#32 1 with host := [.rd 0x000008#22 4, .wait] }, 0x000008#22, [.wait], rfl, .inr (by decide),
    by decide, rfl⟩

theorem witness_NonWordAccessRefused : ∃ (s : State) (a : Addr) (width : Nat) (v : Word) (rest : List HostOp),
    s.faultMark = none ∧ (s.status.busy = false ∨ s.delay ≠ 0) ∧ (a.toNat % 4 ≠ 0 ∨ width ≠ 4) ∧
    (s.host = .wr a width v :: rest ∨ s.host = .rd a width :: rest) :=
  ⟨{ State.reset with host := [.rd 0x000001#22 4] }, 0x000001#22, 4, 0#32, [], rfl, .inl rfl, .inl (by decide), .inr rfl⟩

theorem witness_NonWordAccessRefused_narrow : ∃ (s : State) (a : Addr) (width : Nat) (v : Word) (rest : List HostOp),
    s.faultMark = none ∧ (s.status.busy = false ∨ s.delay ≠ 0) ∧ (a.toNat % 4 ≠ 0 ∨ width ≠ 4) ∧
    (s.host = .wr a width v :: rest ∨ s.host = .rd a width :: rest) :=
  ⟨{ State.reset with host := [.wr 0x000018#22 2 7#32] }, 0x000018#22, 2, 7#32, [], rfl, .inl rfl, .inr (by decide), .inl rfl⟩

theorem witness_BadCommandCompletes_reserved : ∃ s : State, s.faultMark = none ∧ s.status.busy = true ∧
    (s.delay = 0 ∨ s.host = []) ∧ s.pending.extractLsb' 8 24 ≠ 0#24 :=
  ⟨State.reset.withFetchWord 32 0x100, rfl, rfl, .inl rfl, by decide +kernel⟩

theorem witness_BadCommandCompletes_opcode : ∃ s : State, s.faultMark = none ∧ s.status.busy = true ∧
    (s.delay = 0 ∨ s.host = []) ∧ 8 < (s.pending.extractLsb' 0 8).toNat :=
  ⟨State.reset.withFetchWord 32 9, rfl, rfl, .inl rfl, by decide +kernel⟩

theorem witness_CmdWriteAccepts : ∃ (s : State) (w : Word) (rest : List HostOp), s.faultMark = none ∧
    s.status.busy = false ∧ s.host = .wr 0x000004#22 4 w :: rest :=
  ⟨{ State.reset with host := [.wr 0x000004#22 4 0x109#32] }, 0x109#32, [], rfl, rfl, rfl⟩

theorem witness_BusyChanges_accept : ∃ s t : State, step s = .next t ∧ s.status.busy = false ∧ t.status.busy = true :=
  ⟨{ State.reset with host := [.wr 0x000004#22 4 1#32] }, _, rfl, rfl, rfl⟩

theorem witness_BusyChanges_completion : ∃ s t : State, step s = .next t ∧ s.status.busy = true ∧ t.status.busy = false :=
  ⟨State.reset.withFetchWord 32 0, _, rfl, rfl, rfl⟩

theorem witness_OvrIsSticky_set : ∃ s t : State, step s = .next t ∧ s.status.ovr = false ∧ t.status.ovr = true :=
  ⟨{ State.reset.accept 1#32 1 with host := [.wr 0x000018#22 4 7#32] }, _, rfl, rfl, rfl⟩

theorem witness_OvrIsSticky_clear : ∃ s t : State, step s = .next t ∧ s.status.ovr = true ∧ t.status.ovr = false :=
  ⟨{ State.reset with
      status := { State.reset.status with ovr := true }
      host := [.wr 0x000008#22 4 8#32] }, _, rfl, rfl, rfl⟩

theorem witness_OperandsStableInFlight : ∃ s t : State, s.status.busy = true ∧ s.turn = .host ∧ step s = .next t ∧
    ∀ rest, s.host ≠ .rst :: rest :=
  ⟨{ State.reset.accept 1#32 1 with host := [.wr 0x000400#22 4 7#32] }, _, rfl, rfl, rfl, by intro rest h; simp at h⟩

theorem witness_WaitEnds : ∃ (s : State) (rest : List HostOp), s.faultMark = none ∧ s.status.busy = true ∧
    s.host = .wait :: rest :=
  ⟨{ State.reset.accept 1#32 3 with host := [.wait, .rd 0x000008#22 4] }, _, rfl, rfl, rfl⟩

theorem witness_ResetEvent : ∃ (s : State) (rest : List HostOp), s.faultMark = none ∧
    (s.status.busy = false ∨ s.delay ≠ 0) ∧ s.host = .rst :: rest :=
  ⟨{ withCodes (State.reset.accept 1#32 3) with host := [.rst] }, [], rfl, .inr (by decide), rfl⟩

/-! The bus. -/

theorem witness_RegisterMapReads : ∃ s : State, s.status.busy = false := ⟨withCodes State.reset, rfl⟩

/-- The first and the last reserved word of every gap, and the first and last above each buffer of the small parameters. -/
theorem witness_ReservedAddressesInert : ∃ s : State, s.cfg.wellFormed = true ∧
    ∀ k ∈ [0x12, 0xFF, 0x200, 0xFFF, 0x1800, 0x1FFF, 0x3000, 0x3FFFF, 0x40010, 0x7FFFF, 0x80001, 0xBFFFF, 0xC0001, 0xFFFFF],
      isReservedAddr s.cfg (4 * (BitVec.ofNat 20 k).toNat) :=
  ⟨smallReset, by decide, by decide +kernel⟩

theorem witness_CodeWordLayout : ∃ code : BitString, code.length = 255 :=
  ⟨List.replicate 255 true, by rw [List.length_replicate]⟩

/-- The last word of OBUF, its second byte written. -/
theorem witness_BufferWordReads : ∃ (s : State) (b : Buffer) (o j : Nat) (byte : Byte), s.cfg.wellFormed = true ∧
    s.status.busy = false ∧ o % 4 = 0 ∧ o + 4 ≤ b.cap s.cfg ∧ j < 4 ∧ s.bufByte b (o + j) = some byte :=
  ⟨{ State.reset with mem := [(0x3FFFFD, 7#8)] }, .obuf, 0xFFFFC, 1, 7#8, by decide, rfl, by decide, by decide, by decide,
    by decide +kernel⟩

theorem witness_BufferWordWrites : ∃ s : State, s.cfg.wellFormed = true ∧ s.status.busy = false ∧
    ∀ b ∈ [Buffer.ibuf, Buffer.bbuf, Buffer.obuf], ∀ o ∈ [0, 0xFFFFC], o % 4 = 0 ∧ o + 4 ≤ b.cap s.cfg :=
  ⟨State.reset, by decide, rfl, by decide +kernel⟩

/-- The first and the last word of each range of read-only words. -/
theorem witness_IdleWrites : ∃ s : State, s.status.busy = false ∧
    ∀ k ∈ [0x0, 0x4, 0x5, 0x8, 0x11, 0x1000, 0x17FF, 0x2000, 0x2FFF], isReadOnlyAddr (4 * (BitVec.ofNat 20 k).toNat) :=
  ⟨State.reset, rfl, by decide +kernel⟩

/-- Protected words, the two that act, and words that are neither, at the ends of their ranges. -/
theorem witness_BusyWrites : ∃ s : State, s.cfg.wellFormed = true ∧ s.status.busy = true ∧
    (∀ k ∈ [0x1, 0x6, 0x7, 0x100, 0x1FF, 0x40000, 0x4000F, 0x80000],
      isProtectedAddr s.cfg (4 * (BitVec.ofNat 20 k).toNat)) ∧
    4 * (0x2#20).toNat = 0x8 ∧ 4 * (0x3#20).toNat = 0xC ∧
    ∀ k ∈ [0x0, 0x8, 0x200, 0x40010, 0x80001, 0xC0000], ¬ isProtectedAddr s.cfg (4 * (BitVec.ofNat 20 k).toNat) ∧
      4 * (BitVec.ofNat 20 k).toNat ≠ 0x8 ∧ 4 * (BitVec.ofNat 20 k).toNat ≠ 0xC :=
  ⟨smallReset.accept 1#32 1, by decide, rfl, by decide +kernel, by decide +kernel, by decide +kernel, by decide +kernel⟩

/-- The first and the last word of each range that draws, and a reserved word. -/
theorem witness_BusyReads : ∃ s : State, s.cfg.wellFormed = true ∧ s.status.busy = true ∧
    (∀ k ∈ [0x4, 0xE, 0x100, 0x1FF, 0x1000, 0x17FF, 0x2000, 0x2FFF, 0x40000, 0x4000F, 0x80000, 0xC0000],
      isDrawnAddr s.cfg (4 * (BitVec.ofNat 20 k).toNat)) ∧ isReservedAddr s.cfg (4 * (0x12#20).toNat) :=
  ⟨smallReset.accept 1#32 1, by decide, rfl, by decide +kernel, by decide +kernel⟩

/-! What every command keeps, and the invariants. -/

theorem witness_CompletionShape : ∀ i ∈ [Instr.nop, .count, .build, .codes, .encode, .decode, .compress, .decompress, .clear],
    ∃ s t : State, s.cfg.wellFormed = true ∧ exec i s = .next t := by
  intro i hi
  refine ⟨State.reset, ?_⟩
  have h : nextAnd (exec i State.reset) (fun _ => true) = true := by
    simp only [List.mem_cons, List.not_mem_nil, or_false] at hi
    rcases hi with rfl | rfl | rfl | rfl | rfl | rfl | rfl | rfl | rfl <;> decide +kernel
  obtain ⟨t, ht, _⟩ := exists_of_nextAnd h
  exact ⟨t, by decide, ht⟩

theorem witness_ErrorWritesNothing : ∃ (i : Instr) (s t : State), i ≠ .compress ∧ i ≠ .decompress ∧
    s.status.err = false ∧ exec i s = .next t ∧ t.status.err = true := by
  obtain ⟨t, h1, h2⟩ := exists_of_nextAnd (o := exec .build State.reset) (p := fun t => t.status.err) (by decide +kernel)
  exact ⟨.build, State.reset, t, by decide, by decide, rfl, h1, h2⟩

/-- A state with a tree, a code table, an input and an output that meets every invariant, and a step from it. -/
theorem witness_invariants : ∃ s t : State, s.MemInv ∧ s.LifeInv ∧ s.TreeInv ∧ s.CodeInv ∧ s.OutInv ∧
    step s = .next t := by
  refine ⟨{ withInput (withCodes State.reset) [0x41#8] with host := [.wr 0x000004#22 4 4#32] }, _, ?_, ?_, ?_, ?_, ?_, rfl⟩
  · refine ⟨by decide, by decide +kernel, ?_⟩
    intro cell hc
    obtain rfl : cell = (0x100000, 0x41#8) := List.mem_singleton.1 hc
    exact ⟨.ibuf, by decide, by decide⟩
  · exact ⟨fun _ => ⟨rfl, rfl⟩, fun h => absurd h (by decide), fun h => absurd h (by decide), fun _ => ⟨rfl, rfl⟩, by decide⟩
  · exact ⟨(treeInv_withTree State.reset).valid, fun h => absurd h (by decide)⟩
  · have h := codeInv_withCodes State.reset
    exact ⟨h.needsTree, h.exact, h.bounded, h.attained, h.invalid⟩
  · exact ⟨by decide, fun i hi => absurd hi (by simp [withInput, withCodes, withTree, State.reset, State.resetWith])⟩

/-! COUNT. -/

theorem witness_CountCounts : ∃ s : State, s.inLen.toNat = s.cfg.capIbuf ∧ ∀ i, i < s.inLen.toNat → s.bufByte .ibuf i ≠ none :=
  ⟨withInput smallReset (List.replicate 0x40 0x41#8), by decide +kernel, by decide +kernel⟩

theorem witness_CountErrors_tooLong : ∃ s : State, s.cfg.capIbuf < s.inLen.toNat :=
  ⟨{ State.reset with inLen := 0x00100001#32 }, by decide⟩

theorem witness_CountErrors_uninit : ∃ s : State, s.inLen.toNat ≤ s.cfg.capIbuf ∧
    ∃ i, i < s.inLen.toNat ∧ s.bufByte .ibuf i = none :=
  ⟨{ withInput State.reset [0x41#8] with inLen := 2#32 }, by decide, 1, by decide, by decide +kernel⟩

theorem witness_CountMeetsFrequencyMap : ∃ s t : State, s.cfg.wellFormed = true ∧ s.inLen.toNat ≤ s.cfg.capIbuf ∧
    exec .count s = .next t := by
  obtain ⟨t, h, _⟩ := exists_of_nextAnd (o := exec .count (withInput State.reset [0x41#8, 0x42#8])) (p := fun _ => true)
    (by decide +kernel)
  exact ⟨_, t, by decide, by decide, h⟩

/-! BUILD. -/

theorem witness_BuildMerges : ∃ s t : State, (∀ v, (entryAt s.freq v).msb = false) ∧ (∃ v, entryAt s.freq v ≠ 0#32) ∧
    exec .build s = .next t ∧ 2 ≤ (presentSymbols s.freq).length := by
  obtain ⟨t, h, _⟩ := exists_of_nextAnd (o := exec .build (withFreq State.reset [(0x41, 4), (0x42, 1)])) (p := fun _ => true)
    (by decide +kernel)
  exact ⟨_, t, by decide +kernel, ⟨0x41#8, by decide +kernel⟩, h, by decide +kernel⟩

theorem witness_BuildErrors_negative : ∃ (s : State) (v : Byte), (entryAt s.freq v).msb = true ∧
    ∀ u : Byte, u.toNat < v.toNat → (entryAt s.freq u).msb = false :=
  ⟨withFreq State.reset [(0, 0x80000000)], 0#8, by decide +kernel, fun u hu => absurd hu (by simp)⟩

theorem witness_BuildErrors_empty : ∃ s : State, ∀ v, entryAt s.freq v = 0#32 :=
  ⟨State.reset, fun v => by simp [State.reset, State.resetWith, entryAt]⟩

/-- The hypotheses of BuildIsOptimal on "AAAAB", the code of R150's own example against itself swapped. -/
theorem witness_BuildIsOptimal_code : prefixFree [0x41#8, 0x42#8] (fun v => if v = 0x41#8 then [false] else [true]) := by
  intro v hv w hw hne
  simp only [List.mem_cons, List.not_mem_nil, or_false] at hv hw
  rcases hv with rfl | rfl <;> rcases hw with rfl | rfl <;> first | exact absurd rfl hne | decide

theorem witness_BuildIsOptimal : ∃ (s t : State) (depthPath c : Byte → BitString),
    (∀ v, (entryAt s.freq v).msb = false) ∧ 2 ≤ (presentSymbols s.freq).length ∧ exec .build s = .next t ∧
    (∀ v ∈ presentSymbols s.freq, isPathTo t.nodes t.root (depthPath v) v) ∧ prefixFree (presentSymbols s.freq) c := by
  have hp : presentSymbols (withFreq State.reset [(0x41, 4), (0x42, 1)]).freq = [0x41#8, 0x42#8] := by decide +kernel
  obtain ⟨t, h, hn⟩ := exists_of_nextAnd (o := exec .build (withFreq State.reset [(0x41, 4), (0x42, 1)]))
    (p := fun t => t.root == 2#9 && descend t.nodes t.root [true] == some 0#9 && descend t.nodes t.root [false] == some 1#9 &&
      nodeAt t.nodes 0#9 == .leaf 0x41#8 4#40 && nodeAt t.nodes 1#9 == .leaf 0x42#8 1#40) (by decide +kernel)
  simp only [Bool.and_eq_true, beq_iff_eq] at hn
  obtain ⟨⟨⟨⟨_, h1⟩, h2⟩, h3⟩, h4⟩ := hn
  refine ⟨_, t, fun v => if v = 0x41#8 then [true] else [false], _, by decide +kernel, by rw [hp]; decide, h, ?_,
    hp ▸ witness_BuildIsOptimal_code⟩
  rw [hp]
  intro v hv
  simp only [List.mem_cons, List.not_mem_nil, or_false] at hv
  rcases hv with rfl | rfl
  · exact ⟨0#9, 4#40, h1, h3⟩
  · exact ⟨1#9, 1#40, h2, h4⟩

/-! CODES. -/

theorem witness_CodesAreLeafPaths : ∃ s : State, s.TreeInv ∧ s.status.treeValid = true :=
  ⟨withTree State.reset, treeInv_withTree _, rfl⟩

theorem witness_CodesNeedTree : ∃ s : State, s.status.treeValid = false := ⟨State.reset, rfl⟩

theorem witness_CodeTableIsPrefixFree : ∃ s : State, s.TreeInv ∧ s.CodeInv ∧ s.status.ctabValid = true :=
  ⟨withCodes State.reset, ⟨(treeInv_withTree State.reset).valid, fun h => absurd h (by decide)⟩, codeInv_withCodes _, rfl⟩

/-! ENCODE. -/

/-- "AAAAB" with the code table of L1-4. -/
def encodeState : State := withInput (withCodes State.reset) [0x41#8, 0x41#8, 0x41#8, 0x41#8, 0x42#8]

theorem encodeState_holds : encodeState.holdsInput [0x41#8, 0x41#8, 0x41#8, 0x41#8, 0x42#8] :=
  ⟨by decide +kernel, by decide +kernel⟩

theorem encodeState_codes : ∀ b ∈ [0x41#8, 0x41#8, 0x41#8, 0x41#8, 0x42#8],
    entryAt encodeState.ctab b = some (if b = 0x41#8 then [true] else [false]) := by decide +kernel

theorem witness_EncodeConcatenatesCodes : ∃ (s : State) (input : List Byte) (code : Byte → BitString),
    s.cfg.wellFormed = true ∧ s.inLen ≠ 0#32 ∧ s.inLen.toNat ≤ s.cfg.capIbuf ∧ s.status.ctabValid = true ∧
    s.holdsInput input ∧ (∀ b ∈ input, entryAt s.ctab b = some (code b)) ∧
    (input.flatMap code).length ≤ 8 * s.cfg.capBbuf :=
  ⟨encodeState, _, fun b => if b = 0x41#8 then [true] else [false], by decide, by decide, by decide, rfl,
    encodeState_holds, encodeState_codes, by decide⟩

theorem witness_EncodeErrors_noCodeTable : ∃ s : State, s.inLen.toNat ≤ s.cfg.capIbuf ∧ s.inLen ≠ 0#32 ∧
    s.status.ctabValid = false :=
  ⟨{ State.reset with inLen := 1#32 }, by decide, by decide, rfl⟩

theorem witness_EncodeErrors_unknown : ∃ (s : State) (i : Nat) (b : Byte), s.inLen.toNat ≤ s.cfg.capIbuf ∧
    s.inLen ≠ 0#32 ∧ s.status.ctabValid = true ∧ i < s.inLen.toNat ∧
    (∀ j, j < i → ∃ b c, s.bufByte .ibuf j = some b ∧ entryAt s.ctab b = some c) ∧ s.bufByte .ibuf i = some b ∧
    entryAt s.ctab b = none := by
  refine ⟨withInput (withCodes State.reset) [0x42#8, 0x43#8], 1, 0x43#8, by decide, by decide, rfl, by decide, fun j hj => ?_,
    by decide +kernel, by decide +kernel⟩
  obtain rfl : j = 0 := by omega
  exact ⟨0x42#8, [false], by decide +kernel, by decide +kernel⟩

theorem witness_EncodeErrors_uninit : ∃ (s : State) (i : Nat), s.inLen.toNat ≤ s.cfg.capIbuf ∧
    s.inLen ≠ 0#32 ∧ s.status.ctabValid = true ∧ i < s.inLen.toNat ∧
    (∀ j, j < i → ∃ b c, s.bufByte .ibuf j = some b ∧ entryAt s.ctab b = some c) ∧ s.bufByte .ibuf i = none :=
  ⟨{ withCodes State.reset with inLen := 1#32 }, 0, by decide, by decide, rfl, by decide, fun j hj => absurd hj (by omega),
    by decide +kernel⟩

/-- L2-4 j: 0x21 bits into a BBUF of 0x20. -/
theorem witness_EncodeErrors_overflow : ∃ (s : State) (input : List Byte) (code : Byte → BitString),
    s.inLen.toNat ≤ s.cfg.capIbuf ∧ s.inLen ≠ 0#32 ∧ s.status.ctabValid = true ∧ s.holdsInput input ∧
    (∀ b ∈ input, entryAt s.ctab b = some (code b)) ∧ 8 * s.cfg.capBbuf < (input.flatMap code).length :=
  ⟨withInput (withCodes smallReset) (List.replicate 0x21 0x41#8), List.replicate 0x21 0x41#8, fun _ => [true],
    by decide, by decide, rfl, ⟨by decide +kernel, by decide +kernel⟩, by decide +kernel, by decide⟩

/-! DECODE. -/

theorem witness_DecodeWalksTree : ∃ (s : State) (bits : BitString) (out : List Byte), s.TreeInv ∧
    s.status.treeValid = true ∧ s.bitCnt ≠ 0#32 ∧ s.bitCnt.toNat ≤ 8 * s.cfg.capBbuf ∧ s.holdsStream bits ∧
    decodesTo s.nodes s.root bits out ∧ out.length ≤ s.cfg.capObuf :=
  ⟨streamState, _, _, ⟨(treeInv_withTree State.reset).valid, fun h => absurd h (by decide)⟩, rfl, by decide, by decide,
    streamState_holds, streamState_decodes, by decide⟩

theorem witness_DecodeDetectsTruncation : ∃ (s : State) (bits : BitString) (start : Nat), s.TreeInv ∧
    s.status.treeValid = true ∧ s.bitCnt.toNat ≤ 8 * s.cfg.capBbuf ∧ s.holdsStream bits ∧
    endsInsideCode s.nodes s.root bits start :=
  ⟨truncatedState, [false, true], 1, truncatedState_treeInv, rfl, by decide, ⟨by decide +kernel, by decide +kernel⟩,
    abcc_endsInsideCode⟩

theorem witness_DecodeErrors_tooLarge : ∃ s : State, 8 * s.cfg.capBbuf < s.bitCnt.toNat :=
  ⟨{ smallReset with bitCnt := 0x21#32 }, by decide⟩

theorem witness_DecodeErrors_noTree : ∃ s : State, s.bitCnt.toNat ≤ 8 * s.cfg.capBbuf ∧ s.bitCnt ≠ 0#32 ∧
    s.status.treeValid = false :=
  ⟨{ smallReset with bitCnt := 0x20#32 }, by decide, by decide, rfl⟩

/-- L2-5 n. -/
theorem witness_DecodeErrors_uninit : ∃ s : State, s.bitCnt.toNat ≤ 8 * s.cfg.capBbuf ∧ s.bitCnt ≠ 0#32 ∧
    s.status.treeValid = true ∧ ∃ j, j < ceilDiv s.bitCnt.toNat 8 ∧ s.bufByte .bbuf j = none :=
  ⟨withStream (withTree State.reset) [0xF0#8] 9, by decide, by decide, rfl, 1, by decide, by decide +kernel⟩

theorem witness_DecodeErrors_overflow : ∃ (s : State) (bits : BitString) (out : List Byte),
    s.bitCnt.toNat ≤ 8 * s.cfg.capBbuf ∧ s.bitCnt ≠ 0#32 ∧ s.TreeInv ∧ s.status.treeValid = true ∧ s.holdsStream bits ∧
    decodesTo s.nodes s.root bits out ∧ s.cfg.capObuf < out.length := by
  refine ⟨withStream (withTree smallReset) [0xF8#8] 5, List.replicate 5 true, List.replicate 5 0x41#8, by decide, by decide,
    ⟨(treeInv_withTree State.reset).valid, fun h => absurd h (by decide)⟩, rfl, ⟨by decide +kernel, by decide +kernel⟩, ?_,
    by decide⟩
  have hroot : nodeAt abNodes 2#9 = .internal 5#40 1#9 0#9 := by decide +kernel
  refine .inr ⟨_, _, _, hroot, fun _ => [true], fun v hv => ?_, rfl⟩
  obtain rfl : v = 0x41#8 := List.eq_of_mem_replicate hv
  exact abNodes_path_a

theorem witness_DecodeInvertsEncode : ∃ s t u : State, s.cfg.wellFormed = true ∧ s.TreeInv ∧ s.CodeInv ∧
    s.status.ctabValid = true ∧ s.status.err = false ∧ s.inLen.toNat ≤ s.cfg.capObuf ∧ exec .encode s = .next t ∧
    t.status.err = false ∧ u.cfg = s.cfg ∧ u.nodes = s.nodes ∧ u.root = s.root ∧ u.status.treeValid = true ∧
    u.status.err = false ∧ u.bitCnt = t.bitCnt ∧
    ∀ j, j < ceilDiv t.bitCnt.toNat 8 → u.bufByte .bbuf j = t.bufByte .bbuf j := by
  obtain ⟨t, h, ht⟩ := exists_of_nextAnd (o := exec .encode encodeState) (p := fun t => !t.status.err && t.status.treeValid)
    (by decide +kernel)
  simp only [Bool.and_eq_true, Bool.not_eq_true'] at ht
  have hc := codeInv_withCodes State.reset
  exact ⟨encodeState, t, { encodeState with mem := t.mem, bitCnt := t.bitCnt }, by decide,
    ⟨(treeInv_withTree State.reset).valid, fun h => absurd h (by decide)⟩,
    ⟨hc.needsTree, hc.exact, hc.bounded, hc.attained, hc.invalid⟩, rfl, rfl, by decide, h, ht.1, rfl, rfl, rfl, rfl, rfl, rfl,
    fun _ _ => rfl⟩

/-! COMPRESS and DECOMPRESS. -/

/-- "AAAAB" and nothing else. -/
def inputState : State := withInput State.reset [0x41#8, 0x41#8, 0x41#8, 0x41#8, 0x42#8]

theorem witness_CompressIsSequence : ∃ s a b c d : State, s.status.err = false ∧ s.inLen ≠ 0#32 ∧
    exec .count s = .next a ∧ exec .build a = .next b ∧ exec .codes b = .next c ∧ exec .encode c = .next d ∧
    d.status.err = false := by
  have h : nextAnd (exec .count inputState) (fun a => nextAnd (exec .build a) (fun b => nextAnd (exec .codes b)
    (fun c => nextAnd (exec .encode c) (fun d => !d.status.err)))) = true := by decide +kernel
  obtain ⟨a, ha, h⟩ := exists_of_nextAnd h
  obtain ⟨b, hb, h⟩ := exists_of_nextAnd h
  obtain ⟨c, hc, h⟩ := exists_of_nextAnd h
  obtain ⟨d, hd, h⟩ := exists_of_nextAnd h
  exact ⟨inputState, a, b, c, d, rfl, by decide, ha, hb, hc, hd, by simpa using h⟩

theorem witness_CompressCompletes : ∃ s : State, s.cfg.wellFormed = true ∧ s.status.err = false ∧ s.inLen ≠ 0#32 ∧
    s.inLen.toNat ≤ s.cfg.capIbuf ∧ (∀ i, i < s.inLen.toNat → s.bufByte .ibuf i ≠ none) ∧
    255 * s.inLen.toNat ≤ 8 * s.cfg.capBbuf :=
  ⟨inputState, by decide, rfl, by decide, by decide, by decide +kernel, by decide⟩

theorem witness_CompressFits : ∃ s t : State, s.cfg.wellFormed = true ∧ s.status.err = false ∧
    s.inLen.toNat ≤ s.cfg.capIbuf ∧ s.inLen.toNat ≤ s.cfg.capBbuf ∧ exec .compress s = .next t := by
  obtain ⟨t, h, _⟩ := exists_of_nextAnd (o := exec .compress inputState) (p := fun _ => true) (by decide +kernel)
  exact ⟨inputState, t, by decide, rfl, by decide, by decide, h⟩

/-- {41: 4, 42: 1} with the stream 11110 (L2-7 b). -/
def payloadState : State := withStream (withFreq State.reset [(0x41, 4), (0x42, 1)]) [0xF0#8] 5

theorem payload_build : ∃ b : State, exec .build payloadState = .next b ∧ b.status.err = false ∧
    (∃ f l r, nodeAt b.nodes b.root = .internal f l r) ∧ isPathTo b.nodes b.root [true] 0x41#8 ∧
    isPathTo b.nodes b.root [false] 0x42#8 := by
  obtain ⟨t, h, hn⟩ := exists_of_nextAnd (o := exec .build payloadState)
    (p := fun t => !t.status.err && nodeAt t.nodes t.root == .internal 5#40 1#9 0#9 &&
      descend t.nodes t.root [true] == some 0#9 && descend t.nodes t.root [false] == some 1#9 &&
      nodeAt t.nodes 0#9 == .leaf 0x41#8 4#40 && nodeAt t.nodes 1#9 == .leaf 0x42#8 1#40) (by decide +kernel)
  simp only [Bool.and_eq_true, beq_iff_eq, Bool.not_eq_true'] at hn
  obtain ⟨⟨⟨⟨⟨h0, h1⟩, h2⟩, h3⟩, h4⟩, h5⟩ := hn
  exact ⟨t, h, h0, ⟨_, _, _, h1⟩, ⟨0#9, 4#40, h2, h4⟩, ⟨1#9, 1#40, h3, h5⟩⟩

theorem witness_DecompressDecodes : ∃ (s b : State) (bits : BitString) (out : List Byte), s.cfg.wellFormed = true ∧
    s.status.err = false ∧ exec .build s = .next b ∧ b.status.err = false ∧ s.bitCnt ≠ 0#32 ∧
    s.bitCnt.toNat ≤ 8 * s.cfg.capBbuf ∧ s.holdsStream bits ∧ decodesTo b.nodes b.root bits out ∧
    out.length = s.freqSum ∧ out.length ≤ s.cfg.capObuf := by
  obtain ⟨b, h, herr, ⟨f, l, r, hroot⟩, ha, hb⟩ := payload_build
  refine ⟨payloadState, b, [true, true, true, true, false], [0x41#8, 0x41#8, 0x41#8, 0x41#8, 0x42#8], by decide, rfl, h,
    herr, by decide, by decide, ⟨by decide +kernel, by decide +kernel⟩, ?_, by decide +kernel, by decide⟩
  refine .inr ⟨f, l, r, hroot, fun v => if v = 0x41#8 then [true] else [false], fun v hv => ?_, rfl⟩
  have : v = 0x41#8 ∨ v = 0x42#8 := by
    simp only [List.mem_cons, List.not_mem_nil, or_false] at hv
    tauto
  rcases this with rfl | rfl
  · exact ha
  · exact hb

theorem payload_written (j : Nat) (hj : j < 1) : payloadState.bufByte .bbuf j ≠ none := by
  obtain rfl : j = 0 := by omega
  decide +kernel

theorem witness_DecompressCompletes : ∃ s : State, s.cfg.wellFormed = true ∧ s.status.err = false ∧
    (∀ v, (entryAt s.freq v).msb = false) ∧ (∃ v, entryAt s.freq v ≠ 0#32) ∧ s.bitCnt ≠ 0#32 ∧
    s.bitCnt.toNat ≤ 8 * s.cfg.capBbuf ∧ ∀ j, j < ceilDiv s.bitCnt.toNat 8 → s.bufByte .bbuf j ≠ none :=
  ⟨payloadState, by decide, rfl, by decide +kernel, ⟨0x41#8, by decide +kernel⟩, by decide, by decide,
    fun j hj => payload_written j (lt_of_lt_of_eq hj (by decide +kernel))⟩

/-- One symbol of count CAP_OBUF = 4. -/
def oneSymbolState : State := withStream (withFreq smallReset [(0x41, 4)]) [0xA0#8] 4

theorem witness_DecompressCompletes_oneSymbol : (∀ v, (entryAt oneSymbolState.freq v).msb = false) ∧
    (∀ u : Byte, u ≠ 0x41#8 → entryAt oneSymbolState.freq u = 0#32) ∧
    oneSymbolState.bitCnt = entryAt oneSymbolState.freq 0x41#8 ∧
    oneSymbolState.bitCnt.toNat = oneSymbolState.cfg.capObuf ∧ oneSymbolState.bufByte .bbuf 0 ≠ none ∧
    oneSymbolState.bitCnt ≠ 0#32 :=
  ⟨by decide +kernel, by decide +kernel, by decide +kernel, by decide, by decide +kernel, by decide⟩

theorem witness_DecompressErrors : ∃ s b : State, s.bitCnt.toNat ≤ 8 * s.cfg.capBbuf ∧ s.status.err = false ∧
    exec .build s = .next b ∧ b.status.err = false ∧ s.bitCnt = 0#32 := by
  obtain ⟨t, h, ht⟩ := exists_of_nextAnd (o := exec .build (withFreq State.reset [(0x41, 4), (0x42, 1)]))
    (p := fun t => !t.status.err) (by decide +kernel)
  exact ⟨_, t, by decide, rfl, h, by simpa using ht, rfl⟩

theorem witness_DecompressErrors_clauses :
    (∃ s : State, 8 * s.cfg.capBbuf < s.bitCnt.toNat) ∧
    (∃ (s : State) (v : Byte), s.bitCnt.toNat ≤ 8 * s.cfg.capBbuf ∧ (entryAt s.freq v).msb = true ∧
      ∀ u : Byte, u.toNat < v.toNat → (entryAt s.freq u).msb = false) ∧
    (∃ s : State, s.bitCnt.toNat = 8 * s.cfg.capBbuf ∧ s.bitCnt ≠ 0#32 ∧ ∀ v, entryAt s.freq v = 0#32) :=
  ⟨⟨{ smallReset with bitCnt := 0x28#32 }, by decide⟩,
    ⟨withFreq State.reset [(0, 0x80000000)], 0#8, by decide, by decide +kernel, fun u hu => absurd hu (by simp)⟩,
    ⟨{ smallReset with bitCnt := 0x20#32 }, by decide, by decide,
      fun v => by simp [smallReset, State.resetWith, entryAt]⟩⟩

theorem witness_DecompressErrors_uninit : ∃ s b : State, s.bitCnt.toNat ≤ 8 * s.cfg.capBbuf ∧ s.status.err = false ∧
    exec .build s = .next b ∧ b.status.err = false ∧ s.bitCnt ≠ 0#32 ∧
    ∃ j, j < ceilDiv s.bitCnt.toNat 8 ∧ s.bufByte .bbuf j = none := by
  obtain ⟨t, h, ht⟩ := exists_of_nextAnd (o := exec .build (withStream (withFreq State.reset [(0x41, 4)]) [0xF0#8] 9))
    (p := fun t => !t.status.err) (by decide +kernel)
  exact ⟨_, t, by decide, rfl, h, by simpa using ht, by decide, 1, by decide, by decide +kernel⟩

/-- A stream of three bits under the degenerate tree of 0x41 with count 5, beside CAP_OBUF = 4: the count does not match. -/
theorem witness_DecompressDecodes_mismatch : ∃ (s b : State) (bits : BitString) (out : List Byte),
    s.cfg.wellFormed = true ∧ s.status.err = false ∧ exec .build s = .next b ∧ b.status.err = false ∧ s.bitCnt ≠ 0#32 ∧
    s.bitCnt.toNat ≤ 8 * s.cfg.capBbuf ∧ s.holdsStream bits ∧ decodesTo b.nodes b.root bits out ∧
    out.length ≠ s.freqSum := by
  obtain ⟨b, h, hb⟩ := exists_of_nextAnd (o := exec .build (withStream (withFreq smallReset [(0x41, 5)]) [0xE0#8] 3))
    (p := fun t => !t.status.err && nodeAt t.nodes t.root == .leaf 0x41#8 5#40) (by decide +kernel)
  simp only [Bool.and_eq_true, Bool.not_eq_true', beq_iff_eq] at hb
  exact ⟨_, b, [true, true, true], _, by decide, rfl, h, hb.1, by decide, by decide, ⟨by decide +kernel, by decide +kernel⟩,
    .inl ⟨_, _, hb.2, rfl⟩, by decide +kernel⟩

theorem witness_DecompressDecodes_overflow : ∃ (s b : State) (bits : BitString) (out : List Byte),
    s.cfg.wellFormed = true ∧ s.status.err = false ∧ exec .build s = .next b ∧ b.status.err = false ∧ s.bitCnt ≠ 0#32 ∧
    s.bitCnt.toNat ≤ 8 * s.cfg.capBbuf ∧ s.holdsStream bits ∧ decodesTo b.nodes b.root bits out ∧
    out.length = s.freqSum ∧ s.cfg.capObuf < out.length := by
  obtain ⟨b, h, hb⟩ := exists_of_nextAnd (o := exec .build (withStream (withFreq smallReset [(0x41, 5)]) [0xF8#8] 5))
    (p := fun t => !t.status.err && nodeAt t.nodes t.root == .leaf 0x41#8 5#40) (by decide +kernel)
  simp only [Bool.and_eq_true, Bool.not_eq_true', beq_iff_eq] at hb
  exact ⟨_, b, [true, true, true, true, true], _, by decide, rfl, h, hb.1, by decide, by decide,
    ⟨by decide +kernel, by decide +kernel⟩, .inl ⟨_, _, hb.2, rfl⟩, by decide +kernel, by decide⟩

/-- FREQ {41: 2, 42: 1, 43: 1} and the stream 01, which ends inside the code that begins at 1. -/
theorem witness_DecompressDecodes_truncated : ∃ (s b : State) (bits : BitString) (start : Nat),
    s.cfg.wellFormed = true ∧ s.status.err = false ∧ exec .build s = .next b ∧ b.status.err = false ∧ s.bitCnt ≠ 0#32 ∧
    s.bitCnt.toNat ≤ 8 * s.cfg.capBbuf ∧ s.holdsStream bits ∧ endsInsideCode b.nodes b.root bits start := by
  obtain ⟨b, h, hb⟩ := exists_of_nextAnd
    (o := exec .build (withStream (withFreq State.reset [(0x41, 2), (0x42, 1), (0x43, 1)]) [0x40#8] 2))
    (p := fun t => !t.status.err && descend t.nodes t.root [false] == some 0#9 &&
      nodeAt t.nodes 0#9 == .leaf 0x41#8 2#40 && descend t.nodes t.root [true] == some 3#9 &&
      nodeAt t.nodes 3#9 == .internal 2#40 1#9 2#9) (by decide +kernel)
  simp only [Bool.and_eq_true, Bool.not_eq_true', beq_iff_eq] at hb
  obtain ⟨⟨⟨⟨h0, h1⟩, h2⟩, h3⟩, h4⟩ := hb
  refine ⟨_, b, [false, true], 1, by decide, rfl, h, h0, by decide, by decide, ⟨by decide +kernel, by decide +kernel⟩,
    [0x41#8], fun _ => [false], [true], 3#9, _, _, _, fun v hv => ?_, by decide, h3, h4, rfl, rfl⟩
  obtain rfl : v = 0x41#8 := by simpa using hv
  exact ⟨0#9, 2#40, h1, h2⟩

/-- L2-5: the degenerate tree decodes every bit. -/
theorem witness_DecodeWalksTree_degenerate : decodesTo (withOneLeaf smallReset).nodes (withOneLeaf smallReset).root
    [true, false, true] (List.replicate 3 0x41#8) := .inl ⟨0x41#8, 1#40, by decide +kernel, rfl⟩

theorem witness_CompressErrors_clauses :
    (∃ s : State, s.inLen = 0#32) ∧ (∃ s : State, s.cfg.capIbuf < s.inLen.toNat) ∧
    (∃ s : State, s.inLen.toNat = s.cfg.capIbuf ∧ ∃ i, i < s.inLen.toNat ∧ s.bufByte .ibuf i = none) :=
  ⟨⟨State.reset, rfl⟩, ⟨{ State.reset with inLen := 0x00100001#32 }, by decide⟩,
    ⟨{ withInput smallReset [0x41#8] with inLen := 0x40#32 }, by decide, 0x3F, by decide, by decide +kernel⟩⟩

theorem witness_CompressCompletes_fits : 255 * inputState.inLen.toNat ≤ 8 * inputState.cfg.capBbuf := by decide

theorem witness_RoundTrip : ∃ s t u : State, s.cfg.wellFormed = true ∧ s.status.err = false ∧
    s.inLen.toNat ≤ s.cfg.capObuf ∧ s.inLen ≠ 0#32 ∧ exec .compress s = .next t ∧ t.status.err = false ∧ u.cfg = s.cfg ∧
    u.freq = t.freq ∧ u.bitCnt = t.bitCnt ∧ u.status.err = false ∧
    ∀ j, j < ceilDiv t.bitCnt.toNat 8 → u.bufByte .bbuf j = t.bufByte .bbuf j := by
  obtain ⟨t, h, ht⟩ := exists_of_nextAnd (o := exec .compress inputState) (p := fun t => !t.status.err) (by decide +kernel)
  exact ⟨inputState, t, { State.reset with freq := t.freq, bitCnt := t.bitCnt, mem := t.mem }, by decide, rfl, by decide,
    by decide, h, by simpa using ht, rfl, rfl, rfl, rfl, fun _ _ => rfl⟩

end Sys2Proof.Tests
end

section
/-! The operation behind each command, and how a property of states passes through operations, composites and completions. -/

namespace Sys2Proof.Machine

/-- The operation that a command completes. -/
def opOf : Instr → State → OpOut
  | .nop => .done
  | .count => opCount
  | .build => opBuild
  | .codes => opCodes
  | .encode => opEncode
  | .decode => opDecode
  | .compress => opCompress
  | .decompress => opDecompress
  | .clear => fun s => .done s.cleared

/-- Every command is the completion of its operation (R122). -/
theorem exec_eq_complete (i : Instr) (s : State) : exec i s = (opOf i s).complete := by
  cases i <;> rfl

/-- The state an operation commits, in success or in error, has the property; a fault commits none (R124, R129). -/
def OpOut.Meets (P : State → Prop) : OpOut → Prop
  | .done s => P s
  | .raised s _ _ _ => P s
  | .fault _ => True

section
variable {P : State → Prop}

@[simp] theorem OpOut.meets_done (s : State) : (OpOut.done s).Meets P ↔ P s := Iff.rfl

@[simp] theorem OpOut.meets_raised (s : State) (op : Byte) (cause : ErrCause) (info : Word) :
    (OpOut.raised s op cause info).Meets P ↔ P s := Iff.rfl

@[simp] theorem OpOut.meets_fault (f : Fault) : (OpOut.fault f).Meets P := trivial

/-- A composite commits a state with the property when its first part does and its second keeps it (R124). -/
theorem OpOut.Meets.andThen {o : OpOut} {k : State → OpOut} (ho : o.Meets P) (hk : ∀ s, P s → (k s).Meets P) :
    (o.andThen k).Meets P := by
  cases o with
  | done s => exact hk s ho
  | raised s op cause info => exact ho
  | fault f => trivial

/-- A property that both completions keep passes from the operation to the command's next state (R125, R126). -/
theorem OpOut.Meets.of_complete {o : OpOut} {t : State} (ho : o.Meets P) (hok : ∀ s, P s → P s.completeOk)
    (herr : ∀ s op cause info, P s → P (s.completeErr op cause info)) (h : o.complete = .next t) : P t := by
  rcases OpOut.complete_cases h with ⟨s, rfl, rfl⟩ | ⟨s, op, cause, info, rfl, rfl⟩
  · exact hok s ho
  · exact herr s op cause info ho

end

end Sys2Proof.Machine
end

section
/-! Where a write to buffer memory can land: within the capacity of its buffer. -/

namespace Sys2Proof.Machine

/-- A legal capacity is whole words (R8). -/
theorem Buffer.cap_mod_four {c : Config} (h : c.wellFormed = true) (b : Buffer) : b.cap c % 4 = 0 := by
  simp only [Config.wellFormed, capWellFormed, Bool.and_eq_true, beq_iff_eq] at h
  obtain ⟨⟨⟨⟨hi, -⟩, -⟩, ⟨hb, -⟩, -⟩, ⟨ho, -⟩, -⟩ := h
  cases b with
  | ibuf => exact hi
  | bbuf => exact hb
  | obuf => exact ho

/-- Padded output fits a buffer of whole words that holds the output (R186). -/
theorem length_paddedBytes_le {out : List Byte} {cap : Nat} (h : out.length ≤ cap) (hcap : cap % 4 = 0) :
    (paddedBytes out).length ≤ cap := by
  rw [length_paddedBytes, ceilDiv]; omega

/-- A buffer's window answers a buffer word only within the capacity (R68). -/
theorem bufferWindow_fits {c : Config} {w b : Buffer} {x off : Nat} (h : bufferWindow c w x = .buffer b off) :
    off + 4 ≤ b.cap c := by
  unfold bufferWindow at h
  split at h
  · cases h; assumption
  · cases h

/-- A word that the address map places in a buffer lies within its capacity (R61, R68). -/
theorem locate_buffer_fits {c : Config} {wa : WordAddr} {b : Buffer} {off : Nat} (h : locate c wa = .buffer b off) :
    off + 4 ≤ b.cap c := by
  simp only [locate] at h
  split_ifs at h
  · split at h <;> cases h
  all_goals exact bufferWindow_fits h

@[simp] theorem length_bytesOfWord (v : Word) : (bytesOfWord v).length = 4 := rfl

end Sys2Proof.Machine
end

section
/-! O29: the memory invariant through the shared operations, the commands, the host's accesses and the step. -/

namespace Sys2Proof.Machine

/-! ### Updates -/

/-- The invariant speaks of the parameters and the memory alone. -/
theorem State.MemInv.of_same {s t : State} (h : s.MemInv) (hcfg : t.cfg = s.cfg) (hmem : t.mem = s.mem) : t.MemInv where
  cfg := hcfg ▸ h.cfg
  canonical := hmem ▸ h.canonical
  placed := by rw [hcfg, hmem]; exact h.placed

/-- A run of bytes written within one buffer keeps the invariant. -/
theorem State.MemInv.of_writeBytes {s t : State} (h : s.MemInv) (b : Buffer) (off : Nat) (bytes : List Byte)
    (hfit : off + bytes.length ≤ b.cap s.cfg) (hcfg : t.cfg = s.cfg)
    (hmem : t.mem = s.mem.writeBytes (b.base + off) bytes) : t.MemInv where
  cfg := hcfg ▸ h.cfg
  canonical := hmem ▸ Memory.writeBytes_wf bytes _ h.canonical
  placed := by
    rw [hcfg, hmem]
    intro cell hc
    rcases Memory.mem_writeBytes bytes hc with ⟨hlo, hhi⟩ | hold
    · exact ⟨b, by omega, by omega⟩
    · exact h.placed cell hold

/-- Empty memory meets the invariant under legal parameters, so a reset event establishes it (R250). -/
theorem State.MemInv.resetEvent {s : State} (h : s.MemInv) : s.resetEvent.MemInv where
  cfg := h.cfg
  canonical := List.Pairwise.nil
  placed := fun _ hc => absurd hc List.not_mem_nil

theorem State.MemInv.commitStream {s : State} (h : s.MemInv) {bits : BitString}
    (hbits : bits.length ≤ 8 * s.cfg.capBbuf) : (s.commitStream bits).MemInv := by
  have hfit : (packedBytes bits).length ≤ s.cfg.capBbuf := by
    rw [length_packedBytes]; exact packedLen_le hbits (Buffer.cap_mod_four h.cfg .bbuf)
  exact h.of_writeBytes .bbuf 0 _ (by simpa [Buffer.cap] using hfit) rfl rfl

theorem State.MemInv.commitOutput {s : State} (h : s.MemInv) {out : List Byte} (hout : out.length ≤ s.cfg.capObuf) :
    (s.commitOutput out).MemInv := by
  have hfit : (paddedBytes out).length ≤ s.cfg.capObuf :=
    length_paddedBytes_le hout (Buffer.cap_mod_four h.cfg .obuf)
  exact h.of_writeBytes .obuf 0 _ (by simpa [Buffer.cap] using hfit) rfl rfl

/-! ### Commands -/

theorem opCount_meets_memInv {s : State} (h : s.MemInv) : (opCount s).Meets State.MemInv := by
  rcases opCount_cases s with ⟨-, ho⟩ | ⟨-, -, ho⟩ | ⟨bytes, -, -, ho⟩ <;> rw [ho]
  · exact h
  · trivial
  · exact h.of_same rfl rfl

theorem opBuild_meets_memInv {s : State} (h : s.MemInv) : (opBuild s).Meets State.MemInv := by
  rcases opBuild_cases s with ⟨v, -, ho⟩ | ⟨-, -, ho⟩ | ⟨-, -, ho⟩ <;> rw [ho]
  · exact h
  · exact h
  · exact h.of_same rfl rfl

theorem opCodes_meets_memInv {s : State} (h : s.MemInv) : (opCodes s).Meets State.MemInv := by
  rcases opCodes_cases s with ⟨-, ho⟩ | ⟨-, ho⟩ <;> rw [ho]
  · exact h
  · exact h.of_same rfl rfl

theorem opEncode_meets_memInv {s : State} (h : s.MemInv) : (opEncode s).Meets State.MemInv := by
  rcases opEncode_cases s with ⟨cause, info, ho⟩ | ho | ⟨-, ho⟩ | ⟨bits, -, -, -, -, hbits, ho⟩ <;> rw [ho]
  · exact h
  · trivial
  · exact h.of_same rfl rfl
  · exact h.commitStream hbits

theorem opDecode_meets_memInv {s : State} (h : s.MemInv) : (opDecode s).Meets State.MemInv := by
  rcases opDecode_cases s with ⟨cause, info, ho⟩ | ho | ⟨-, ho⟩ | ⟨bytes, out, -, -, -, -, -, hout, ho⟩ <;> rw [ho]
  · exact h
  · trivial
  · exact h.of_same rfl rfl
  · exact h.commitOutput hout

theorem opCompress_meets_memInv {s : State} (h : s.MemInv) : (opCompress s).Meets State.MemInv := by
  rcases opCompress_cases s with ⟨ho, -⟩ | ⟨ho, -⟩ | ⟨bytes, -, -, ⟨-, ho⟩ | ⟨-, ho⟩⟩ <;> rw [ho]
  · exact h
  · trivial
  · exact h.of_same rfl rfl
  · have hcount : ({ s with freq := countTable bytes } : State).MemInv := h.of_same rfl rfl
    exact ((opBuild_meets_memInv hcount).andThen fun _ => opCodes_meets_memInv).andThen fun _ => opEncode_meets_memInv

theorem decodePhase_meets_memInv (total : Nat) {s : State} (h : s.MemInv) :
    (decodePhase total s).Meets State.MemInv := by
  rcases decodePhase_cases total s with ⟨op, cause, info, ho, -⟩ | ho | ⟨bytes, out, -, -, -, -, hout, ho⟩ <;> rw [ho]
  · exact h
  · trivial
  · exact h.commitOutput hout

theorem opDecompress_meets_memInv {s : State} (h : s.MemInv) : (opDecompress s).Meets State.MemInv := by
  rcases opDecompress_cases s with ⟨cause, info, ho⟩ | ⟨-, -, ho⟩ | ⟨-, -, -, ho⟩ <;> rw [ho]
  · exact h
  · exact h.of_same rfl rfl
  · exact (opBuild_meets_memInv h).andThen fun _ => decodePhase_meets_memInv _

theorem opOf_meets_memInv (i : Instr) {s : State} (h : s.MemInv) : (opOf i s).Meets State.MemInv :=
  match i with
  | .nop => h
  | .count => opCount_meets_memInv h
  | .build => opBuild_meets_memInv h
  | .codes => opCodes_meets_memInv h
  | .encode => opEncode_meets_memInv h
  | .decode => opDecode_meets_memInv h
  | .compress => opCompress_meets_memInv h
  | .decompress => opDecompress_meets_memInv h
  | .clear => h.of_same rfl rfl

theorem exec_keeps_memInv {i : Instr} {s t : State} (h : s.MemInv) (he : exec i s = .next t) : t.MemInv :=
  (opOf_meets_memInv i h).of_complete (fun _ hs => hs.of_same rfl rfl) (fun _ _ _ _ hs => hs.of_same rfl rfl)
    (exec_eq_complete i s ▸ he)

theorem coreStep_keeps_memInv {s t : State} (h : s.MemInv) (hc : coreStep s = .next t) : t.MemInv := by
  rcases coreStep_cases s with ⟨i, -, he⟩ | ⟨-, he⟩ <;> rw [he] at hc
  · exact exec_keeps_memInv h hc
  · cases hc
    exact h.of_same rfl rfl

/-! ### Host accesses -/

theorem State.MemInv.protectedWrite {s w : State} (h : s.MemInv) (hw : w.MemInv) : (s.protectedWrite w).MemInv := by
  unfold State.protectedWrite
  split
  · exact h.of_same rfl rfl
  · exact hw

theorem State.MemInv.writeReg {s : State} (h : s.MemInv) (v : Word) (r : RegName) : (s.writeReg v r).MemInv := by
  cases r with
  | cmd | inLen | bitCnt => exact h.protectedWrite (h.of_same rfl rfl)
  | status | ctrl => exact h.of_same rfl rfl
  | _ => exact h

theorem State.MemInv.writeBuffer {s : State} (h : s.MemInv) {b : Buffer} {off : Nat} (v : Word)
    (hfit : off + 4 ≤ b.cap s.cfg) : (s.writeBuffer off v b).MemInv := by
  cases b with
  | ibuf => exact h.protectedWrite (h.of_writeBytes .ibuf off (bytesOfWord v) hfit rfl rfl)
  | bbuf => exact h.protectedWrite (h.of_writeBytes .bbuf off (bytesOfWord v) hfit rfl rfl)
  | obuf => exact h

theorem State.MemInv.busWrite {s : State} (h : s.MemInv) (wa : WordAddr) (v : Word) : (s.busWrite wa v).MemInv := by
  unfold State.busWrite
  split
  case h_1 r _ => exact h.writeReg v r
  case h_2 => exact h.protectedWrite (h.of_same rfl rfl)
  case h_5 hloc => exact h.writeBuffer v (locate_buffer_fits hloc)
  all_goals exact h

theorem State.MemInv.busDo {s : State} (h : s.MemInv) (txn : BusTxn) : (s.busDo txn).MemInv := by
  cases txn with
  | write wa v => exact h.busWrite wa v
  | read wa => exact h.of_same rfl rfl

theorem hostStep_keeps_memInv {s t : State} (h : s.MemInv) (hh : hostStep s = .next t) : t.MemInv := by
  have hadv : ∀ rest, (s.hostAdvance rest).MemInv := fun _ => h.of_same rfl rfl
  rcases hostStep_cases hh with ⟨-, rfl⟩ | ⟨op, rest, txn, -, -, rfl⟩ | ⟨rest, -, rfl⟩ | ⟨rest, -, rfl⟩ | ⟨rest, -, rfl⟩
  · exact h
  · exact (hadv rest).busDo txn
  · exact h.of_same rfl rfl
  · exact hadv _
  · exact (hadv rest).resetEvent

/-! ### The step -/

/-- Settles O29: the core's completion and the host's step each keep the invariant, since every run of bytes they write lies
within the capacity of one buffer. -/
theorem stepKeepsMemInv : Obligations.StepKeepsMemInv := by
  intro s t h hst
  obtain ⟨-, ⟨-, hcore⟩ | ⟨-, hhost⟩⟩ := step_cases hst
  · exact coreStep_keeps_memInv h hcore
  · exact hostStep_keeps_memInv h hhost

end Sys2Proof.Machine
end

section
/-! What the operations commit: each command's own writes, one constructor each, and every command as a run of such commits.
An invariant, or a field that a command keeps, is shown for the commits alone. -/

namespace Sys2Proof.Machine

/-- One commit, tagged with the command whose writes it makes (R124): the writes of a standalone command, or those that
COMPRESS and DECOMPRESS make of their own for an empty payload. -/
inductive Commit : Instr → State → State → Prop
  | count (s : State) (bytes : List Byte) : Commit .count s { s with freq := countTable bytes }
  | build (s : State) (hneg : firstNegative s.freq = none) (hsome : presentSymbols s.freq ≠ []) :
      Commit .build s
        (s.commitTree (presentSymbols s.freq).length (buildStore s.freq).1 (poolRoot (buildStore s.freq).2))
  | codes (s : State) (htree : s.status.treeValid = true) :
      Commit .codes s
        { s with
          ctab := codeTable (treeCodes s.nodes s.root)
          maxCodeLen := BitVec.ofNat 8 (maxLen (codeTable (treeCodes s.nodes s.root)))
          status := { s.status with ctabValid := true } }
  | encodeEmpty (s : State) : Commit .encode s { s with bitCnt := 0#32 }
  | encode (s : State) (bits : BitString) (hfit : bits.length ≤ 8 * s.cfg.capBbuf) :
      Commit .encode s (s.commitStream bits)
  | decodeEmpty (s : State) : Commit .decode s { s with outLen := 0#32 }
  | decode (s : State) (out : List Byte) (hfit : out.length ≤ s.cfg.capObuf) : Commit .decode s (s.commitOutput out)
  | compressEmpty (s : State) : Commit .compress s { s.invalidateTree with bitCnt := 0#32 }
  | decompressEmpty (s : State) : Commit .decompress s { s.invalidateTree with outLen := 0#32 }
  | clear (s : State) : Commit .clear s s.cleared

/-- The commands whose commits a command may make: its own and its sub-operations' (R200, R204). -/
def subOps : Instr → List Instr
  | .nop => []
  | .compress => [.compress, .count, .build, .codes, .encode]
  | .decompress => [.decompress, .build, .decode]
  | i => [i]

/-- What a command may have committed on the way from one state to another. -/
def Commits (i : Instr) : State → State → Prop :=
  Relation.ReflTransGen fun a b => ∃ j ∈ subOps i, Commit j a b

/-! ### Every operation is a run of commits -/

section
variable {i : Instr} {s₀ s : State}

theorem Commits.snoc {j : Instr} {t : State} (h : Commits i s₀ s) (hj : j ∈ subOps i) (hc : Commit j s t) :
    Commits i s₀ t :=
  Relation.ReflTransGen.tail h ⟨j, hj, hc⟩

theorem opBuild_commits (hi : .build ∈ subOps i) (h : Commits i s₀ s) : (opBuild s).Meets (Commits i s₀) := by
  rcases opBuild_cases s with ⟨v, -, ho⟩ | ⟨-, -, ho⟩ | ⟨hneg, hsome, ho⟩ <;> rw [ho]
  · exact h
  · exact h
  · exact h.snoc hi (.build s hneg hsome)

theorem opCodes_commits (hi : .codes ∈ subOps i) (h : Commits i s₀ s) : (opCodes s).Meets (Commits i s₀) := by
  rcases opCodes_cases s with ⟨-, ho⟩ | ⟨htree, ho⟩ <;> rw [ho]
  · exact h
  · exact h.snoc hi (.codes s htree)

theorem opEncode_commits (hi : .encode ∈ subOps i) (h : Commits i s₀ s) : (opEncode s).Meets (Commits i s₀) := by
  rcases opEncode_cases s with ⟨cause, info, ho⟩ | ho | ⟨-, ho⟩ | ⟨bits, -, -, -, -, hfit, ho⟩ <;> rw [ho]
  · exact h
  · trivial
  · exact h.snoc hi (.encodeEmpty s)
  · exact h.snoc hi (.encode s bits hfit)

theorem opCount_commits (s : State) : (opCount s).Meets (Commits .count s) := by
  rcases opCount_cases s with ⟨-, ho⟩ | ⟨-, -, ho⟩ | ⟨bytes, -, -, ho⟩ <;> rw [ho]
  · exact .refl
  · trivial
  · exact .single ⟨.count, by decide, .count s bytes⟩

theorem opDecode_commits (s : State) : (opDecode s).Meets (Commits .decode s) := by
  rcases opDecode_cases s with ⟨cause, info, ho⟩ | ho | ⟨-, ho⟩ | ⟨bytes, out, -, -, -, -, -, hfit, ho⟩ <;> rw [ho]
  · exact .refl
  · trivial
  · exact .single ⟨.decode, by decide, .decodeEmpty s⟩
  · exact .single ⟨.decode, by decide, .decode s out hfit⟩

theorem opCompress_commits (s : State) : (opCompress s).Meets (Commits .compress s) := by
  rcases opCompress_cases s with ⟨ho, -⟩ | ⟨ho, -⟩ | ⟨bytes, -, -, ⟨-, ho⟩ | ⟨-, ho⟩⟩ <;> rw [ho]
  · exact .refl
  · trivial
  all_goals
    have hcount : Commits .compress s { s with freq := countTable bytes } :=
      .single ⟨.count, by decide, .count s bytes⟩
  · exact hcount.snoc (by decide) (.compressEmpty _)
  · exact ((opBuild_commits (by decide) hcount).andThen fun _ => opCodes_commits (by decide)).andThen
      fun _ => opEncode_commits (by decide)

theorem decodePhase_commits (total : Nat) (h : Commits .decompress s₀ s) :
    (decodePhase total s).Meets (Commits .decompress s₀) := by
  rcases decodePhase_cases total s with ⟨op, cause, info, ho, -⟩ | ho | ⟨bytes, out, -, -, -, -, hfit, ho⟩ <;> rw [ho]
  · exact h
  · trivial
  · exact h.snoc (by decide) (.decode s out hfit)

theorem opDecompress_commits (s : State) : (opDecompress s).Meets (Commits .decompress s) := by
  rcases opDecompress_cases s with ⟨cause, info, ho⟩ | ⟨-, -, ho⟩ | ⟨-, -, -, ho⟩ <;> rw [ho]
  · exact .refl
  · exact .single ⟨.decompress, by decide, .decompressEmpty s⟩
  · exact (opBuild_commits (by decide) .refl).andThen fun _ => decodePhase_commits _

theorem opOf_commits (i : Instr) (s : State) : (opOf i s).Meets (Commits i s) :=
  match i with
  | .nop => .refl
  | .count => opCount_commits s
  | .build => opBuild_commits (by decide) .refl
  | .codes => opCodes_commits (by decide) .refl
  | .encode => opEncode_commits (by decide) .refl
  | .decode => opDecode_commits s
  | .compress => opCompress_commits s
  | .decompress => opDecompress_commits s
  | .clear => .single ⟨.clear, by decide, .clear s⟩

end

/-! ### What passes through a command -/

/-- A property that every commit keeps holds of what a command commits; what the two completions make of it holds of the
command's next state (R122, R125, R126). -/
theorem exec_preserves {P Q : State → Prop} {i : Instr} {s t : State}
    (hcommit : ∀ j ∈ subOps i, ∀ a b, Commit j a b → P a → P b) (hok : ∀ a, P a → Q a.completeOk)
    (herr : ∀ a op cause info, P a → Q (a.completeErr op cause info)) (hs : P s) (he : exec i s = .next t) : Q t := by
  have hP : ∀ a, Commits i s a → P a := by
    intro a ha
    induction ha with
    | refl => exact hs
    | tail _ hab ih =>
      obtain ⟨j, hj, hc⟩ := hab
      exact hcommit j hj _ _ hc ih
  have hmeets := opOf_commits i s
  rw [exec_eq_complete] at he
  rcases OpOut.complete_cases he with ⟨a, ho, rfl⟩ | ⟨a, op, cause, info, ho, rfl⟩ <;> rw [ho] at hmeets
  · exact hok a (hP a hmeets)
  · exact herr a op cause info (hP a hmeets)

/-- A part of the state that neither the command's commits nor a completion writes is kept by the command. -/
theorem exec_keeps {α : Type} (part : State → α) {i : Instr} {s t : State}
    (hcommit : ∀ j ∈ subOps i, ∀ a b, Commit j a b → part b = part a) (hok : ∀ a, part a.completeOk = part a)
    (herr : ∀ a op cause info, part (a.completeErr op cause info) = part a) (he : exec i s = .next t) :
    part t = part s :=
  exec_preserves (P := fun a => part a = part s) (Q := fun a => part a = part s)
    (fun j hj a b hc ha => (hcommit j hj a b hc).trans ha) (fun a ha => (hok a).trans ha)
    (fun a op cause info ha => (herr a op cause info).trans ha) rfl he

end Sys2Proof.Machine
end

section
/-! O28: the frame of every command, part by part. -/

namespace Sys2Proof.Machine

/-- The byte address lies outside BBUF and OBUF, the two buffers a command can write (R44 to R46). -/
def outsideCommandBuffers (c : Config) (a : Nat) : Prop :=
  (a < 0x200000 ∨ 0x200000 + c.capBbuf ≤ a) ∧ (a < 0x300000 ∨ 0x300000 + c.capObuf ≤ a)

/-- Under legal parameters no commit changes a byte outside BBUF and OBUF (R99, R186). -/
theorem Commit.keeps_outside {j : Instr} {a b : State} (h : Commit j a b) (hwf : a.cfg.wellFormed = true) {x : Nat}
    (hx : outsideCommandBuffers a.cfg x) : b.mem.read x = a.mem.read x := by
  obtain ⟨hb, ho⟩ := hx
  cases h with
  | encode _ bits hfit =>
    have hlen : (packedBytes bits).length ≤ a.cfg.capBbuf := by
      rw [length_packedBytes]; exact packedLen_le hfit (Buffer.cap_mod_four hwf .bbuf)
    exact Memory.read_writeBytes_outside _ _ (by simp only [Buffer.base]; omega)
  | decode _ out hfit =>
    have hlen := length_paddedBytes_le hfit (Buffer.cap_mod_four hwf .obuf)
    exact Memory.read_writeBytes_outside _ _ (by simp only [Buffer.base]; omega)
  | _ => rfl

/-- CTRL, the parameters, the fault mark and the host agent: what no commit and no completion writes. -/
def State.surroundings (s : State) : Bool × Config × Option Fault × List HostOp × List (WordAddr × Word) × Nat :=
  (s.irqEn, s.cfg, s.faultMark, s.host, s.busLog, s.draws)

theorem Commit.keeps_surroundings {j : Instr} {a b : State} (h : Commit j a b) : b.surroundings = a.surroundings := by
  cases h <;> rfl

theorem exec_keeps_surroundings {i : Instr} {s t : State} (he : exec i s = .next t) :
    t.surroundings = s.surroundings :=
  exec_keeps _ (fun _ _ _ _ hc => hc.keeps_surroundings) (fun _ => rfl) (fun _ _ _ _ => rfl) he

theorem exec_keeps_outside {i : Instr} {s t : State} (hwf : s.cfg.wellFormed = true) (he : exec i s = .next t) {x : Nat}
    (hx : outsideCommandBuffers s.cfg x) : t.mem.read x = s.mem.read x := by
  have hstep : ∀ j ∈ subOps i, ∀ a b, Commit j a b →
      a.cfg = s.cfg ∧ a.mem.read x = s.mem.read x → b.cfg = s.cfg ∧ b.mem.read x = s.mem.read x := by
    rintro j - a b hc ⟨hcfg, hmem⟩
    have hb : b.cfg = a.cfg := congrArg (·.2.1) hc.keeps_surroundings
    exact ⟨hb.trans hcfg, (hc.keeps_outside (hcfg ▸ hwf) (hcfg ▸ hx)).trans hmem⟩
  exact (exec_preserves (Q := fun a => a.cfg = s.cfg ∧ a.mem.read x = s.mem.read x) hstep (fun _ h => h)
    (fun _ _ _ _ h => h) ⟨rfl, rfl⟩ he).2

/-- NODE, the tree registers and TREE_VALID. -/
def State.treePart (s : State) : Vector Node 512 × BitVec 9 × BitVec 10 × NodeIx × NodeFreq × Bool :=
  (s.nodes, s.symCnt, s.nodeCnt, s.root, s.total, s.status.treeValid)

/-- CTAB, MAX_CODE_LEN and CTAB_VALID. -/
def State.codePart (s : State) : Vector CodeEntry 256 × Byte × Bool := (s.ctab, s.maxCodeLen, s.status.ctabValid)

/-! ### Which commits write which part -/

section
variable {j : Instr} {a b : State} (h : Commit j a b)
include h

theorem Commit.keeps_inLen (hj : j ∉ [.clear]) : b.inLen = a.inLen := by
  cases h with
  | clear => simp at hj
  | _ => rfl

theorem Commit.keeps_freq (hj : j ∉ [.count, .clear]) : b.freq = a.freq := by
  cases h with
  | count | clear => simp at hj
  | _ => rfl

theorem Commit.keeps_bitCnt (hj : j ∉ [.encode, .compress, .clear]) : b.bitCnt = a.bitCnt := by
  cases h with
  | encodeEmpty | encode | compressEmpty | clear => simp at hj
  | _ => rfl

theorem Commit.keeps_outLen (hj : j ∉ [.decode, .decompress, .clear]) : b.outLen = a.outLen := by
  cases h with
  | decodeEmpty | decode | decompressEmpty | clear => simp at hj
  | _ => rfl

theorem Commit.keeps_mem (hj : j ∉ [.encode, .decode]) : b.mem = a.mem := by
  cases h with
  | encodeEmpty | encode | decodeEmpty | decode => simp at hj
  | _ => rfl

theorem Commit.keeps_treePart (hj : j ∉ [.build, .compress, .decompress, .clear]) : b.treePart = a.treePart := by
  cases h with
  | build | compressEmpty | decompressEmpty | clear => simp at hj
  | _ => rfl

theorem Commit.keeps_codePart (hj : j ∉ [.build, .codes, .compress, .decompress, .clear]) : b.codePart = a.codePart := by
  cases h with
  | build | codes | compressEmpty | decompressEmpty | clear => simp at hj
  | _ => rfl

end

/-- A part of the state is kept by a command none of whose sub-operations is among the part's writers. -/
theorem exec_keeps_unwritten {α : Type} (part : State → α) {writers : List Instr} {i : Instr} {s t : State}
    (hcommit : ∀ {j a b}, Commit j a b → j ∉ writers → part b = part a) (hok : ∀ a, part a.completeOk = part a)
    (herr : ∀ a op cause info, part (a.completeErr op cause info) = part a) (hi : ∀ j ∈ subOps i, j ∉ writers)
    (he : exec i s = .next t) : part t = part s :=
  exec_keeps part (fun j hj _ _ hc => hcommit hc (hi j hj)) hok herr he

/-- Settles O28: each part is kept by every commit that the command's sub-operations may make, and by the completions. -/
theorem commandFrame : Obligations.CommandFrame := by
  intro i s t hwf he
  have hsur := exec_keeps_surroundings he
  simp only [State.surroundings, Prod.mk.injEq] at hsur
  obtain ⟨hirq, hcfg, hfault, hhost, hlog, hdraws⟩ := hsur
  refine ⟨hirq, hcfg, hfault, hhost, hlog, hdraws, fun x hb ho => exec_keeps_outside hwf he ⟨hb, ho⟩, ?_, ?_, ?_, ?_, ?_,
    ?_, ?_⟩
  · intro hi
    exact exec_keeps_unwritten State.inLen Commit.keeps_inLen (fun _ => rfl) (fun _ _ _ _ => rfl)
      (by revert hi; cases i <;> decide) he
  · intro hcount hcompress hclear
    exact exec_keeps_unwritten State.freq Commit.keeps_freq (fun _ => rfl) (fun _ _ _ _ => rfl)
      (by revert hcount hcompress hclear; cases i <;> decide) he
  · intro hencode hcompress hclear
    exact exec_keeps_unwritten State.bitCnt Commit.keeps_bitCnt (fun _ => rfl) (fun _ _ _ _ => rfl)
      (by revert hencode hcompress hclear; cases i <;> decide) he
  · intro hdecode hdecompress hclear
    exact exec_keeps_unwritten State.outLen Commit.keeps_outLen (fun _ => rfl) (fun _ _ _ _ => rfl)
      (by revert hdecode hdecompress hclear; cases i <;> decide) he
  · intro hencode hdecode hcompress hdecompress
    exact exec_keeps_unwritten State.mem Commit.keeps_mem (fun _ => rfl) (fun _ _ _ _ => rfl)
      (by revert hencode hdecode hcompress hdecompress; cases i <;> decide) he
  · intro hi
    simpa [State.treePart] using
      exec_keeps_unwritten State.treePart Commit.keeps_treePart (fun _ => rfl) (fun _ _ _ _ => rfl)
        (by rcases hi with rfl | rfl | rfl | rfl | rfl <;> decide) he
  · intro hi
    simpa [State.codePart] using
      exec_keeps_unwritten State.codePart Commit.keeps_codePart (fun _ => rfl) (fun _ _ _ _ => rfl)
        (by rcases hi with rfl | rfl | rfl | rfl <;> decide) he

end Sys2Proof.Machine
end

section
/-! The address map read backwards, and what a bus write can do (R63 to R74), once for every address. -/

namespace Sys2Proof.Machine

/-- The word offset of a register in the register page (R23). -/
def RegName.index : RegName → Nat
  | .id => 0
  | .cmd => 1
  | .status => 2
  | .ctrl => 3
  | .errCode => 4
  | .errInfo => 5
  | .inLen => 6
  | .bitCnt => 7
  | .outLen => 8
  | .symCnt => 9
  | .nodeCnt => 10
  | .root => 11
  | .totalLo => 12
  | .totalHi => 13
  | .maxCodeLen => 14
  | .capIbuf => 15
  | .capBbuf => 16
  | .capObuf => 17

/-- Offsets name registers one to one. -/
theorem index_of_regAt {k : Nat} {r : RegName} (h : regAt k = some r) : k = r.index := by
  unfold regAt at h
  split at h <;> cases h <;> rfl

@[simp] theorem locate_index (c : Config) (r : RegName) : locate c (BitVec.ofNat 20 r.index) = .reg r := by
  cases r <;> rfl

/-- A buffer's window answers that buffer's word at the offset, or reserved (R61, R68). -/
theorem bufferWindow_cases (c : Config) (b : Buffer) (off : Nat) :
    bufferWindow c b off = .buffer b off ∨ bufferWindow c b off = .reserved := by
  unfold bufferWindow
  split
  · exact .inl rfl
  · exact .inr rfl

/-- A word that the address map places at a register is at its offset (R23). -/
theorem locate_reg {c : Config} {wa : WordAddr} {r : RegName} (h : locate c wa = .reg r) :
    4 * wa.toNat = 4 * r.index := by
  have hwin : ∀ b off, bufferWindow c b off ≠ .reg r := fun b off hb => by
    rcases bufferWindow_cases c b off with hw | hw <;> rw [hw] at hb <;> cases hb
  simp only [locate] at h
  split_ifs at h
  · split at h
    · rename_i hr
      cases h
      have := index_of_regAt hr
      omega
    · cases h
  all_goals exact absurd h (hwin _ _)

/-- A word that the address map places in FREQ is at its entry's offset (R71). -/
theorem locate_freq {c : Config} {wa : WordAddr} {v : Byte} (h : locate c wa = .freq v) :
    0x400 ≤ 4 * wa.toNat ∧ 4 * wa.toNat < 0x800 := by
  have hwin : ∀ b off, bufferWindow c b off ≠ .freq v := fun b off hb => by
    rcases bufferWindow_cases c b off with hw | hw <;> rw [hw] at hb <;> cases hb
  simp only [locate] at h
  split_ifs at h
  · split at h <;> cases h
  · omega
  all_goals exact absurd h (hwin _ _)

/-- A word that the address map places in a buffer is at its offset from the buffer's base (R61). -/
theorem locate_buffer {c : Config} {wa : WordAddr} {b : Buffer} {off : Nat} (h : locate c wa = .buffer b off) :
    4 * wa.toNat = b.base + off := by
  have hwin : ∀ w x, bufferWindow c w x = .buffer b off → b = w ∧ off = x := fun w x hb => by
    rcases bufferWindow_cases c w x with hw | hw <;> rw [hw] at hb <;> cases hb
    exact ⟨rfl, rfl⟩
  simp only [locate] at h
  split_ifs at h
  · split at h <;> cases h
  all_goals
    obtain ⟨hb, hoff⟩ := hwin _ _ h
    subst hb
    simp only [Buffer.base]
    omega

/-- Entry v of FREQ is at its offset (R71). -/
theorem locate_freqAddr (c : Config) (v : Byte) : locate c (BitVec.ofNat 20 (0x100 + v.toNat)) = .freq v := by
  have hv := v.isLt
  have hwa : (BitVec.ofNat 20 (0x100 + v.toNat)).toNat = 0x100 + v.toNat := by
    rw [BitVec.toNat_ofNat]; omega
  simp only [locate, hwa]
  rw [if_neg (by omega), if_pos (by omega), show (4 * (0x100 + v.toNat) - 0x400) / 4 = v.toNat by omega,
    BitVec.ofNat_toNat, BitVec.setWidth_eq]

/-- What a bus write does to the state: the address it acts at, where it acts, and the resulting state. -/
inductive BusEffect (s : State) (wa : WordAddr) (v : Word) : State → Prop
  | ignored : BusEffect s wa v s
  | dropped (hbusy : s.status.busy = true) (haddr : isProtectedAddr s.cfg (4 * wa.toNat)) :
      BusEffect s wa v { s with status := { s.status with ovr := true } }
  | accepted (hidle : s.status.busy = false) (haddr : 4 * wa.toNat = 0x4) :
      BusEffect s wa v { s.accept v (Config.latency s.draws) with draws := s.draws + 1 }
  | status (haddr : 4 * wa.toNat = 0x8) : BusEffect s wa v { s with status := s.status.writeOneToClear v }
  | ctrl (haddr : 4 * wa.toNat = 0xC) : BusEffect s wa v { s with irqEn := v.getLsbD 0 }
  | inLen (hidle : s.status.busy = false) (haddr : 4 * wa.toNat = 0x18) : BusEffect s wa v { s with inLen := v }
  | bitCnt (hidle : s.status.busy = false) (haddr : 4 * wa.toNat = 0x1C) : BusEffect s wa v { s with bitCnt := v }
  | freq (x : Byte) (hidle : s.status.busy = false) (haddr : 0x400 ≤ 4 * wa.toNat ∧ 4 * wa.toNat < 0x800) :
      BusEffect s wa v { s with freq := s.freq.set x.toNat v x.isLt }
  | buffer (hidle : s.status.busy = false) (haddr : 0x100000 ≤ 4 * wa.toNat) :
      BusEffect s wa v { s with mem := s.mem.writeBytes (4 * wa.toNat) (bytesOfWord v) }

/-- A protected write is dropped with OVR set while a command is in flight, and else is the write (R74). -/
theorem BusEffect.protectedWrite {s w : State} {wa : WordAddr} {v : Word}
    (haddr : isProtectedAddr s.cfg (4 * wa.toNat)) (hw : s.status.busy = false → BusEffect s wa v w) :
    BusEffect s wa v (s.protectedWrite w) := by
  unfold State.protectedWrite
  cases hbusy : s.status.busy with
  | true => exact .dropped hbusy haddr
  | false => exact hw hbusy

theorem writeReg_effect {s : State} {wa : WordAddr} {r : RegName} (v : Word) (h : locate s.cfg wa = .reg r) :
    BusEffect s wa v (s.writeReg v r) := by
  have haddr := locate_reg h
  cases r with
  | cmd => exact .protectedWrite (.inl haddr) fun hidle => .accepted hidle haddr
  | status => exact .status haddr
  | ctrl => exact .ctrl haddr
  | inLen => exact .protectedWrite (.inr (.inl haddr)) fun hidle => .inLen hidle haddr
  | bitCnt => exact .protectedWrite (.inr (.inr (.inl haddr))) fun hidle => .bitCnt hidle haddr
  | _ => exact .ignored

theorem writeBuffer_effect {s : State} {wa : WordAddr} {b : Buffer} {off : Nat} (v : Word)
    (h : locate s.cfg wa = .buffer b off) : BusEffect s wa v (s.writeBuffer off v b) := by
  have haddr := locate_buffer h
  have hfit := locate_buffer_fits h
  cases b with
  | obuf => exact .ignored
  | ibuf | bbuf =>
    simp only [Buffer.base, Buffer.cap] at haddr hfit
    refine .protectedWrite (by omega) fun hidle => ?_
    simp only [Buffer.base, ← haddr]
    exact .buffer hidle (by omega)

/-- What a bus write can do (R63 to R65, R69, R71 to R74). -/
theorem busWrite_effect (s : State) (wa : WordAddr) (v : Word) : BusEffect s wa v (s.busWrite wa v) := by
  unfold State.busWrite
  split
  case h_1 r hloc => exact writeReg_effect v hloc
  case h_2 x hloc =>
    have haddr := locate_freq hloc
    exact .protectedWrite (.inr (.inr (.inr (.inl haddr)))) fun hidle => .freq x hidle haddr
  case h_5 hloc => exact writeBuffer_effect v hloc
  all_goals exact .ignored

/-! ### Register reads and writes -/

theorem busWrite_reg (s : State) (r : RegName) (v : Word) :
    s.busWrite (BitVec.ofNat 20 r.index) v = s.writeReg v r := by
  simp [State.busWrite]

theorem busRead_reg (s : State) (r : RegName) (h : s.status.busy = false) :
    s.busRead (BitVec.ofNat 20 r.index) = s.regWord r := by
  simp [State.busRead, State.readIdle, h]

/-- ERR_CODE as the union of its shifted fields (R33). -/
theorem errCodeWord_eq_or (op code : Byte) :
    errCodeWord op code = code.setWidth 32 ||| (op.setWidth 32 <<< 8) := by
  have hop := op.isLt
  have hcode := code.isLt
  apply BitVec.eq_of_toNat_eq
  rw [errCodeWord_toNat, BitVec.toNat_or, BitVec.toNat_shiftLeft, BitVec.toNat_setWidth, BitVec.toNat_setWidth,
    Nat.mod_eq_of_lt (by omega : code.toNat < 2 ^ 32), Nat.mod_eq_of_lt (by omega : op.toNat < 2 ^ 32), Nat.or_comm,
    Nat.shiftLeft_eq, Nat.mod_eq_of_lt (by omega), ← Nat.shiftLeft_eq, ← Nat.shiftLeft_add_eq_or_of_lt hcode,
    Nat.shiftLeft_eq]

/-- TOTAL_HI is the top eight bits of TOTAL, zero-extended (R39). -/
theorem totalHi_eq_shift (x : NodeFreq) : (0#24 ++ x.extractLsb' 32 8 : Word) = (x >>> 32).setWidth 32 := by
  have hx := x.isLt
  have hhigh : (0#24 ++ x.extractLsb' 32 8 : BitVec (24 + 8)).toNat = x.toNat / 2 ^ 32 := by
    rw [BitVec.toNat_append, BitVec.extractLsb'_toNat, Nat.shiftRight_eq_div_pow,
      Nat.mod_eq_of_lt (Nat.div_lt_of_lt_mul (by simpa using hx))]
    simp
  apply BitVec.eq_of_toNat_eq
  rw [BitVec.toNat_setWidth, BitVec.toNat_ushiftRight, Nat.shiftRight_eq_div_pow]
  exact hhigh.trans (Nat.mod_eq_of_lt (by omega)).symm

/-- Settles O13: each register's word, read through the address map at its offset. -/
theorem registerMapReads : Obligations.RegisterMapReads := by
  intro s h
  refine ⟨busRead_reg s .id h, busRead_reg s .cmd h, busRead_reg s .status h, ?_, ?_, busRead_reg s .errInfo h,
    busRead_reg s .inLen h, busRead_reg s .bitCnt h, busRead_reg s .outLen h, busRead_reg s .symCnt h,
    busRead_reg s .nodeCnt h, busRead_reg s .root h, ?_, ?_, busRead_reg s .maxCodeLen h, busRead_reg s .capIbuf h,
    busRead_reg s .capBbuf h, busRead_reg s .capObuf h⟩
  · exact busRead_reg s .ctrl h
  · exact (busRead_reg s .errCode h).trans (errCodeWord_eq_or _ _)
  · exact (busRead_reg s .totalLo h).trans (BitVec.setWidth_eq_extractLsb' (by decide)).symm
  · exact (busRead_reg s .totalHi h).trans (totalHi_eq_shift _)

/-! ### STATUS -/

theorem getLsbD_flagBit (b : Bool) {j : Nat} (hj : j < 32) (k : Nat) :
    (flagBit b j).getLsbD k = (b && decide (k = j)) := by
  cases b with
  | false => simp [flagBit]
  | true =>
    simp only [flagBit, if_true, BitVec.getLsbD_ofNat, Nat.testBit_two_pow, Bool.true_and]
    by_cases hk : k = j
    · subst hk; simp [hj]
    · simp [hk, Ne.symm hk]

/-- STATUS bit by bit (R26). -/
theorem getLsbD_toWord (st : Status) (k : Nat) :
    st.toWord.getLsbD k =
      (match k with
        | 0 => st.busy
        | 1 => st.done
        | 2 => st.err
        | 3 => st.ovr
        | 4 => st.treeValid
        | 5 => st.ctabValid
        | _ => false) := by
  simp (disch := decide) only [Status.toWord, BitVec.getLsbD_or, getLsbD_flagBit]
  rcases k with _ | _ | _ | _ | _ | _ | k <;> simp

/-- Settles O14: STATUS bit by bit, and the W1C write, whose location is the STATUS register. -/
theorem statusBitsAndIrq : Obligations.StatusBitsAndIrq := by
  intro s v k
  have hw : s.busWrite 0x02#20 v = { s with status := s.status.writeOneToClear v } := busWrite_reg s .status v
  refine ⟨getLsbD_toWord s.status k, ?_, by rw [hw], by simp [State.irq]⟩
  rw [hw, getLsbD_toWord, getLsbD_toWord]
  rcases k with _ | _ | _ | _ | _ | _ | k <;> simp [Status.writeOneToClear]

/-! ### Writes while idle -/

/-- Settles O21: CTRL, IN_LEN, BIT_CNT and FREQ by their places in the address map; no effect of a bus write acts at a read-only
address. -/
theorem idleWrites : Obligations.IdleWrites := by
  intro s x v wa hidle
  refine ⟨busWrite_reg s .ctrl x, ?_, ?_, ?_, ?_⟩
  · refine (busWrite_reg s .inLen x).trans ?_
    simp [State.writeReg, State.protectedWrite, hidle]
  · refine (busWrite_reg s .bitCnt x).trans ?_
    simp [State.writeReg, State.protectedWrite, hidle]
  · rintro t rfl
    have hw : s.busWrite (BitVec.ofNat 20 (0x100 + v.toNat)) x = { s with freq := s.freq.set v.toNat x v.isLt } := by
      simp [State.busWrite, locate_freqAddr, State.protectedWrite, hidle]
    rw [hw]
    refine ⟨rfl, by simp [entryAt_set], fun u hu => by simp [entryAt_set, hu.symm]⟩
  · intro hro
    have heff := busWrite_effect s wa x
    generalize s.busWrite wa x = t at heff
    cases heff with
    | ignored => rfl
    | _ => omega

end Sys2Proof.Machine
end

section
/-! How a property of states passes through the host's step and the whole step; and the invariants and flags that need no
more than that: O9, O10, O24, O30, O33. -/

namespace Sys2Proof.Machine

/-- A host line that spells a write is an aligned four-byte `WR` of that word (R64, R105). -/
theorem eq_wr_of_transaction {op : HostOp} {wa : WordAddr} {v : Word} (h : op.transaction = some (.write wa v)) :
    ∃ a : Addr, op = .wr a 4 v ∧ a.toNat = 4 * wa.toNat := by
  cases op with
  | wr addr width value =>
    simp only [HostOp.transaction, accessWellFormed, Bool.and_eq_true, beq_iff_eq] at h
    split at h
    · rename_i hwf
      obtain ⟨rfl, halign⟩ := hwf
      cases h
      have hlt := addr.isLt
      refine ⟨addr, rfl, ?_⟩
      rw [wordAddrOf, BitVec.extractLsb'_toNat, Nat.shiftRight_eq_div_pow, Nat.mod_eq_of_lt (by omega)]
      omega
    · cases h
  | rd addr width =>
    simp only [HostOp.transaction] at h
    split at h <;> cases h
  | _ => cases h

/-- What a host step does: nothing of the block's but in a write or the reset event, or a write's effect. -/
theorem hostStep_block_cases {s t : State} (h : hostStep s = .next t) :
    t = s ∨ (∃ rest, t = s.hostAdvance rest) ∨ (∃ rest wa, t = (s.hostAdvance rest).hostRead wa) ∨
      (∃ (rest : List HostOp) (a : Addr) (wa : WordAddr) (v : Word), s.host = .wr a 4 v :: rest ∧ a.toNat = 4 * wa.toNat ∧
        BusEffect (s.hostAdvance rest) wa v t) ∨
      ∃ rest, s.host = .rst :: rest ∧ t = (s.hostAdvance rest).resetEvent := by
  rcases hostStep_cases h with
    ⟨-, rfl⟩ | ⟨op, rest, txn, hhost, htx, rfl⟩ | ⟨rest, -, rfl⟩ | ⟨rest, -, rfl⟩ | ⟨rest, hhost, rfl⟩
  · exact .inl rfl
  · cases txn with
    | read wa => exact .inr (.inr (.inl ⟨rest, wa, rfl⟩))
    | write wa v =>
      obtain ⟨a, rfl, ha⟩ := eq_wr_of_transaction htx
      exact .inr (.inr (.inr (.inl ⟨rest, a, wa, v, hhost, ha, busWrite_effect _ wa v⟩)))
  · exact .inr (.inr (.inl ⟨_, _, rfl⟩))
  · exact .inr (.inl ⟨_, rfl⟩)
  · exact .inr (.inr (.inr (.inr ⟨rest, hhost, rfl⟩)))

/-- A property that the host's moves, a bus write's effects and the reset event keep is kept by every host step. -/
theorem hostStep_preserves {P : State → Prop} {s t : State} (hadvance : ∀ a rest, P a → P (a.hostAdvance rest))
    (hread : ∀ a wa, P a → P (a.hostRead wa)) (hwrite : ∀ a wa v b, BusEffect a wa v b → P a → P b)
    (hreset : ∀ a, P a → P a.resetEvent) (hs : P s) (h : hostStep s = .next t) : P t := by
  rcases hostStep_block_cases h with
    rfl | ⟨rest, rfl⟩ | ⟨rest, wa, rfl⟩ | ⟨rest, a, wa, v, -, -, heff⟩ | ⟨rest, -, rfl⟩
  · exact hs
  · exact hadvance s rest hs
  · exact hread _ wa (hadvance s rest hs)
  · exact hwrite _ wa v t heff (hadvance s rest hs)
  · exact hreset _ (hadvance s rest hs)

/-- A property that the commits, the completions, and the host's moves and writes keep, and the reset event too, is kept by
every step. -/
theorem step_preserves {P : State → Prop} {s t : State} (hcommit : ∀ j a b, Commit j a b → P a → P b)
    (hok : ∀ a, P a → P a.completeOk) (herr : ∀ a op cause info, P a → P (a.completeErr op cause info))
    (hadvance : ∀ a rest, P a → P (a.hostAdvance rest)) (hread : ∀ a wa, P a → P (a.hostRead wa))
    (hwrite : ∀ a wa v b, BusEffect a wa v b → P a → P b) (hreset : ∀ a, P a → P a.resetEvent)
    (hs : P s) (h : step s = .next t) : P t := by
  obtain ⟨-, ⟨-, hcore⟩ | ⟨-, hhost⟩⟩ := step_cases h
  · rcases coreStep_cases s with ⟨i, -, he⟩ | ⟨-, he⟩ <;> rw [he] at hcore
    · exact exec_preserves (fun j _ => hcommit j) hok herr hs hcore
    · cases hcore
      exact herr s _ _ _ hs
  · exact hostStep_preserves hadvance hread hwrite hreset hs hhost

/-! ### BUSY and OVR -/

/-- Settles O9: of a bus write's effects only the accept touches BUSY, and it sets it. -/
theorem busyChangesOnlyByAcceptCompletionReset : Obligations.BusyChangesOnlyByAcceptCompletionReset := by
  intro s t h
  obtain ⟨-, ⟨hturn, hcore⟩ | ⟨hturn, hhost⟩⟩ := step_cases h
  · refine ⟨fun hidle => ?_, fun _ _ => .inl hturn⟩
    simp [turn_core_busy hturn] at hidle
  · rcases hostStep_block_cases hhost with
      rfl | ⟨rest, rfl⟩ | ⟨rest, wa, rfl⟩ | ⟨rest, a, wa, v, hline, ha, heff⟩ | ⟨rest, hline, rfl⟩
    · simp +contextual
    · simp +contextual
    · simp +contextual
    · cases heff with
      | accepted hidle haddr =>
        have ha4 : a = 0x000004#22 := BitVec.eq_of_toNat_eq (ha.trans haddr)
        exact ⟨fun _ _ => ⟨v, rest, ha4 ▸ hline⟩, fun _ hb => by cases hb⟩
      | _ => simp +contextual [Status.writeOneToClear]
    · exact ⟨fun _ hb => (by cases hb), fun _ _ => .inr ⟨rest, hline⟩⟩

theorem coreStep_keeps_ovr {s t : State} (h : coreStep s = .next t) : t.status.ovr = s.status.ovr := by
  rcases coreStep_cases s with ⟨i, -, he⟩ | ⟨-, he⟩ <;> rw [he] at h
  · exact exec_keeps (fun a => a.status.ovr) (fun _ _ _ _ hc => by cases hc <;> rfl) (fun _ => rfl)
      (fun _ _ _ _ => rfl) h
  · cases h
    rfl

/-- Settles O10: of a bus write's effects only a dropped write sets OVR and only the W1C write clears it; no commit and no
completion touches it. -/
theorem ovrIsSticky : Obligations.OvrIsSticky := by
  intro s t h
  obtain ⟨-, ⟨-, hcore⟩ | ⟨-, hhost⟩⟩ := step_cases h
  · simp +contextual [coreStep_keeps_ovr hcore]
  · rcases hostStep_block_cases hhost with
      rfl | ⟨rest, rfl⟩ | ⟨rest, wa, rfl⟩ | ⟨rest, a, wa, v, hline, ha, heff⟩ | ⟨rest, hline, rfl⟩
    · simp +contextual
    · simp +contextual
    · simp +contextual
    · cases heff with
      | dropped hbusy haddr =>
        exact ⟨fun _ _ => ⟨hbusy, a, v, rest, hline, ha ▸ haddr⟩, fun _ ht => by cases ht⟩
      | status haddr =>
        have ha8 : a = 0x000008#22 := BitVec.eq_of_toNat_eq (ha.trans haddr)
        subst ha8
        refine ⟨fun h0 h1 => ?_, fun h1 h0 => .inl ⟨v, rest, hline, ?_⟩⟩ <;> simp_all [Status.writeOneToClear]
      | _ => simp +contextual
    · exact ⟨fun _ ht => (by cases ht), fun _ _ => .inr ⟨rest, hline⟩⟩

/-! ### The life of a command -/

/-- The same flags BUSY, DONE and ERR, error record and PENDING: with the delay, all that the life of a command is about. -/
structure State.SameLife (s t : State) : Prop where
  busy : t.status.busy = s.status.busy
  done : t.status.done = s.status.done
  err : t.status.err = s.status.err
  errCode : t.errCode = s.errCode
  errOp : t.errOp = s.errOp
  errInfo : t.errInfo = s.errInfo
  pending : t.pending = s.pending

theorem Commit.sameLife {j : Instr} {a b : State} (h : Commit j a b) : a.SameLife b := by
  cases h <;> exact ⟨rfl, rfl, rfl, rfl, rfl, rfl, rfl⟩

/-- The invariant speaks of those fields alone, and of the delay while idle. -/
theorem State.LifeInv.of_same {s t : State} (h : s.LifeInv) (hsame : s.SameLife t) (hdelay : t.delay ≤ s.delay) :
    t.LifeInv := by
  obtain ⟨hbusy, hdone, herr, hcode, hop, hinfo, hpending⟩ := hsame
  refine ⟨?_, ?_, ?_, ?_, ?_⟩
  · intro hidle
    obtain ⟨hp, hd⟩ := h.idle (hbusy ▸ hidle)
    exact ⟨hpending.trans hp, by omega⟩
  · rw [hbusy, hdone, herr, hcode]; exact h.inFlight
  · rw [herr, hcode]; exact h.errHasCode
  · rw [hcode, hop, hinfo]; exact h.noCodeNoRecord
  · rw [hcode]; exact h.codeRange

theorem State.LifeInv.completeOk {s : State} (h : s.LifeInv) (hbusy : s.status.busy = true) : s.completeOk.LifeInv where
  idle _ := ⟨rfl, rfl⟩
  inFlight hb := by cases hb
  errHasCode herr := absurd herr (by simp [(h.inFlight hbusy).2.1])
  noCodeNoRecord := h.noCodeNoRecord
  codeRange := h.codeRange

theorem completeErr_lifeInv (s : State) (op : Byte) (cause : ErrCause) (info : Word) :
    (s.completeErr op cause info).LifeInv := by
  obtain ⟨hpos, hle⟩ := cause.code_range
  have hne : cause.code ≠ 0#8 := fun h0 => by simp [h0] at hpos
  exact
    { idle := fun _ => ⟨rfl, rfl⟩
      inFlight := fun hb => by cases hb
      errHasCode := fun _ => hne
      noCodeNoRecord := fun h0 => absurd h0 hne
      codeRange := hle }

theorem State.LifeInv.busEffect {s t : State} {wa : WordAddr} {v : Word} (h : s.LifeInv) (he : BusEffect s wa v t) :
    t.LifeInv := by
  cases he with
  | accepted =>
    exact
      { idle := fun hb => by cases hb
        inFlight := fun _ => ⟨rfl, rfl, rfl⟩
        errHasCode := fun hb => by cases hb
        noCodeNoRecord := fun _ => ⟨rfl, rfl⟩
        codeRange := Nat.zero_le 11 }
  | status =>
    exact
      { idle := h.idle
        inFlight := fun hb => by
          obtain ⟨hdone, herr, hcode⟩ := h.inFlight hb
          exact ⟨by simp [Status.writeOneToClear, hdone], by simp [Status.writeOneToClear, herr], hcode⟩
        errHasCode := fun hb => h.errHasCode (Bool.and_eq_true _ _ ▸ hb).1
        noCodeNoRecord := h.noCodeNoRecord
        codeRange := h.codeRange }
  | _ => exact h.of_same ⟨rfl, rfl, rfl, rfl, rfl, rfl, rfl⟩ (Nat.le_refl _)

theorem resetWith_lifeInv (c : Config) : (State.resetWith c).LifeInv where
  idle _ := ⟨rfl, rfl⟩
  inFlight hb := by cases hb
  errHasCode hb := by cases hb
  noCodeNoRecord _ := ⟨rfl, rfl⟩
  codeRange := Nat.zero_le 11

theorem coreStep_keeps_lifeInv {s t : State} (h : s.LifeInv) (hbusy : s.status.busy = true)
    (hc : coreStep s = .next t) : t.LifeInv := by
  rcases coreStep_cases s with ⟨i, -, he⟩ | ⟨-, he⟩ <;> rw [he] at hc
  · refine exec_preserves (P := fun a => a.LifeInv ∧ a.status.busy = true) ?_ (fun a ha => ha.1.completeOk ha.2)
      (fun a op cause info _ => completeErr_lifeInv a op cause info) ⟨h, hbusy⟩ hc
    rintro j - a b hcommit ⟨ha, hab⟩
    have hsame := hcommit.sameLife
    exact ⟨ha.of_same hsame (by cases hcommit <;> exact Nat.le_refl _), hsame.busy.trans hab⟩
  · cases hc
    exact completeErr_lifeInv _ _ _ _

/-- Settles O30: commits leave the fields alone, the core moves only in flight, and the host's accept, W1C write and reset
event each keep the record consistent. -/
theorem stepKeepsLifeInv : Obligations.StepKeepsLifeInv := by
  intro s t h hst
  obtain ⟨-, ⟨hturn, hcore⟩ | ⟨-, hhost⟩⟩ := step_cases hst
  · exact coreStep_keeps_lifeInv h (turn_core_busy hturn) hcore
  · refine hostStep_preserves ?_ ?_ (fun a wa v b he ha => ha.busEffect he) ?_ h hhost
    · exact fun a rest ha => ha.of_same ⟨rfl, rfl, rfl, rfl, rfl, rfl, rfl⟩ (Nat.sub_le _ _)
    · exact fun a wa ha => ha.of_same ⟨rfl, rfl, rfl, rfl, rfl, rfl, rfl⟩ (Nat.le_refl _)
    · exact fun a _ => (resetWith_lifeInv a.cfg).of_same ⟨rfl, rfl, rfl, rfl, rfl, rfl, rfl⟩ (Nat.le_refl _)

/-! ### Output -/

/-- A byte that holds a value still holds one after a run of writes. -/
theorem Memory.written_writeBytes {m : Memory} {x : Nat} (a : Nat) (bs : List Byte) (h : ∃ b, m.read x = some b) :
    ∃ b, (m.writeBytes a bs).read x = some b := by
  rw [Memory.read_writeBytes]
  split
  · exact ⟨_, List.getElem?_eq_getElem (by omega)⟩
  · exact h

theorem State.OutInv.of_same {s t : State} (h : s.OutInv) (hcfg : t.cfg = s.cfg) (hlen : t.outLen = s.outLen)
    (hmem : ∀ x, (∃ b, s.mem.read x = some b) → ∃ b, t.mem.read x = some b) : t.OutInv where
  fits := by rw [hcfg, hlen]; exact h.fits
  written := by rw [hlen]; exact fun i hi => hmem _ (h.written i hi)

/-- With OUT_LEN = 0 no byte of OBUF is meaningful. -/
theorem outInv_of_outLen_zero {s : State} (h : s.outLen = 0#32) : s.OutInv where
  fits := by simp [h]
  written := by simp [h]

/-- DECODE's commit writes every meaningful byte, whatever was there (R186). -/
theorem commitOutput_outInv {s : State} {out : List Byte} (h : out.length ≤ s.cfg.capObuf) :
    (s.commitOutput out).OutInv := by
  have hle : (s.commitOutput out).outLen.toNat ≤ out.length := by
    simpa using Nat.mod_le _ _
  refine ⟨hle.trans h, fun i hi => ⟨_, Memory.read_writeBytes_inside _ _ _ i ?_⟩⟩
  rw [length_paddedBytes, ceilDiv]
  omega

theorem Commit.keeps_outInv {j : Instr} {a b : State} (hc : Commit j a b) (h : a.OutInv) : b.OutInv := by
  cases hc with
  | encode => exact h.of_same rfl rfl fun _ => Memory.written_writeBytes _ _
  | decode _ out hfit => exact commitOutput_outInv hfit
  | decodeEmpty | decompressEmpty | clear => exact outInv_of_outLen_zero rfl
  | _ => exact h.of_same rfl rfl fun _ hx => hx

theorem State.OutInv.busEffect {s t : State} {wa : WordAddr} {v : Word} (h : s.OutInv) (he : BusEffect s wa v t) :
    t.OutInv := by
  cases he with
  | buffer => exact h.of_same rfl rfl fun _ => Memory.written_writeBytes _ _
  | _ => exact h.of_same rfl rfl fun _ hx => hx

/-- Settles O33: bytes once written stay written, and only DECODE's commit sets OUT_LEN to more than 0. -/
theorem stepKeepsOutInv : Obligations.StepKeepsOutInv := by
  intro s t h hst
  exact step_preserves (fun _ _ _ hc ha => hc.keeps_outInv ha) (fun _ ha => ha.of_same rfl rfl fun _ hx => hx)
    (fun _ _ _ _ ha => ha.of_same rfl rfl fun _ hx => hx) (fun _ _ ha => ha.of_same rfl rfl fun _ hx => hx)
    (fun _ _ ha => ha.of_same rfl rfl fun _ hx => hx) (fun _ _ _ _ he ha => ha.busEffect he)
    (fun _ _ => outInv_of_outLen_zero rfl) h hst

/-! ### Reset -/

/-- The all-zero entry reads as zero words (R51, R101). -/
theorem Node.word_zero (w : BitVec 2) : Node.zero.word w = 0#32 := by
  revert w; decide

/-- Settles O24: the record of reset values, and the entries of its tables. -/
theorem resetValues : Obligations.ResetValues := by
  refine ⟨rfl, rfl, rfl, rfl, rfl, rfl, rfl, rfl, rfl, rfl, rfl, rfl, rfl, rfl, ?_, ?_, ?_, fun _ _ => rfl, rfl, rfl, rfl,
    rfl⟩
  · exact entryAt_replicate 0#32
  · intro i w
    rw [show nodeAt State.reset.nodes i = Node.zero from nodeAt_replicate _ i, Node.word_zero]
  · intro v w
    rw [show entryAt State.reset.ctab v = none from entryAt_replicate _ v, codeWord]

end Sys2Proof.Machine
end

section
/-! The merges of BUILD (R150, R153 to R155): what one merge does, the invariant that all merges keep, and the tree that the
last one leaves. -/

namespace Sys2Proof.Machine

/-! ### The scratch store and the pool -/

/-- Node i of a scratch store; the all-zero entry beyond its end (R150). -/
def storeAt (store : List Node) (i : Nat) : Node := store.getD i Node.zero

theorem storeAt_append_of_lt {store : List Node} {i : Nat} (x : Node) (h : i < store.length) :
    storeAt (store ++ [x]) i = storeAt store i := by
  simp [storeAt, List.getD_eq_getElem?_getD, List.getElem?_append_left h]

theorem storeAt_append_length (store : List Node) (x : Node) : storeAt (store ++ [x]) store.length = x := by
  simp [storeAt]

theorem storeAt_of_length_le {store : List Node} {i : Nat} (h : store.length ≤ i) : storeAt store i = Node.zero := by
  simp [storeAt, List.getD_eq_getElem?_getD, List.getElem?_eq_none h]

/-- Node c of a scratch store is a child of node p. -/
def storeChild (store : List Node) (p c : Nat) : Prop :=
  ∃ f l r, storeAt store p = .internal f l r ∧ (l.toNat = c ∨ r.toNat = c)

theorem storeChild_lt_length {store : List Node} {p c : Nat} (h : storeChild store p c) : p < store.length := by
  obtain ⟨f, l, r, hp, -⟩ := h
  by_contra hlt
  rw [storeAt_of_length_le (by omega)] at hp
  cases hp

/-- A new last node brings its own children and takes none away. -/
theorem storeChild_append {store : List Node} {f : NodeFreq} {l r : NodeIx} {p c : Nat} :
    storeChild (store ++ [.internal f l r]) p c ↔
      storeChild store p c ∨ (p = store.length ∧ (l.toNat = c ∨ r.toNat = c)) := by
  rcases Nat.lt_trichotomy p store.length with hp | rfl | hp
  · simp [storeChild, storeAt_append_of_lt _ hp, hp.ne]
  · simp [storeChild, storeAt_append_length, storeAt_of_length_le (le_refl store.length), Node.zero]
  · have hold : storeAt store p = Node.zero := storeAt_of_length_le hp.le
    have hnew : storeAt (store ++ [.internal f l r]) p = Node.zero := storeAt_of_length_le (by simp; omega)
    simp [storeChild, hold, hnew, hp.ne', Node.zero]

theorem leastKey_mem (x : PoolKey) (l : List PoolKey) : leastKey x l ∈ x :: l := by
  induction l generalizing x with
  | nil => simp [leastKey]
  | cons y ys ih =>
    rw [leastKey]
    split
    · exact List.mem_cons_of_mem x (ih y)
    · exact List.cons_subset_cons x (List.subset_cons_self y ys) (ih x)

/-- An extraction takes one element out of a pool that is not empty. -/
theorem extractLeast_perm {pool : List PoolKey} (h : pool ≠ []) :
    ∃ a rest, extractLeast pool = some (a, rest) ∧ pool.Perm (a :: rest) := by
  cases pool with
  | nil => contradiction
  | cons x xs => exact ⟨_, _, rfl, List.perm_cons_erase (leastKey_mem x xs)⟩

/-- The node a merge of two pool elements makes (R154). -/
def mergedNode (a b : PoolKey) : Node :=
  .internal (BitVec.ofNat 40 (a.freq + b.freq)) (BitVec.ofNat 9 a.idx) (BitVec.ofNat 9 b.idx)

/-- A merge takes two elements out of a pool that holds two or more, and puts their new parent in (R154). -/
theorem mergeOnce_perm (store : List Node) {pool : List PoolKey} (h : 2 ≤ pool.length) :
    ∃ a b rest, pool.Perm (a :: b :: rest) ∧
      mergeOnce store pool =
        some (store ++ [mergedNode a b], rest ++ [{ freq := a.freq + b.freq, idx := store.length }]) := by
  obtain ⟨a, pool1, ha, hperm1⟩ := extractLeast_perm (pool := pool) (by rintro rfl; simp at h)
  have hlen := hperm1.length_eq
  obtain ⟨b, rest, hb, hperm2⟩ := extractLeast_perm (pool := pool1) (by rintro rfl; simp at hlen; omega)
  exact ⟨a, b, rest, hperm1.trans (hperm2.cons a), by simp [mergeOnce, ha, hb, mergedNode]⟩

/-! ### The invariant of the merges -/

/-- What holds of the store and the pool between merges, for given leaves and a given sum of the frequencies: the leaves
stand first; every later node is the sum of its two children; exactly the nodes outside the pool have a parent, and only one;
each pool element's frequency is its node's, and all of them sum to the total. -/
structure MergeInv (leaves : List Node) (total : Nat) (store : List Node) (pool : List PoolKey) : Prop where
  count : store.length + pool.length = 2 * leaves.length
  leavesFirst : leaves.length ≤ store.length
  leavesKept : ∀ j, j < leaves.length → storeAt store j = storeAt leaves j
  keys : ∀ x ∈ pool, x.idx < store.length ∧ x.freq = (storeAt store x.idx).freq.toNat
  distinct : (pool.map PoolKey.idx).Nodup
  sum : (pool.map PoolKey.freq).sum = total
  internals : ∀ k, leaves.length ≤ k → k < store.length → ∃ f l r, storeAt store k = .internal f l r ∧ l ≠ r ∧
    f.toNat = (storeAt store l.toNat).freq.toNat + (storeAt store r.toNat).freq.toNat
  below : ∀ p c, storeChild store p c → c < p
  oneParent : ∀ p q c, storeChild store p c → storeChild store q c → p = q
  noParent : ∀ x ∈ pool, ∀ p, ¬ storeChild store p x.idx
  parent : ∀ c, c < store.length → c ∉ pool.map PoolKey.idx → ∃ p, storeChild store p c

section
variable {leaves : List Node} {total : Nat} {store : List Node} {pool : List PoolKey}

/-- The order of the pool does not matter. -/
theorem MergeInv.perm {pool' : List PoolKey} (h : MergeInv leaves total store pool) (hp : pool.Perm pool') :
    MergeInv leaves total store pool' where
  count := hp.length_eq ▸ h.count
  leavesFirst := h.leavesFirst
  leavesKept := h.leavesKept
  keys x hx := h.keys x (hp.mem_iff.2 hx)
  distinct := (hp.map PoolKey.idx).nodup_iff.1 h.distinct
  sum := (hp.map PoolKey.freq).sum_eq ▸ h.sum
  internals := h.internals
  below := h.below
  oneParent := h.oneParent
  noParent x hx := h.noParent x (hp.mem_iff.2 hx)
  parent c hc hnot := h.parent c hc fun hmem => hnot ((hp.map PoolKey.idx).mem_iff.1 hmem)

/-- An element of the pool has a 9-bit number. -/
theorem MergeInv.toNat_idx (h : MergeInv leaves total store pool) (hsize : leaves.length ≤ 256) {x : PoolKey}
    (hx : x ∈ pool) : (BitVec.ofNat 9 x.idx).toNat = x.idx := by
  have hlt := (h.keys x hx).1
  have hcount := h.count
  have hpos := List.length_pos_of_mem hx
  rw [BitVec.toNat_ofNat]
  omega

/-- A merge of any two pool elements keeps the invariant: the store has room for 9-bit numbers and the total is within 40
bits, so that nothing is cut off. -/
theorem MergeInv.merge {a b : PoolKey} {rest : List PoolKey} (h : MergeInv leaves total store (a :: b :: rest))
    (hsize : leaves.length ≤ 256) (htotal : total < 2 ^ 40) :
    MergeInv leaves total (store ++ [mergedNode a b])
      (rest ++ [{ freq := a.freq + b.freq, idx := store.length }]) := by
  have hcount := h.count
  have hsum := h.sum
  have hdistinct := h.distinct
  simp only [List.length_cons] at hcount
  simp only [List.map_cons, List.sum_cons] at hsum
  simp only [List.map_cons, List.nodup_cons, List.mem_cons, not_or] at hdistinct
  obtain ⟨⟨hab, harest⟩, hbrest, hrest⟩ := hdistinct
  obtain ⟨ha, hafreq⟩ := h.keys a (by simp)
  obtain ⟨hb, hbfreq⟩ := h.keys b (by simp)
  have haIx := h.toNat_idx hsize (x := a) (by simp)
  have hbIx := h.toNat_idx hsize (x := b) (by simp)
  have hfreq : (BitVec.ofNat 40 (a.freq + b.freq)).toNat = a.freq + b.freq := by rw [BitVec.toNat_ofNat]; omega
  have hchild : ∀ p c, storeChild (store ++ [mergedNode a b]) p c ↔
      storeChild store p c ∨ (p = store.length ∧ (a.idx = c ∨ b.idx = c)) := by
    intro p c
    rw [mergedNode, storeChild_append, haIx, hbIx]
  have hold : ∀ {i}, i < store.length → storeAt (store ++ [mergedNode a b]) i = storeAt store i :=
    storeAt_append_of_lt _
  have hnew : storeAt (store ++ [mergedNode a b]) store.length = mergedNode a b := storeAt_append_length _ _
  have hidx : ∀ x ∈ rest, x.idx < store.length := fun x hx => (h.keys x (by simp [hx])).1
  constructor
  case count => simp; omega
  case leavesFirst =>
    have := h.leavesFirst
    simp; omega
  case leavesKept =>
    intro j hj
    rw [hold (hj.trans_le h.leavesFirst)]
    exact h.leavesKept j hj
  case keys =>
    intro x hx
    rcases List.mem_append.1 hx with hx | hx
    · obtain ⟨hlt, hf⟩ := h.keys x (by simp [hx])
      exact ⟨by simp; omega, by rw [hold hlt]; exact hf⟩
    · obtain rfl := List.mem_singleton.1 hx
      exact ⟨by simp, by rw [hnew]; exact hfreq.symm⟩
  case distinct =>
    simp only [List.map_append, List.map_cons, List.map_nil, List.nodup_append, List.nodup_singleton, true_and]
    refine ⟨hrest, fun i hi j hj => ?_⟩
    obtain ⟨x, hx, rfl⟩ := List.mem_map.1 hi
    obtain rfl := List.mem_singleton.1 hj
    exact (hidx x hx).ne
  case sum => simp; omega
  case internals =>
    intro k hk hlt
    rcases Nat.lt_succ_iff_lt_or_eq.1 (by simpa using hlt) with hlt | rfl
    · obtain ⟨f, l, r, hnode, hne, hf⟩ := h.internals k hk hlt
      have hl := h.below k l.toNat ⟨f, l, r, hnode, .inl rfl⟩
      have hr := h.below k r.toNat ⟨f, l, r, hnode, .inr rfl⟩
      exact ⟨f, l, r, by rw [hold hlt]; exact hnode, hne, by rw [hold (hl.trans hlt), hold (hr.trans hlt)]; exact hf⟩
    · refine ⟨_, _, _, hnew, fun heq => hab ?_, ?_⟩
      · rw [← haIx, ← hbIx, heq]
      · rw [haIx, hbIx, hold ha, hold hb, hfreq, hafreq, hbfreq]
  case below =>
    intro p c hc
    rcases (hchild p c).1 hc with hc | ⟨rfl, rfl | rfl⟩
    · exact h.below p c hc
    · exact ha
    · exact hb
  case oneParent =>
    have hfresh : ∀ p c, storeChild store p c → ¬ (a.idx = c ∨ b.idx = c) := by
      rintro p c hc (rfl | rfl)
      · exact h.noParent a (by simp) p hc
      · exact h.noParent b (by simp) p hc
    intro p q c hp hq
    rcases (hchild p c).1 hp with hp' | ⟨hp', hpc⟩ <;> rcases (hchild q c).1 hq with hq' | ⟨hq', hqc⟩
    · exact h.oneParent p q c hp' hq'
    · exact absurd hqc (hfresh p c hp')
    · exact absurd hpc (hfresh q c hq')
    · exact hp'.trans hq'.symm
  case noParent =>
    intro x hx p hc
    rcases List.mem_append.1 hx with hx | hx <;> rcases (hchild p x.idx).1 hc with hc | ⟨-, hc⟩
    · exact h.noParent x (by simp [hx]) p hc
    · have hmem := List.mem_map_of_mem (f := PoolKey.idx) hx
      rcases hc with hc | hc
      · exact harest (hc ▸ hmem)
      · exact hbrest (hc ▸ hmem)
    · obtain rfl := List.mem_singleton.1 hx
      exact absurd (h.below p _ hc) (storeChild_lt_length hc).not_gt
    · obtain rfl := List.mem_singleton.1 hx
      rcases hc with hc | hc
      · exact ha.ne hc
      · exact hb.ne hc
  case parent =>
    intro c hc hnot
    simp only [List.map_append, List.map_cons, List.map_nil, List.mem_append, List.mem_singleton, not_or] at hnot
    obtain ⟨hrest', hne⟩ := hnot
    have hlt : c < store.length := by simp at hc; omega
    by_cases hmem : c = a.idx ∨ c = b.idx
    · exact ⟨store.length, (hchild _ c).2 (.inr ⟨rfl, hmem.imp Eq.symm Eq.symm⟩)⟩
    · obtain ⟨p, hp⟩ := h.parent c hlt (by simp only [List.map_cons, List.mem_cons]; tauto)
      exact ⟨p, (hchild p c).2 (.inl hp)⟩

/-- After as many merges as leave one element in the pool, the invariant still holds. -/
theorem mergeAll_inv (hsize : leaves.length ≤ 256) (htotal : total < 2 ^ 40) (fuel : Nat) :
    ∀ {store pool}, MergeInv leaves total store pool → pool.length = fuel + 1 →
      ∃ x, (mergeAll fuel store pool).2 = [x] ∧ MergeInv leaves total (mergeAll fuel store pool).1 [x] := by
  induction fuel with
  | zero =>
    intro store pool h hlen
    obtain ⟨x, rfl⟩ := List.length_eq_one_iff.1 hlen
    exact ⟨x, rfl, h⟩
  | succ fuel ih =>
    intro store pool h hlen
    obtain ⟨a, b, rest, hperm, hmerge⟩ := mergeOnce_perm store (pool := pool) (by omega)
    have hlen' := hperm.length_eq
    simp only [mergeAll, hmerge]
    exact ih ((h.perm hperm).merge hsize htotal) (by simp at hlen' ⊢; omega)

/-- The last node is the only one without a parent (R154). -/
theorem MergeInv.root_idx {x : PoolKey} (h : MergeInv leaves total store [x]) (hne : 1 ≤ leaves.length) :
    store.length = 2 * leaves.length - 1 ∧ x.idx = 2 * leaves.length - 2 := by
  have hcount := h.count
  simp only [List.length_singleton] at hcount
  refine ⟨by omega, ?_⟩
  by_contra hx
  obtain ⟨p, hp⟩ := h.parent (2 * leaves.length - 2) (by omega) (by simpa using Ne.symm hx)
  have := h.below p _ hp
  have := storeChild_lt_length hp
  omega

end
end Sys2Proof.Machine
end

section
/-! BUILD's tree: the leaves meet the merge invariant, so the committed NODE store is a tree (O41), and every step keeps the
tree invariant (O31). -/

namespace Sys2Proof.Machine

/-! ### The leaves -/

theorem allBytes_ascending : allBytes.Pairwise (fun u v => u.toNat < v.toNat) := by
  rw [allBytes, List.pairwise_map]
  refine List.pairwise_lt_range.imp_of_mem fun hi hj hij => ?_
  rw [List.mem_range] at hi hj
  rwa [BitVec.toNat_ofNat, BitVec.toNat_ofNat, Nat.mod_eq_of_lt hi, Nat.mod_eq_of_lt hj]

theorem presentSymbols_ascending (freq : Vector Word 256) :
    (presentSymbols freq).Pairwise (fun u v => u.toNat < v.toNat) := by
  rw [presentSymbols_eq_filter]
  exact allBytes_ascending.filter _

theorem length_presentSymbols_le (freq : Vector Word 256) : (presentSymbols freq).length ≤ 256 := by
  rw [presentSymbols_eq_filter, ← length_allBytes]
  exact List.length_filter_le _ _

/-- The sum of the entries, read unsigned (R204). -/
def tableSum (freq : Vector Word 256) : Nat := (freq.toList.map BitVec.toNat).sum

theorem tableSum_freq (s : State) : tableSum s.freq = s.freqSum := rfl

/-- 256 entries of 32 bits sum to less than 2^40 (R7, R157). -/
theorem tableSum_lt (freq : Vector Word 256) : tableSum freq < 2 ^ 40 := by
  have hle : ∀ x ∈ freq.toList.map BitVec.toNat, x ≤ 2 ^ 32 - 1 := by
    intro x hx
    obtain ⟨w, -, rfl⟩ := List.mem_map.1 hx
    have := w.isLt
    omega
  have hsum := List.sum_le_card_nsmul _ _ hle
  simp only [List.length_map, Vector.length_toList, smul_eq_mul] at hsum
  rw [tableSum]
  omega

/-- Absent entries add nothing, so the present ones sum to the table's sum. -/
theorem sum_presentEntries (freq : Vector Word 256) :
    ((presentEntries freq).map (fun e => e.2.toNat)).sum = tableSum freq := by
  have hfilter : ∀ l : List (Byte × Word),
      ((l.filter (fun e => e.2 != 0#32)).map (fun e => e.2.toNat)).sum = (l.map (fun e => e.2.toNat)).sum := by
    intro l
    induction l with
    | nil => rfl
    | cons e l ih =>
      by_cases he : e.2 = 0#32
      · simp [he, ih]
      · simp [he, ih]
  have hsnd : (tableEntries freq).map Prod.snd = freq.toList := List.map_snd_zip (by simp)
  rw [presentEntries, hfilter, tableSum, ← hsnd, List.map_map]
  rfl

section
variable (present : List (Byte × Word))

@[simp] theorem length_leafStore : (leafStore present).length = present.length := by simp [leafStore]

@[simp] theorem length_leafPool : (leafPool present).length = present.length := by simp [leafPool]

theorem storeAt_leafStore {j : Nat} (h : j < present.length) :
    storeAt (leafStore present) j = .leaf present[j].1 (present[j].2.setWidth 40) := by
  simp [storeAt, leafStore, h]

/-- No leaf has a child. -/
theorem not_storeChild_leafStore (p c : Nat) : ¬ storeChild (leafStore present) p c := by
  intro h
  have hp : p < present.length := by simpa using storeChild_lt_length h
  obtain ⟨f, l, r, hnode, -⟩ := h
  rw [storeAt_leafStore present hp] at hnode
  cases hnode

theorem map_idx_leafPool : (leafPool present).map PoolKey.idx = List.range present.length := by
  rw [leafPool, List.map_map, List.range_eq_range', ← List.zipIdx_map_snd 0 present]
  rfl

theorem map_freq_leafPool : (leafPool present).map PoolKey.freq = present.map (fun e => e.2.toNat) := by
  rw [leafPool, List.map_map]
  conv_rhs => rw [← List.zipIdx_map_fst 0 present, List.map_map]
  rfl

/-- Before the first merge every leaf is in the pool, with its frequency (R153). -/
theorem leaves_mergeInv :
    MergeInv (leafStore present) (present.map (fun e => e.2.toNat)).sum (leafStore present) (leafPool present) where
  count := by simp; omega
  leavesFirst := le_refl _
  leavesKept _ _ := rfl
  keys := by
    intro x hx
    obtain ⟨⟨e, j⟩, hmem, rfl⟩ := List.mem_map.1 hx
    obtain ⟨-, hj, he⟩ := List.mem_zipIdx hmem
    have hj : j < present.length := by omega
    refine ⟨by simpa using hj, ?_⟩
    have hlt := present[j].2.isLt
    simp only [storeAt_leafStore present hj, Node.freq, BitVec.toNat_setWidth, he, Nat.sub_zero]
    omega
  distinct := by rw [map_idx_leafPool]; exact List.nodup_range
  sum := by rw [map_freq_leafPool]
  internals _ hk hlt := absurd hlt (by omega)
  below p c h := absurd h (not_storeChild_leafStore present p c)
  oneParent p _ c h _ := absurd h (not_storeChild_leafStore present p c)
  noParent x _ p := not_storeChild_leafStore present p x.idx
  parent c hc hnot := by
    rw [map_idx_leafPool, List.mem_range] at hnot
    exact absurd (by simpa using hc) hnot

end

/-! ### The tree that BUILD commits -/

/-- The NODE store as BUILD commits a scratch store of n leaves (R157). -/
def committedNodes (n : Nat) (store : List Node) : Vector Node 512 :=
  tabulate 512 (fun i => if i < 2 * n - 1 then store.getD i Node.zero else Node.zero)

theorem commitTree_nodes_eq_committed (s : State) (n : Nat) (store : List Node) (r : Nat) :
    (s.commitTree n store r).nodes = committedNodes n store := rfl

theorem nodeNo_committedNodes {n : Nat} {store : List Node} (hlen : store.length = 2 * n - 1) {i : Nat} (hi : i < 512) :
    nodeNo (committedNodes n store) i = storeAt store i := by
  have hix : (BitVec.ofNat 9 i).toNat = i := by rw [BitVec.toNat_ofNat]; omega
  rw [nodeNo, committedNodes, nodeAt_tabulate, hix]
  split
  · rfl
  · rw [storeAt_of_length_le (by omega)]

/-- The number of an index. -/
theorem nodeNo_toNat (nodes : Vector Node 512) (i : NodeIx) : nodeNo nodes i.toNat = nodeAt nodes i := by
  rw [nodeNo, BitVec.ofNat_toNat, BitVec.setWidth_eq]

section
variable {present : List (Byte × Word)} {total : Nat} {store : List Node} {x : PoolKey}

/-- The store of a finished merge of ascending, non-zero leaves is a tree. -/
theorem MergeInv.isTree (h : MergeInv (leafStore present) total store [x]) (hne : present ≠ [])
    (hsize : present.length ≤ 256) (hasc : (present.map Prod.fst).Pairwise (fun u v => u.toNat < v.toNat))
    (hpos : ∀ e ∈ present, e.2 ≠ 0#32) : IsTree (committedNodes present.length store) present.length := by
  have hone : 1 ≤ present.length := List.length_pos_iff.2 hne
  obtain ⟨hlen, hroot⟩ := h.root_idx (by simpa using hone)
  rw [length_leafStore] at hlen hroot
  have hnode : ∀ {i}, i < 512 → nodeNo (committedNodes present.length store) i = storeAt store i :=
    nodeNo_committedNodes hlen
  have hnodeIx : ∀ i : NodeIx, nodeAt (committedNodes present.length store) i = storeAt store i.toNat := fun i => by
    rw [← nodeNo_toNat, hnode i.isLt]
  have hchild : ∀ {p c}, p < 512 → (isChild (committedNodes present.length store) p c ↔ storeChild store p c) :=
    fun hp => by rw [isChild, storeChild, hnode hp]
  have hleaf : ∀ j (hj : j < present.length),
      nodeNo (committedNodes present.length store) j = .leaf present[j].1 (present[j].2.setWidth 40) := fun j hj => by
    rw [hnode (by omega), h.leavesKept j (by simpa using hj), storeAt_leafStore present hj]
  constructor
  case size => exact ⟨hone, hsize⟩
  case leaves =>
    intro j hj
    refine ⟨_, _, hleaf j hj, ?_⟩
    have hne0 : present[j].2.toNat ≠ 0 := fun h0 => hpos _ (List.getElem_mem hj) (BitVec.eq_of_toNat_eq h0)
    have hlt := present[j].2.isLt
    rw [BitVec.toNat_setWidth]
    omega
  case ascending =>
    intro i j hij hj
    rw [hleaf i (hij.trans hj), hleaf j hj]
    exact List.pairwise_iff_getElem.1 (List.pairwise_map.1 hasc) i j (hij.trans hj) hj hij
  case internals =>
    intro k hk hlt
    obtain ⟨f, l, r, hf, hlr, hsum⟩ := h.internals k (by simpa using hk) (by omega)
    exact ⟨f, l, r, (hnode (by omega)).trans hf, h.below k _ ⟨f, l, r, hf, .inl rfl⟩,
      h.below k _ ⟨f, l, r, hf, .inr rfl⟩, hlr, by rw [hnodeIx, hnodeIx]; exact hsum⟩
  case oneParent =>
    intro c hc
    obtain ⟨p, hp⟩ := h.parent c (by omega) (by simp; omega)
    have hplt := storeChild_lt_length hp
    exact ⟨p, by omega, (hchild (by omega)).2 hp, fun q hq hqc => h.oneParent q p c ((hchild hq).1 hqc) hp⟩
  case zeroAbove =>
    intro i hi hlt
    rw [hnode hlt, storeAt_of_length_le (by omega)]

end

/-- What BUILD's merges leave for a FREQ table with some present symbol: the root is the last node, its frequency the sum of
the table, and the committed store a tree (R154, R157). -/
theorem buildStore_spec {freq : Vector Word 256} (h : presentSymbols freq ≠ []) :
    poolRoot (buildStore freq).2 = 2 * (presentSymbols freq).length - 2 ∧
      (storeAt (buildStore freq).1 (2 * (presentSymbols freq).length - 2)).freq.toNat = tableSum freq ∧
      (buildStore freq).1.length = 2 * (presentSymbols freq).length - 1 ∧
      IsTree (committedNodes (presentSymbols freq).length (buildStore freq).1) (presentSymbols freq).length := by
  have hlen : (presentEntries freq).length = (presentSymbols freq).length := by simp [presentSymbols]
  have hsize := length_presentSymbols_le freq
  have hone : 1 ≤ (presentSymbols freq).length := List.length_pos_iff.2 h
  have hinit := leaves_mergeInv (presentEntries freq)
  rw [sum_presentEntries] at hinit
  obtain ⟨x, hpool, hinv⟩ : ∃ x, (buildStore freq).2 = [x] ∧
      MergeInv (leafStore (presentEntries freq)) (tableSum freq) (buildStore freq).1 [x] :=
    mergeAll_inv (by simpa [hlen] using hsize) (tableSum_lt freq) ((presentEntries freq).length - 1) hinit
      (by simp; omega)
  obtain ⟨hstore, hroot⟩ := hinv.root_idx (by simpa [hlen] using hone)
  have hkey := (hinv.keys x (by simp)).2
  have hsum := hinv.sum
  rw [length_leafStore, hlen] at hstore hroot
  rw [hroot] at hkey
  have hpos : ∀ e ∈ presentEntries freq, e.2 ≠ 0#32 := fun e he => by
    simpa [presentEntries] using (List.mem_filter.1 he).2
  have htree := hinv.isTree (by rintro h0; simp [presentSymbols, h0] at h) (by omega) (presentSymbols_ascending freq) hpos
  rw [hlen] at htree
  refine ⟨?_, ?_, hstore, htree⟩
  · rw [hpool]; exact hroot
  · rw [← hkey]; simpa using hsum

/-- BUILD's commit is a tree of the present symbols, whose root holds the sum (R157). -/
theorem commitTree_spec {s : State} (h : presentSymbols s.freq ≠ []) {t : State}
    (ht : t = s.commitTree (presentSymbols s.freq).length (buildStore s.freq).1 (poolRoot (buildStore s.freq).2)) :
    t.TreeInv ∧ t.total.toNat = s.freqSum ∧ t.status.treeValid = true := by
  obtain ⟨hroot, hsum, hlen, htree⟩ := buildStore_spec h
  have hsize := htree.size
  have hsym : t.symCnt.toNat = (presentSymbols s.freq).length := by
    rw [ht, State.commitTree_symCnt, BitVec.toNat_ofNat]; omega
  have hrootIx : t.root.toNat = 2 * (presentSymbols s.freq).length - 2 := by
    rw [ht, State.commitTree_root, hroot, BitVec.toNat_ofNat]; omega
  have hnodes : t.nodes = committedNodes (presentSymbols s.freq).length (buildStore s.freq).1 := by
    rw [ht, commitTree_nodes_eq_committed]
  have htotal : t.total = (storeAt (buildStore s.freq).1 (2 * (presentSymbols s.freq).length - 2)).freq := by
    rw [ht, State.commitTree_total, hroot]; rfl
  refine ⟨⟨fun _ => ⟨?_, ?_, ?_, ?_⟩, fun hv => ?_⟩, ?_, by rw [ht]; rfl⟩
  · rw [hnodes, hsym]; exact htree
  · rw [hsym, ht, State.commitTree_nodeCnt, BitVec.toNat_ofNat]; omega
  · rw [hsym, hrootIx]
  · rw [htotal, ← nodeNo_toNat, hrootIx, hnodes, nodeNo_committedNodes hlen (by omega)]
  · rw [ht] at hv; cases hv
  · rw [htotal, hsum, tableSum_freq]

/-- Settles O41: BUILD on such a table commits, and its commit is a tree whose root holds the sum. -/
theorem buildTotalIsSum : Obligations.BuildTotalIsSum := by
  intro s t hneg ⟨v, hv⟩ he
  have hpresent : presentSymbols s.freq ≠ [] := List.ne_nil_of_mem (mem_presentSymbols.2 hv)
  have hnone := firstNegative_eq_none.2 hneg
  rcases opBuild_cases s with ⟨u, hu, -⟩ | ⟨-, hempty, -⟩ | ⟨-, -, ho⟩
  · rw [hnone] at hu; cases hu
  · exact absurd hempty hpresent
  · rw [exec_eq_complete] at he
    simp only [opOf, ho, OpOut.complete_done, Host.Outcome.next.injEq] at he
    obtain ⟨htree, htotal, hvalid⟩ := commitTree_spec hpresent rfl
    subst he
    exact ⟨htotal, (htree.valid hvalid).1⟩

/-! ### The tree invariant through the step -/

/-- The invariant speaks of NODE, the tree registers and TREE_VALID alone. -/
theorem State.TreeInv.of_same {s t : State} (h : s.TreeInv) (hsame : t.treePart = s.treePart) : t.TreeInv := by
  simp only [State.treePart, Prod.mk.injEq] at hsame
  obtain ⟨hnodes, hsym, hcnt, hroot, htotal, hvalid⟩ := hsame
  constructor
  · rw [hvalid, hnodes, hsym, hcnt, hroot, htotal]; exact h.valid
  · rw [hvalid, hnodes, hsym, hcnt, hroot, htotal]; exact h.invalid

/-- InvalidateTree and reset leave no tree (R128, R51). -/
theorem invalidateTree_treeInv (s : State) : s.invalidateTree.TreeInv where
  valid hv := by cases hv
  invalid _ := ⟨rfl, rfl, rfl, rfl, rfl⟩

theorem Commit.keeps_treeInv {j : Instr} {a b : State} (hc : Commit j a b) (h : a.TreeInv) : b.TreeInv := by
  cases hc with
  | build _ _ hsome => exact (commitTree_spec hsome rfl).1
  | compressEmpty | decompressEmpty | clear => exact (invalidateTree_treeInv a).of_same rfl
  | _ => exact h.of_same rfl

theorem BusEffect.keeps_treePart {s t : State} {wa : WordAddr} {v : Word} (h : BusEffect s wa v t) :
    t.treePart = s.treePart := by
  cases h <;> rfl

/-- Settles O31: only BUILD's commit makes a tree, only InvalidateTree and reset take it away, and nothing else writes it. -/
theorem stepKeepsTreeInv : Obligations.StepKeepsTreeInv := by
  intro s t h hst
  exact step_preserves (fun _ _ _ hc ha => hc.keeps_treeInv ha) (fun _ ha => ha.of_same rfl)
    (fun _ _ _ _ ha => ha.of_same rfl) (fun _ _ ha => ha.of_same rfl) (fun _ _ ha => ha.of_same rfl)
    (fun _ _ _ _ he ha => ha.of_same he.keeps_treePart) (fun a _ => (invalidateTree_treeInv a).of_same rfl) h hst

end Sys2Proof.Machine
end

section
/-! Paths in a tree: numbers fall along them, so they are short; and a node has one path from the root, so a leaf has one
code (R170 to R173). -/

namespace Sys2Proof.Machine

/-- The node that a bit leads to from an internal node is its child. -/
theorem isChild_bit {nodes : Vector Node 512} {i l r : NodeIx} {f : NodeFreq} (hi : nodeAt nodes i = .internal f l r)
    (b : Bool) : isChild nodes i.toNat (if b then r else l).toNat := by
  refine ⟨f, l, r, by rw [nodeNo_toNat, hi], ?_⟩
  cases b with
  | false => exact .inl rfl
  | true => exact .inr rfl

/-- The rest of a path that goes on from an internal node (R172). -/
theorem descend_cons_internal {nodes : Vector Node 512} {p l r : NodeIx} {f : NodeFreq}
    (h : nodeAt nodes p = .internal f l r) (b : Bool) (path : BitString) :
    descend nodes p (b :: path) = descend nodes (if b then r else l) path := by
  rw [descend, h]

/-- A path that begins with a bit begins at an internal node. -/
theorem descend_cons_eq_some {nodes : Vector Node 512} {p q : NodeIx} {b : Bool} {path : BitString} :
    descend nodes p (b :: path) = some q ↔
      ∃ f l r, nodeAt nodes p = .internal f l r ∧ descend nodes (if b then r else l) path = some q := by
  rw [descend]
  cases nodeAt nodes p with
  | leaf sym f => simp
  | internal f l r => simp

/-- A path that ends with a bit ends at a child of the node before it. -/
theorem descend_concat_eq_some {nodes : Vector Node 512} {p q : NodeIx} {b : Bool} {path : BitString} :
    descend nodes p (path ++ [b]) = some q ↔
      ∃ m f l r, descend nodes p path = some m ∧ nodeAt nodes m = .internal f l r ∧ (if b then r else l) = q := by
  induction path generalizing p with
  | nil =>
    rw [List.nil_append, descend_cons_eq_some]
    simp [descend]
  | cons c path ih =>
    simp only [List.cons_append, descend_cons_eq_some, ih]
    constructor
    · rintro ⟨f, l, r, hp, m, g, l', r', hm, hnode, hq⟩
      exact ⟨m, g, l', r', ⟨f, l, r, hp, hm⟩, hnode, hq⟩
    · rintro ⟨m, g, l', r', ⟨f, l, r, hp, hm⟩, hnode, hq⟩
      exact ⟨f, l, r, hp, m, g, l', r', hm, hnode, hq⟩

section
variable {nodes : Vector Node 512} {n : Nat} (h : IsTree nodes n)
include h

/-- An internal node is numbered among the internal nodes, and above its two different children. -/
theorem IsTree.of_internal {i l r : NodeIx} {f : NodeFreq} (hi : nodeAt nodes i = .internal f l r) :
    n ≤ i.toNat ∧ l.toNat < i.toNat ∧ r.toNat < i.toNat ∧ l ≠ r := by
  rw [← nodeNo_toNat] at hi
  rcases Nat.lt_or_ge i.toNat n with hlt | hge
  · obtain ⟨sym, g, hleaf, -⟩ := h.leaves _ hlt
    rw [hleaf] at hi; cases hi
  · rcases Nat.lt_or_ge i.toNat (2 * n - 1) with hlt | hge'
    · obtain ⟨f', l', r', hnode, hl, hr, hne, -⟩ := h.internals _ hge hlt
      rw [hnode] at hi; cases hi
      exact ⟨hge, hl, hr, hne⟩
    · rw [h.zeroAbove _ hge' i.isLt] at hi; cases hi

/-- A child is numbered below its parent, whichever bit leads to it. -/
theorem IsTree.child_lt {i l r : NodeIx} {f : NodeFreq} (hi : nodeAt nodes i = .internal f l r) (b : Bool) :
    (if b then r else l).toNat < i.toNat := by
  obtain ⟨-, hl, hr, -⟩ := h.of_internal hi
  cases b with
  | false => exact hl
  | true => exact hr

/-- A path passes internal nodes only, in falling number, so there are no more bits in it than internal nodes up to its
start. -/
theorem IsTree.length_path_le {p q : NodeIx} {path : BitString} (hd : descend nodes p path = some q) :
    path.length ≤ p.toNat + 1 - n ∧ q.toNat ≤ p.toNat := by
  induction path generalizing p with
  | nil => cases hd; simp
  | cons b path ih =>
    obtain ⟨f, l, r, hp, hd⟩ := descend_cons_eq_some.1 hd
    obtain ⟨hlen, hq⟩ := ih hd
    have hlt := h.child_lt hp b
    have hge := (h.of_internal hp).1
    rw [List.length_cons]
    omega

/-- Different children are reached by different bits. -/
theorem IsTree.bit_unique {i l r : NodeIx} {f : NodeFreq} (hi : nodeAt nodes i = .internal f l r) {b b' : Bool}
    (hb : (if b then r else l) = if b' then r else l) : b = b' := by
  have hne := (h.of_internal hi).2.2.2
  cases b <;> cases b'
  · rfl
  · exact absurd hb hne
  · exact absurd hb.symm hne
  · rfl

/-- Two paths from the root, the last node, to one node are the same path (R42, R154). -/
theorem IsTree.path_unique {root q : NodeIx} (hroot : root.toNat = 2 * n - 2) {path path' : BitString}
    (hd : descend nodes root path = some q) (hd' : descend nodes root path' = some q) : path = path' := by
  have hsize := h.size
  have hproper : ∀ {path b q}, descend nodes root (path ++ [b]) = some q → q.toNat < root.toNat := by
    intro path b q hd
    obtain ⟨m, f, l, r, hm, hnode, rfl⟩ := descend_concat_eq_some.1 hd
    exact (h.child_lt hnode b).trans_le (h.length_path_le hm).2
  induction path using List.reverseRecOn generalizing path' q with
  | nil =>
    cases hd
    rcases List.eq_nil_or_concat' path' with rfl | ⟨path', b', rfl⟩
    · rfl
    · exact absurd (hproper hd') (lt_irrefl _)
  | append_singleton path b ih =>
    rcases List.eq_nil_or_concat' path' with rfl | ⟨path', b', rfl⟩
    · cases hd'
      exact absurd (hproper hd) (lt_irrefl _)
    · have hq := hproper hd
      obtain ⟨m, f, l, r, hm, hnode, rfl⟩ := descend_concat_eq_some.1 hd
      obtain ⟨m', f', l', r', hm', hnode', hb⟩ := descend_concat_eq_some.1 hd'
      obtain ⟨p, -, -, hp⟩ := h.oneParent (if b then r else l).toNat (by omega)
      have hmp : m.toNat = p := hp _ m.isLt (isChild_bit hnode b)
      have hmp' : m'.toNat = p := hp _ m'.isLt (hb ▸ isChild_bit hnode' b')
      obtain rfl : m = m' := BitVec.eq_of_toNat_eq (hmp.trans hmp'.symm)
      rw [hnode] at hnode'
      cases hnode'
      rw [ih hm hm', h.bit_unique hnode hb]

/-- Within the tree one leaf holds a byte value (R153). -/
theorem IsTree.leaf_unique {i j : NodeIx} {v : Byte} {f g : NodeFreq} (hi : i.toNat < 2 * n - 1) (hj : j.toNat < 2 * n - 1)
    (hvi : nodeAt nodes i = .leaf v f) (hvj : nodeAt nodes j = .leaf v g) : i = j := by
  have hlt : ∀ {k : NodeIx} {f}, k.toNat < 2 * n - 1 → nodeAt nodes k = .leaf v f → k.toNat < n := by
    intro k f hk hv
    by_contra hge
    obtain ⟨f', l', r', hnode, -⟩ := h.internals k.toNat (by omega) hk
    rw [nodeNo_toNat, hv] at hnode
    cases hnode
  have hsym : ∀ {k : NodeIx} {f}, nodeAt nodes k = .leaf v f → (nodeNo nodes k.toNat).sym = v := fun hv => by
    rw [nodeNo_toNat, hv, Node.sym]
  apply BitVec.eq_of_toNat_eq
  rcases Nat.lt_trichotomy i.toNat j.toNat with hij | hij | hij
  · have := h.ascending _ _ hij (hlt hj hvj)
    rw [hsym hvi, hsym hvj] at this
    exact absurd this (lt_irrefl _)
  · exact hij
  · have := h.ascending _ _ hij (hlt hi hvi)
    rw [hsym hvi, hsym hvj] at this
    exact absurd this (lt_irrefl _)

/-- A byte value has no more than one path from the root. -/
theorem IsTree.isPathTo_unique {root : NodeIx} (hroot : root.toNat = 2 * n - 2) {v : Byte} {path path' : BitString}
    (hp : isPathTo nodes root path v) (hp' : isPathTo nodes root path' v) : path = path' := by
  have hsize := h.size
  obtain ⟨q, f, hd, hq⟩ := hp
  obtain ⟨q', f', hd', hq'⟩ := hp'
  have hle := (h.length_path_le hd).2
  have hle' := (h.length_path_le hd').2
  obtain rfl := h.leaf_unique (by omega) (by omega) hq hq'
  exact h.path_unique hroot hd hd'

/-- Below every node there is a leaf. -/
theorem IsTree.exists_path (i : NodeIx) : ∃ path v, isPathTo nodes i path v := by
  induction hi : i.toNat using Nat.strong_induction_on generalizing i with
  | _ k ih =>
    subst hi
    cases hnode : nodeAt nodes i with
    | leaf sym f => exact ⟨[], sym, i, f, rfl, hnode⟩
    | internal f l r =>
      obtain ⟨path, v, q, g, hd, hq⟩ := ih _ (h.child_lt hnode false) _ rfl
      exact ⟨false :: path, v, q, g, by rw [descend_cons_internal hnode]; exact hd, hq⟩

/-! ### Codes -/

theorem IsTree.isCodeOf_unique {root : NodeIx} (hroot : root.toNat = 2 * n - 2) {v : Byte} {c d : BitString}
    (hc : isCodeOf nodes root v c) (hd : isCodeOf nodes root v d) : c = d := by
  rcases hc with ⟨f, hleaf, rfl⟩ | ⟨f, l, r, hnode, hc⟩ <;> rcases hd with ⟨g, hleaf', rfl⟩ | ⟨g, l', r', hnode', hd⟩
  · rfl
  · rw [hleaf] at hnode'; cases hnode'
  · rw [hnode] at hleaf'; cases hleaf'
  · exact h.isPathTo_unique hroot hc hd

/-- No code is longer than 255: there are at most 255 internal nodes (R102, R171). -/
theorem IsTree.isCodeOf_length {root : NodeIx} (hroot : root.toNat = 2 * n - 2) {v : Byte} {c : BitString}
    (hc : isCodeOf nodes root v c) : c.length ≤ 255 := by
  have hsize := h.size
  rcases hc with ⟨f, -, rfl⟩ | ⟨f, l, r, -, q, g, hd, -⟩
  · simp
  · have := (h.length_path_le hd).1
    omega

theorem IsTree.exists_code (root : NodeIx) : ∃ v c, isCodeOf nodes root v c := by
  cases hnode : nodeAt nodes root with
  | leaf sym f => exact ⟨sym, [false], .inl ⟨f, hnode, rfl⟩⟩
  | internal f l r =>
    obtain ⟨path, v, hp⟩ := h.exists_path root
    exact ⟨v, path, .inr ⟨f, l, r, hnode, hp⟩⟩

/-- The traversal with enough fuel records exactly the paths to the leaves below a node, each after the given bits
(R170, R172). -/
theorem IsTree.mem_pathCodes {fuel : Nat} {i : NodeIx} (hfuel : i.toNat < fuel) {v : Byte} {pre c : BitString} :
    (v, c) ∈ pathCodes nodes fuel i pre ↔ ∃ path, c = pre ++ path ∧ isPathTo nodes i path v := by
  induction fuel generalizing i pre with
  | zero => omega
  | succ fuel ih =>
    rw [pathCodes]
    cases hnode : nodeAt nodes i with
    | leaf sym f =>
      simp only [List.mem_singleton, Prod.mk.injEq]
      constructor
      · rintro ⟨rfl, rfl⟩
        exact ⟨[], by simp, i, f, rfl, hnode⟩
      · rintro ⟨path, rfl, q, g, hd, hq⟩
        cases path with
        | nil => cases hd; rw [hnode] at hq; cases hq; simp
        | cons b path => rw [descend, hnode] at hd; cases hd
    | internal f l r =>
      have hbit : ∀ b : Bool, (v, c) ∈ pathCodes nodes fuel (if b then r else l) (pre ++ [b]) ↔
          ∃ path, c = pre ++ b :: path ∧ isPathTo nodes i (b :: path) v := by
        intro b
        have hlt := h.child_lt hnode b
        rw [ih (by omega)]
        simp only [isPathTo, descend_cons_internal hnode, List.append_assoc, List.singleton_append]
      have hl := hbit false
      have hr := hbit true
      simp only [Bool.false_eq_true, if_false, if_true] at hl hr
      rw [List.mem_append, hl, hr]
      constructor
      · rintro (⟨path, hc, hp⟩ | ⟨path, hc, hp⟩)
        · exact ⟨false :: path, hc, hp⟩
        · exact ⟨true :: path, hc, hp⟩
      · rintro ⟨path, hc, hp⟩
        cases path with
        | nil =>
          obtain ⟨q, g, hd, hq⟩ := hp
          cases hd
          rw [hnode] at hq; cases hq
        | cons b path =>
          cases b with
          | false => exact .inl ⟨path, hc, hp⟩
          | true => exact .inr ⟨path, hc, hp⟩

/-- The recorded codes are exactly the tree's (R170 to R172). -/
theorem IsTree.mem_treeCodes {root : NodeIx} {v : Byte} {c : BitString} :
    (v, c) ∈ treeCodes nodes root ↔ isCodeOf nodes root v c := by
  rw [treeCodes, isCodeOf]
  cases hnode : nodeAt nodes root with
  | leaf sym f => simp [eq_comm]
  | internal f l r => simp [h.mem_pathCodes root.isLt]

/-- Where each value is recorded with one code only, the table holds exactly the recorded codes. -/
theorem IsTree.entryAt_codeTable {root : NodeIx} (hroot : root.toNat = 2 * n - 2) (v : Byte) (c : BitString) :
    entryAt (codeTable (treeCodes nodes root)) v = some c ↔ isCodeOf nodes root v c := by
  have hmem : ∀ d, codeOf (treeCodes nodes root) v = some d → isCodeOf nodes root v d := by
    intro d hd
    obtain ⟨l₁, l₂, hl, -⟩ := List.lookup_eq_some_iff.1 hd
    rw [← h.mem_treeCodes, ← List.mem_reverse, hl]
    simp
  rw [codeTable, entryAt_tabulate, BitVec.ofNat_toNat, BitVec.setWidth_eq]
  refine ⟨hmem c, fun hc => ?_⟩
  have hsome : (codeOf (treeCodes nodes root) v).isSome := by
    rw [codeOf, List.lookup_isSome_iff]
    exact ⟨(v, c), List.mem_reverse.2 (h.mem_treeCodes.2 hc), by simp⟩
  obtain ⟨d, hd⟩ := Option.isSome_iff_exists.1 hsome
  rw [hd, h.isCodeOf_unique hroot hc (hmem d hd)]

end

/-! ### The greatest length -/

theorem toList_eq_map_entryAt {α : Type} (t : Vector α 256) : t.toList = allBytes.map (entryAt t) := by
  have h : (tableEntries t).map Prod.snd = t.toList := List.map_snd_zip (by simp)
  rw [← h, tableEntries_eq_map, List.map_map]
  rfl

/-- A fold of `max` bounds what it folds, and is one of them or its start. -/
theorem foldl_max_spec (l : List Nat) (a : Nat) :
    a ≤ l.foldl max a ∧ (∀ x ∈ l, x ≤ l.foldl max a) ∧ (l.foldl max a = a ∨ l.foldl max a ∈ l) := by
  induction l generalizing a with
  | nil => simp
  | cons y l ih =>
    obtain ⟨hstart, hall, hmem⟩ := ih (max a y)
    simp only [List.foldl_cons, List.mem_cons, forall_eq_or_imp]
    refine ⟨by omega, ⟨by omega, hall⟩, ?_⟩
    rcases hmem with hmem | hmem
    · rcases Nat.le_total a y with hay | hay
      · rw [max_eq_right hay] at hmem ⊢; exact .inr (.inl hmem)
      · rw [max_eq_left hay] at hmem ⊢; exact .inl hmem
    · exact .inr (.inr hmem)

theorem codeLen_le_maxLen (t : Vector CodeEntry 256) (v : Byte) : codeLen (entryAt t v) ≤ maxLen t := by
  refine (foldl_max_spec _ 0).2.1 _ (List.mem_map_of_mem ?_)
  rw [toList_eq_map_entryAt]
  exact List.mem_map_of_mem (mem_allBytes v)

/-- A table with some entry attains its greatest length. -/
theorem exists_length_eq_maxLen {t : Vector CodeEntry 256} {u : Byte} {d : BitString} (hu : entryAt t u = some d) :
    ∃ v c, entryAt t v = some c ∧ c.length = maxLen t := by
  have hle := codeLen_le_maxLen t u
  rw [hu, codeLen] at hle
  rcases Nat.eq_zero_or_pos (maxLen t) with hzero | hpos
  · exact ⟨u, d, hu, by omega⟩
  · obtain ⟨v, -, hv⟩ : ∃ v ∈ allBytes, codeLen (entryAt t v) = maxLen t := by
      have hmem := (foldl_max_spec (t.toList.map codeLen) 0).2.2.resolve_left hpos.ne'
      rw [toList_eq_map_entryAt, List.map_map] at hmem
      obtain ⟨v, hv, hlen⟩ := List.mem_map.1 hmem
      exact ⟨v, hv, by rw [maxLen, toList_eq_map_entryAt, List.map_map]; exact hlen⟩
    cases hc : entryAt t v with
    | none => rw [hc, codeLen] at hv; omega
    | some c => exact ⟨v, c, hc, by rw [hc, codeLen] at hv; exact hv⟩

/-! ### The code invariant through the step -/

/-- The greatest length in a tree's code table fits MAX_CODE_LEN (R39, R102). -/
theorem IsTree.maxLen_codeTable_le {nodes : Vector Node 512} {n : Nat} (h : IsTree nodes n) {root : NodeIx}
    (hroot : root.toNat = 2 * n - 2) : maxLen (codeTable (treeCodes nodes root)) ≤ 255 := by
  obtain ⟨u, d, hu⟩ := h.exists_code root
  obtain ⟨v, c, hv, hlen⟩ := exists_length_eq_maxLen ((h.entryAt_codeTable hroot u d).2 hu)
  exact hlen ▸ h.isCodeOf_length hroot ((h.entryAt_codeTable hroot v c).1 hv)

/-- CODES on a valid tree commits the tree's code table and its greatest length (R170). -/
theorem codes_codeInv {s : State} (h : s.TreeInv) (hvalid : s.status.treeValid = true) :
    State.CodeInv { s with
      ctab := codeTable (treeCodes s.nodes s.root)
      maxCodeLen := BitVec.ofNat 8 (maxLen (codeTable (treeCodes s.nodes s.root)))
      status := { s.status with ctabValid := true } } := by
  obtain ⟨htree, -, hroot, -⟩ := h.valid hvalid
  have hmax : (BitVec.ofNat 8 (maxLen (codeTable (treeCodes s.nodes s.root)))).toNat =
      maxLen (codeTable (treeCodes s.nodes s.root)) := by
    have := htree.maxLen_codeTable_le hroot
    rw [BitVec.toNat_ofNat]; omega
  constructor
  case needsTree => exact fun _ => hvalid
  case exact => exact fun _ => htree.entryAt_codeTable hroot
  case bounded =>
    intro _ v c hc
    have := codeLen_le_maxLen (codeTable (treeCodes s.nodes s.root)) v
    rw [hc, codeLen] at this
    rwa [hmax]
  case attained =>
    intro _
    obtain ⟨u, d, hu⟩ := htree.exists_code s.root
    rw [hmax]
    exact exists_length_eq_maxLen ((htree.entryAt_codeTable hroot u d).2 hu)
  case invalid => exact fun hv => by cases hv

/-- With CTAB and its registers zero there is no code table to speak of. -/
theorem codeInv_of_none {s : State}
    (h : s.codePart = (Vector.replicate 256 none, 0#8, false)) : s.CodeInv := by
  simp only [State.codePart, Prod.mk.injEq] at h
  obtain ⟨hctab, hlen, hvalid⟩ := h
  have hnot : s.status.ctabValid ≠ true := by simp [hvalid]
  exact
    { needsTree := fun hv => absurd hv hnot
      exact := fun hv => absurd hv hnot
      bounded := fun hv => absurd hv hnot
      attained := fun hv => absurd hv hnot
      invalid := fun _ => ⟨hctab, hlen⟩ }

/-- The invariant speaks of NODE, the tree registers, CTAB, MAX_CODE_LEN and the validity bits alone. -/
theorem State.CodeInv.of_same {s t : State} (h : s.CodeInv) (htree : t.treePart = s.treePart)
    (hcode : t.codePart = s.codePart) : t.CodeInv := by
  simp only [State.treePart, Prod.mk.injEq] at htree
  simp only [State.codePart, Prod.mk.injEq] at hcode
  obtain ⟨hnodes, -, -, hroot, -, htv⟩ := htree
  obtain ⟨hctab, hlen, hcv⟩ := hcode
  constructor
  · rw [hcv, htv]; exact h.needsTree
  · rw [hcv, hctab, hnodes, hroot]; exact h.exact
  · rw [hcv, hctab, hlen]; exact h.bounded
  · rw [hcv, hctab, hlen]; exact h.attained
  · rw [hcv, hctab, hlen]; exact h.invalid

theorem Commit.keeps_codeInv {j : Instr} {a b : State} (hc : Commit j a b) (htree : a.TreeInv) (h : a.CodeInv) :
    b.CodeInv := by
  cases hc with
  | codes _ hvalid => exact codes_codeInv htree hvalid
  | build | compressEmpty | decompressEmpty | clear => exact codeInv_of_none rfl
  | _ => exact h.of_same rfl rfl

theorem BusEffect.keeps_codePart {s t : State} {wa : WordAddr} {v : Word} (h : BusEffect s wa v t) :
    t.codePart = s.codePart := by
  cases h <;> rfl

/-- Settles O32: only CODES' commit makes a table, the exact one of the tree it finds; BUILD, InvalidateTree and reset take it
away, and nothing else writes it or the tree. -/
theorem stepKeepsCodeInv : Obligations.StepKeepsCodeInv := by
  intro s t htree hcode hst
  have hsame : ∀ {a b : State}, b.treePart = a.treePart → b.codePart = a.codePart →
      a.TreeInv ∧ a.CodeInv → b.TreeInv ∧ b.CodeInv :=
    fun ht hc ha => ⟨ha.1.of_same ht, ha.2.of_same ht hc⟩
  refine (step_preserves (P := fun a => a.TreeInv ∧ a.CodeInv) ?_ (fun _ => hsame rfl rfl) (fun _ _ _ _ => hsame rfl rfl)
    (fun _ _ => hsame rfl rfl) (fun _ _ => hsame rfl rfl)
    (fun _ _ _ _ he => hsame he.keeps_treePart he.keeps_codePart) ?_ ⟨htree, hcode⟩ hst).2
  · exact fun _ _ _ hc ha => ⟨hc.keeps_treeInv ha.1, hc.keeps_codeInv ha.1 ha.2⟩
  · exact fun a _ => ⟨(invalidateTree_treeInv a).of_same rfl, codeInv_of_none rfl⟩

/-- Settles O34: at reset no command is in flight, no tree and no code table is valid, and memory and output are empty. -/
theorem resetMeetsInvariants : Obligations.ResetMeetsInvariants :=
  ⟨⟨by decide, List.Pairwise.nil, fun _ hc => absurd hc List.not_mem_nil⟩, resetWith_lifeInv _,
    (invalidateTree_treeInv State.reset).of_same rfl, codeInv_of_none rfl, outInv_of_outLen_zero rfl⟩

end Sys2Proof.Machine
end

section
/-! The address map range by range (R61), and the addresses that name nothing: O15. -/

namespace Sys2Proof.Machine

theorem RegName.index_lt (r : RegName) : r.index < 18 := by cases r <;> decide

/-- The register page ends at CAP_OBUF (R23). -/
theorem le_of_regAt_none {k : Nat} (h : regAt k = none) : 18 ≤ k := by
  by_contra hk
  interval_cases k <;> cases h

/-- Legal capacities are at most the size of a buffer's window (R8, R61). -/
theorem Config.caps_le {c : Config} (h : c.wellFormed = true) :
    c.capIbuf ≤ 0x100000 ∧ c.capBbuf ≤ 0x100000 ∧ c.capObuf ≤ 0x100000 := by
  simp only [Config.wellFormed, capWellFormed, Bool.and_eq_true, decide_eq_true_eq] at h
  obtain ⟨⟨⟨-, hi⟩, -, hb⟩, -, ho⟩ := h
  exact ⟨hi, hb, ho⟩

theorem Buffer.cap_le {c : Config} (h : c.wellFormed = true) (b : Buffer) : b.cap c ≤ 0x100000 := by
  obtain ⟨hi, hb, ho⟩ := Config.caps_le h
  cases b with
  | ibuf => exact hi
  | bbuf => exact hb
  | obuf => exact ho

/-- Above the tables every address lies in the window of a buffer (R61). -/
theorem exists_window {a : Nat} (hlo : 0x100000 ≤ a) (hhi : a < 0x400000) :
    ∃ (b : Buffer) (off : Nat), a = b.base + off ∧ off < 0x100000 := by
  by_cases hi : a < 0x200000
  · exact ⟨.ibuf, a - 0x100000, by simp only [Buffer.base]; omega, by omega⟩
  · by_cases hb : a < 0x300000
    · exact ⟨.bbuf, a - 0x200000, by simp only [Buffer.base]; omega, by omega⟩
    · exact ⟨.obuf, a - 0x300000, by simp only [Buffer.base]; omega, by omega⟩

/-- Within a buffer's window the map answers what the window does (R61). -/
theorem locate_window (c : Config) (b : Buffer) {wa : WordAddr} {off : Nat} (haddr : 4 * wa.toNat = b.base + off)
    (hwin : off < 0x100000) : locate c wa = bufferWindow c b off := by
  have hoff : 4 * wa.toNat - b.base = off := by omega
  cases b <;> simp only [Buffer.base] at haddr hoff <;>
    simp (disch := omega) only [locate, if_neg, if_pos, hoff]

/-- The byte addresses at which the map can hold a location: a register's own, or the range of its table, of its buffer's
capacity, or of the reserved addresses (R23, R61). -/
def Location.within (c : Config) (a : Nat) : Location → Prop
  | .reg r => a = 4 * r.index
  | .freq _ => 0x400 ≤ a ∧ a < 0x800
  | .node _ _ => 0x4000 ≤ a ∧ a < 0x6000
  | .ctab _ _ => 0x8000 ≤ a ∧ a < 0xC000
  | .buffer b _ => b.base ≤ a ∧ a < b.base + b.cap c
  | .reserved => isReservedAddr c a

/-- A word of a buffer's window is within the capacity or reserved, whole words as both are. -/
theorem bufferWindow_within {c : Config} (hwf : c.wellFormed = true) (b : Buffer) {off : Nat} (halign : off % 4 = 0)
    (hwin : off < 0x100000) : (bufferWindow c b off).within c (b.base + off) := by
  have hcap := Buffer.cap_mod_four hwf b
  unfold bufferWindow
  split
  · exact ⟨by omega, by omega⟩
  · rename_i hfit
    simp only [Location.within]
    cases b <;> simp only [Buffer.base, Buffer.cap] at hfit hcap ⊢ <;> omega

/-- Every word address names a location of its own range. -/
theorem locate_within {c : Config} (hwf : c.wellFormed = true) (wa : WordAddr) :
    (locate c wa).within c (4 * wa.toNat) := by
  have hwa := wa.isLt
  by_cases hlow : 4 * wa.toNat < 0x100000
  · simp only [locate, if_pos hlow]
    split_ifs
    · split
      · rename_i hreg
        have := index_of_regAt hreg
        simp only [Location.within]
        omega
      · rename_i hreg
        have := le_of_regAt_none hreg
        simp only [Location.within]
        omega
    all_goals
      simp only [Location.within]
      omega
  · obtain ⟨b, off, haddr, hwin⟩ := exists_window (a := 4 * wa.toNat) (by omega) (by omega)
    have hbase : b.base % 4 = 0 := by cases b <;> rfl
    rw [locate_window c b haddr hwin, haddr]
    exact bufferWindow_within hwf b (by omega) hwin

/-- The address map answers reserved at every reserved address: no other location's range holds one. -/
theorem locate_reserved {c : Config} (hwf : c.wellFormed = true) {wa : WordAddr} (h : isReservedAddr c (4 * wa.toNat)) :
    locate c wa = .reserved := by
  have hin := locate_within hwf wa
  generalize locate c wa = loc at hin
  cases loc with
  | reserved => rfl
  | reg r =>
    have := r.index_lt
    simp only [Location.within] at hin
    omega
  | buffer b off =>
    have hcap := b.cap_le hwf
    cases b <;> simp only [Location.within, Buffer.base, Buffer.cap] at hin hcap <;> omega
  | freq | node | ctab =>
    simp only [Location.within] at hin
    omega

/-- Settles O15: the map places nothing at a reserved address. -/
theorem reservedAddressesInert : Obligations.ReservedAddressesInert := by
  intro s wa v hwf hres
  have hloc := locate_reserved hwf hres
  exact ⟨by simp [State.busRead, hloc, Location.readableBusy, State.readIdle], by simp [State.busWrite, hloc]⟩

end Sys2Proof.Machine
end

section
/-! Reads and writes of table and buffer words while idle (R66, R68 to R73): O16, O19, O20. -/

namespace Sys2Proof.Machine

/-! ### Tables -/

/-- Word w of entry i of NODE is at its offset (R72). -/
theorem locate_nodeAddr (c : Config) (i : NodeIx) (w : BitVec 2) :
    locate c (BitVec.ofNat 20 (0x1000 + 4 * i.toNat + w.toNat)) = .node i w := by
  have hi := i.isLt
  have hw := w.isLt
  have hwa : (BitVec.ofNat 20 (0x1000 + 4 * i.toNat + w.toNat)).toNat = 0x1000 + 4 * i.toNat + w.toNat := by
    rw [BitVec.toNat_ofNat]; omega
  have hix : BitVec.ofNat 9 ((4 * (0x1000 + 4 * i.toNat + w.toNat) - 0x4000) / 16) = i :=
    BitVec.eq_of_toNat_eq (by rw [BitVec.toNat_ofNat]; omega)
  have hword : BitVec.ofNat 2 ((4 * (0x1000 + 4 * i.toNat + w.toNat) - 0x4000) / 4) = w :=
    BitVec.eq_of_toNat_eq (by rw [BitVec.toNat_ofNat]; omega)
  simp only [locate, hwa, hix, hword]
  rw [if_neg (by omega), if_neg (by omega), if_neg (by omega), if_pos (by omega)]

/-- Word w of entry v of CTAB is at its offset (R73). -/
theorem locate_ctabAddr (c : Config) (v : Byte) (w : BitVec 4) :
    locate c (BitVec.ofNat 20 (0x2000 + 16 * v.toNat + w.toNat)) = .ctab v w := by
  have hv := v.isLt
  have hw := w.isLt
  have hwa : (BitVec.ofNat 20 (0x2000 + 16 * v.toNat + w.toNat)).toNat = 0x2000 + 16 * v.toNat + w.toNat := by
    rw [BitVec.toNat_ofNat]; omega
  have hix : BitVec.ofNat 8 ((4 * (0x2000 + 16 * v.toNat + w.toNat) - 0x8000) / 64) = v :=
    BitVec.eq_of_toNat_eq (by rw [BitVec.toNat_ofNat]; omega)
  have hword : BitVec.ofNat 4 ((4 * (0x2000 + 16 * v.toNat + w.toNat) - 0x8000) / 4) = w :=
    BitVec.eq_of_toNat_eq (by rw [BitVec.toNat_ofNat]; omega)
  simp only [locate, hwa, hix, hword]
  rw [if_neg (by omega), if_neg (by omega), if_neg (by omega), if_neg (by omega), if_neg (by omega), if_pos (by omega)]

/-- While idle a read answers what the location at its address holds (R62). -/
theorem busRead_idle {s : State} {wa : WordAddr} {loc : Location} (hidle : s.status.busy = false)
    (h : locate s.cfg wa = loc) : s.busRead wa = s.readIdle (Config.freeWord s.draws) loc := by
  simp [State.busRead, hidle, h]

/-- Settles O16: the three tables by their places in the address map. -/
theorem tableReads : Obligations.TableReads := fun s v i w2 w4 hidle =>
  ⟨busRead_idle hidle (locate_freqAddr s.cfg v), busRead_idle hidle (locate_nodeAddr s.cfg i w2),
    busRead_idle hidle (locate_ctabAddr s.cfg v w4)⟩

/-! ### Buffer words -/

/-- A buffer's word is at its offset from the buffer's base, within the capacity (R61, R68). -/
theorem locate_bufferAddr {c : Config} (hwf : c.wellFormed = true) (b : Buffer) {off : Nat} (halign : off % 4 = 0)
    (hfit : off + 4 ≤ b.cap c) : locate c (BitVec.ofNat 20 ((b.base + off) / 4)) = .buffer b off := by
  have hcap := b.cap_le hwf
  have hbase : b.base % 4 = 0 ∧ b.base ≤ 0x300000 := by cases b <;> decide
  have haddr : 4 * (BitVec.ofNat 20 ((b.base + off) / 4)).toNat = b.base + off := by
    rw [BitVec.toNat_ofNat]
    omega
  rw [locate_window c b haddr (by omega), bufferWindow, if_pos hfit]

/-- Lane j of a word made of four bytes is byte j (R66). -/
theorem extractLsb'_wordOfBytes (f : Nat → Byte) {j : Nat} (hj : j < 4) :
    (wordOfBytes (f 0) (f 1) (f 2) (f 3)).extractLsb' (8 * j) 8 = f j := by
  interval_cases j
  · exact BitVec.extractLsb'_append_eq_right
  · exact BitVec.extractLsb'_append_eq_of_le (by decide) |>.trans BitVec.extractLsb'_append_eq_right
  · exact BitVec.extractLsb'_append_eq_of_le (by decide) |>.trans <|
      BitVec.extractLsb'_append_eq_of_le (by decide) |>.trans BitVec.extractLsb'_append_eq_right
  · exact BitVec.extractLsb'_append_eq_of_le (by decide) |>.trans <|
      BitVec.extractLsb'_append_eq_of_le (by decide) |>.trans BitVec.extractLsb'_append_eq_left

/-- A word is its four lanes (R66). -/
theorem wordOfBytes_lanes (v : Word) :
    wordOfBytes (v.extractLsb' 0 8) (v.extractLsb' 8 8) (v.extractLsb' 16 8) (v.extractLsb' 24 8) = v := by
  rw [wordOfBytes, BitVec.extractLsb'_append_extractLsb'_eq_extractLsb' (by rfl),
    BitVec.extractLsb'_append_extractLsb'_eq_extractLsb' (by rfl),
    BitVec.extractLsb'_append_extractLsb'_eq_extractLsb' (by rfl)]
  exact BitVec.extractLsb'_eq_self

/-- Settles O19: the word at offset o is made of the bytes o to o + 3, and a byte with a value needs no draw. -/
theorem bufferWordReads : Obligations.BufferWordReads := by
  intro s b o hwf hidle halign hfit j hj byte hbyte
  rw [busRead_idle hidle (locate_bufferAddr hwf b halign hfit)]
  refine (extractLsb'_wordOfBytes (fun k => drawnByte (s.bufByte b (o + k)) (Config.freeWord s.draws) k) hj).trans ?_
  simp [hbyte, drawnByte]

/-- Byte j of a word's four bytes is its lane j (R66). -/
theorem getElem_bytesOfWord (v : Word) {j : Nat} (hj : j < 4) : (bytesOfWord v)[j]'hj = v.extractLsb' (8 * j) 8 := by
  interval_cases j <;> rfl

/-- A buffer word whose four bytes are the lanes of v reads as v (R66). -/
theorem bufferWord_eq_of_lanes {s : State} {b : Buffer} {off : Nat} {v : Word}
    (h : ∀ j, j < 4 → s.bufByte b (off + j) = some (v.extractLsb' (8 * j) 8)) (draw : Word) :
    s.bufferWord b off draw = v := by
  have h0 := h 0 (by decide)
  have h1 := h 1 (by decide)
  have h2 := h 2 (by decide)
  have h3 := h 3 (by decide)
  rw [Nat.add_zero] at h0
  rw [State.bufferWord, h0, h1, h2, h3]
  exact wordOfBytes_lanes v

/-- A write to a word of IBUF or BBUF while idle is the write of its four bytes (R69). -/
theorem busWrite_buffer_idle {s : State} {wa : WordAddr} {b : Buffer} {off : Nat} (v : Word) (hidle : s.status.busy = false)
    (hloc : locate s.cfg wa = .buffer b off) (hb : b ≠ .obuf) :
    s.busWrite wa v = { s with mem := s.mem.writeBytes (b.base + off) (bytesOfWord v) } := by
  cases b with
  | obuf => exact absurd rfl hb
  | ibuf | bbuf => simp [State.busWrite, hloc, State.writeBuffer, State.protectedWrite, hidle]

/-- Settles O20: the write is a run of four byte writes at the word's place, and the read there finds the four lanes again. -/
theorem bufferWordWrites : Obligations.BufferWordWrites := by
  intro s b o v hwf hidle halign hfit
  have hloc := locate_bufferAddr hwf b halign hfit
  refine ⟨fun hb => ?_, fun hb => by subst hb; simp [State.busWrite, hloc, State.writeBuffer]⟩
  rw [busWrite_buffer_idle v hidle hloc hb]
  have hlanes : ∀ j, j < 4 → ({ s with mem := s.mem.writeBytes (b.base + o) (bytesOfWord v) } : State).bufByte b (o + j) =
      some (v.extractLsb' (8 * j) 8) := fun j hj => by
    rw [State.bufByte, ← Nat.add_assoc]
    exact (Memory.read_writeBytes_inside _ _ _ _ hj).trans (congrArg some (getElem_bytesOfWord v hj))
  have hframe : ∀ a, (a < b.base + o ∨ b.base + o + 4 ≤ a) →
      (s.mem.writeBytes (b.base + o) (bytesOfWord v)).read a = s.mem.read a := fun a ha =>
    Memory.read_writeBytes_outside _ _ ha
  have hback := (busRead_idle (s := { s with mem := s.mem.writeBytes (b.base + o) (bytesOfWord v) }) hidle hloc).trans
    (bufferWord_eq_of_lanes hlanes _)
  exact ⟨hlanes, hframe, rfl, hback⟩

end Sys2Proof.Machine
end

section
/-! Bus accesses while a command is in flight (R74, R75): O22, O23. -/

namespace Sys2Proof.Machine

/-- A write to a protected address while a command is in flight is dropped and sets OVR (R74). -/
theorem busWrite_protected_busy {s : State} {wa : WordAddr} (v : Word) (hwf : s.cfg.wellFormed = true)
    (hbusy : s.status.busy = true) (hprot : isProtectedAddr s.cfg (4 * wa.toNat)) :
    s.busWrite wa v = { s with status := { s.status with ovr := true } } := by
  obtain ⟨hi, hb, -⟩ := Config.caps_le hwf
  have hin := locate_within hwf wa
  have hdrop : ∀ w, s.protectedWrite w = { s with status := { s.status with ovr := true } } := fun w => by
    simp [State.protectedWrite, hbusy]
  unfold State.busWrite
  generalize locate s.cfg wa = loc at hin
  cases loc with
  | reg r =>
    cases r with
    | cmd | inLen | bitCnt => exact hdrop _
    | _ =>
      simp only [Location.within, RegName.index] at hin
      omega
  | freq x => exact hdrop _
  | buffer b off =>
    cases b with
    | ibuf | bbuf => exact hdrop _
    | obuf =>
      simp only [Location.within, Buffer.base] at hin
      omega
  | node | ctab | reserved =>
    simp only [Location.within] at hin
    omega

/-- Settles O22: a protected write is dropped; of the effects of a bus write only the dropped one acts at a protected address
and, in flight, only STATUS and CTRL act elsewhere. -/
theorem busyWrites : Obligations.BusyWrites := by
  intro s wa x hwf hbusy
  refine ⟨busWrite_protected_busy x hwf hbusy, fun haddr => ?_, fun haddr => ?_, fun hprot hstatus hctrl => ?_⟩
  · obtain rfl : wa = 0x02#20 := BitVec.eq_of_toNat_eq (Nat.eq_of_mul_eq_mul_left (by decide : 0 < 4) haddr)
    exact busWrite_reg s .status x
  · obtain rfl : wa = 0x03#20 := BitVec.eq_of_toNat_eq (Nat.eq_of_mul_eq_mul_left (by decide : 0 < 4) haddr)
    exact busWrite_reg s .ctrl x
  · have heff := busWrite_effect s wa x
    generalize s.busWrite wa x = t at heff
    cases heff with
    | ignored => rfl
    | dropped _ haddr => exact absurd haddr hprot
    | status haddr => exact absurd haddr hstatus
    | ctrl haddr => exact absurd haddr hctrl
    | accepted hidle | inLen hidle | bitCnt hidle | freq _ hidle | buffer hidle => simp [hbusy] at hidle

/-- The registers that are readable in flight are the first four and the last three (R75). -/
theorem RegName.readableBusy_iff (r : RegName) : r.readableBusy = true ↔ r.index < 4 ∨ 15 ≤ r.index := by
  cases r <;> decide

theorem busRead_readable {s : State} {r : RegName} (h : r.readableBusy = true) :
    s.busRead (BitVec.ofNat 20 r.index) = s.regWord r := by
  simp [State.busRead, State.readIdle, Location.readableBusy, h]

/-- What the map holds at an address of R75's drawn ranges does not read as when idle. -/
theorem locate_drawn {c : Config} {wa : WordAddr} (hwf : c.wellFormed = true) (h : isDrawnAddr c (4 * wa.toNat)) :
    (locate c wa).readableBusy = false := by
  have hin := locate_within hwf wa
  generalize locate c wa = loc at hin
  cases loc with
  | reg r =>
    have hr := r.readableBusy_iff
    have := r.index_lt
    simp only [Location.within] at hin
    simp only [Location.readableBusy, Bool.eq_false_iff, ne_eq, hr]
    omega
  | reserved =>
    obtain ⟨hi, hb, ho⟩ := Config.caps_le hwf
    simp only [Location.within] at hin
    omega
  | freq | node | ctab | buffer => rfl

/-- Settles O23: the readable registers by their places in the map, reserved addresses as in every state, and the drawn ranges
hold nothing readable. -/
theorem busyReads : Obligations.BusyReads := by
  intro s wa hwf hbusy
  refine ⟨busRead_readable (r := .id) rfl, busRead_readable (r := .cmd) rfl, busRead_readable (r := .status) rfl,
    busRead_readable (r := .ctrl) rfl, busRead_readable (r := .capIbuf) rfl, busRead_readable (r := .capBbuf) rfl,
    busRead_readable (r := .capObuf) rfl, fun hres => (reservedAddressesInert s wa 0#32 hwf hres).1, fun hdrawn => ?_⟩
  simp [State.busRead, hbusy, locate_drawn hwf hdrawn]

end Sys2Proof.Machine
end

section
/-! Host accesses as steps (R62, R64, R105): O5, O6. -/

namespace Sys2Proof.Machine

/-- While no completion is due and the host has a line left, the host moves (R78, R122, log 2). -/
theorem step_eq_hostStep {s : State} {op : HostOp} {rest : List HostOp} (hmark : s.faultMark = none)
    (hturn : s.status.busy = false ∨ s.delay ≠ 0) (hhost : s.host = op :: rest) : step s = hostStep s := by
  have : s.turn = .host := by
    unfold State.turn
    rcases hturn with h | h <;> simp [h, hhost]
  simp [step, hmark, this]

theorem hostStep_wr {s : State} {a : Addr} {width : Nat} {v : Word} {rest : List HostOp}
    (hhost : s.host = .wr a width v :: rest) : hostStep s = s.hostTransact (.wr a width v) rest := by
  simp [hostStep, hhost]

theorem hostStep_rd {s : State} {a : Addr} {width : Nat} {rest : List HostOp}
    (hhost : s.host = .rd a width :: rest) : hostStep s = s.hostTransact (.rd a width) rest := by
  simp [hostStep, hhost]

/-- Bits 21:2 of an aligned address name the word at that address (R105). -/
theorem four_mul_wordAddrOf {a : Addr} (halign : a.toNat % 4 = 0) : 4 * (wordAddrOf a).toNat = a.toNat := by
  have ha := a.isLt
  rw [wordAddrOf, BitVec.extractLsb'_toNat, Nat.shiftRight_eq_div_pow, Nat.mod_eq_of_lt (by omega)]
  omega

/-- An access is well-formed exactly when it is an aligned word (R64). -/
theorem accessWellFormed_iff {a : Addr} {width : Nat} : accessWellFormed a width = true ↔ width = 4 ∧ a.toNat % 4 = 0 := by
  simp [accessWellFormed]

/-- Settles O5: the host moves, and its line spells the transaction at the address's word. -/
theorem stepRunsHostAccess : Obligations.StepRunsHostAccess := by
  intro s a v rest hmark hturn halign
  have hwf : accessWellFormed a 4 = true := accessWellFormed_iff.2 ⟨rfl, halign⟩
  refine ⟨four_mul_wordAddrOf halign, fun hhost => ?_, fun hhost => ?_⟩
  · rw [step_eq_hostStep hmark hturn hhost, hostStep_wr hhost, State.hostTransact, HostOp.transaction, if_pos hwf]
    rfl
  · rw [step_eq_hostStep hmark hturn hhost, hostStep_rd hhost, State.hostTransact, HostOp.transaction, if_pos hwf]
    rfl

/-- Settles O6: such a line spells no transaction. -/
theorem nonWordAccessRefused : Obligations.NonWordAccessRefused := by
  intro s a width v rest hmark hturn hbad hhost
  have hwf : ¬ accessWellFormed a width = true := fun h => by
    obtain ⟨hwidth, halign⟩ := accessWellFormed_iff.1 h
    omega
  rcases hhost with hhost | hhost
  · rw [step_eq_hostStep hmark hturn hhost, hostStep_wr hhost, State.hostTransact, HostOp.transaction, if_neg hwf]
  · rw [step_eq_hostStep hmark hturn hhost, hostStep_rd hhost, State.hostTransact, HostOp.transaction, if_neg hwf]

end Sys2Proof.Machine
end

section
/-! The decoder and the encoder of commands (R90, R92, R95, R96): O2. -/

namespace Sys2Proof.Machine

/-- A word is its RSV field above its OP field (R90). -/
theorem rsvField_append_opField (w : Word) : rsvField w ++ opField w = w := by
  rw [rsvField, opField, BitVec.extractLsb'_append_extractLsb'_eq_extractLsb' (by rfl)]
  exact BitVec.extractLsb'_eq_self

theorem opField_encode (i : Instr) : opField (encode i) = opcode i := BitVec.extractLsb'_append_eq_right

theorem rsvField_encode (i : Instr) : rsvField (encode i) = 0#24 := BitVec.extractLsb'_append_eq_left

/-- A command's word is the one word with zeros in RSV and its opcode in OP (R90, R95). -/
theorem eq_encode_iff {w : Word} {i : Instr} : w = encode i ↔ rsvField w = 0#24 ∧ opField w = opcode i := by
  constructor
  · rintro rfl
    exact ⟨rsvField_encode i, opField_encode i⟩
  · rintro ⟨hrsv, hop⟩
    rw [← rsvField_append_opField w, hrsv, hop, encode]

@[simp] theorem decodeOp_opcode (i : Instr) : decodeOp (opcode i) = some i := by
  cases i <;> rfl

/-- An opcode above 0x08 is unassigned (R95, R96). -/
theorem decodeOp_eq_none_of_lt {op : Byte} (h : 8 < op.toNat) : decodeOp op = none := by
  unfold decodeOp
  split
  case h_10 => rfl
  all_goals omega

/-- Every opcode up to 0x08 is a command's (R95). -/
theorem exists_opcode_of_le {op : Byte} (h : op.toNat ≤ 8) : ∃ i, op = opcode i := by
  have hdecoded : ∀ k ≤ 8, BitVec.ofNat 8 k = opcode ((decodeOp (BitVec.ofNat 8 k)).getD .nop) := by decide
  exact ⟨(decodeOp op).getD .nop, by simpa using hdecoded op.toNat h⟩

theorem decode_encode (i : Instr) : decode (encode i) = .ok i := by
  simp [decode, rsvField_encode, opField_encode]

/-- A word with a reserved bit set or an opcode above 0x08 is BadCommand (R92, R96). -/
theorem decode_bad {w : Word} (h : rsvField w ≠ 0#24 ∨ 8 < (opField w).toNat) : decode w = .error (.badCommand w) := by
  unfold decode
  split
  · rfl
  · rename_i hrsv
    rw [decodeOp_eq_none_of_lt (h.resolve_left hrsv)]

/-- Any other word is a command's (R92, R95). -/
theorem exists_encode {w : Word} (h : ¬(rsvField w ≠ 0#24 ∨ 8 < (opField w).toNat)) : ∃ i, w = encode i := by
  obtain ⟨hrsv, hle⟩ := not_or.1 h
  obtain ⟨i, hop⟩ := exists_opcode_of_le (not_lt.1 hle)
  exact ⟨i, eq_encode_iff.2 ⟨not_not.1 hrsv, hop⟩⟩

theorem decode_eq_badCommand_iff {w : Word} :
    decode w = .error (.badCommand w) ↔ rsvField w ≠ 0#24 ∨ 8 < (opField w).toNat := by
  refine ⟨fun hbad => ?_, decode_bad⟩
  by_contra h
  obtain ⟨i, rfl⟩ := exists_encode h
  rw [decode_encode] at hbad
  cases hbad

/-- Settles O2: a word that is not bad is a command's, and decoding a command's word gives that command back. -/
theorem decodeIsTotalAndExact : Obligations.DecodeIsTotalAndExact := by
  refine ⟨fun w => ?_, fun _ => decode_eq_badCommand_iff, decode_encode⟩
  by_cases h : rsvField w ≠ 0#24 ∨ 8 < (opField w).toNat
  · refine .inr ⟨decode_bad h, ?_⟩
    rintro j rfl
    exact absurd ((decode_encode j).symm.trans (decode_bad h)) (by simp)
  · obtain ⟨i, rfl⟩ := exists_encode h
    refine .inl ⟨i, decode_encode i, rfl, fun j hj => ?_⟩
    exact Except.ok.inj ((decode_encode j).symm.trans ((congrArg decode hj).symm.trans (decode_encode i)))

end Sys2Proof.Machine
end

section
/-! The program lines CMD, RUN and WRBYTES (R104): O3. -/

namespace Sys2Proof.Machine

/-- Word m of the bytes of a WRBYTES line, a missing byte taken as 0x00 (R104). -/
def lineWord (bytes : List Byte) (m : Nat) : Word :=
  wordOfBytes (bytes.getD (4 * m) 0#8) (bytes.getD (4 * m + 1) 0#8) (bytes.getD (4 * m + 2) 0#8) (bytes.getD (4 * m + 3) 0#8)

theorem lineWord_succ (bytes : List Byte) (m : Nat) : lineWord bytes (m + 1) = lineWord (bytes.drop 4) m := by
  simp only [lineWord, List.getD_eq_getElem?_getD, List.getElem?_drop]
  congr 3 <;> omega

/-- WRBYTES with bytes left writes one word and goes on four bytes further (R104). -/
theorem expandBytes_of_ne_nil (a : Addr) {bytes : List Byte} (h : bytes ≠ []) :
    expandBytes a bytes = .wr a 4 (lineWord bytes 0) :: expandBytes (a + 4#22) (bytes.drop 4) := by
  match bytes, h with
  | [_], _ | [_, _], _ | [_, _, _], _ | _ :: _ :: _ :: _ :: _, _ => rfl

/-- The writes of WRBYTES, one for each word (R104). -/
theorem expandBytes_eq_map (a : Addr) (bytes : List Byte) :
    expandBytes a bytes =
      (List.range (ceilDiv bytes.length 4)).map (fun m => .wr (a + BitVec.ofNat 22 (4 * m)) 4 (lineWord bytes m)) := by
  induction hn : ceilDiv bytes.length 4 generalizing a bytes with
  | zero =>
    have : bytes = [] := List.eq_nil_of_length_eq_zero (by rw [ceilDiv] at hn; omega)
    subst this
    rfl
  | succ n ih =>
    have hne : bytes ≠ [] := by rintro rfl; cases hn
    have hrest : ceilDiv (bytes.drop 4).length 4 = n := by
      rw [ceilDiv] at hn ⊢
      rw [List.length_drop]
      omega
    have haddr (m : Nat) : a + 4#22 + BitVec.ofNat 22 (4 * m) = a + BitVec.ofNat 22 (4 * (m + 1)) := by
      rw [BitVec.add_assoc, ← BitVec.ofNat_add, Nat.mul_succ, Nat.add_comm]
    rw [expandBytes_of_ne_nil a hne, ih _ _ hrest, List.range_succ_eq_map, List.map_cons, List.map_map]
    simp [Function.comp_def, lineWord_succ, haddr]

/-- Settles O3: CMD and RUN by definition, WRBYTES by its writes word by word. -/
theorem pseudoInstructionsExpand : Obligations.PseudoInstructionsExpand := by
  refine ⟨fun i => ⟨rfl, rfl⟩, fun a bytes => ?_⟩
  rw [expandLine, expandBytes_eq_map]
  refine ⟨by simp, fun m hm => ?_⟩
  rw [List.getElem?_map, List.getElem?_range hm]
  rfl

end Sys2Proof.Machine
end

section
/-! The words of NODE and CTAB entries (R101, R102): O17, O18. -/

namespace Sys2Proof.Machine

/-- Bits above the low part of a concatenation are the high part's. -/
theorem extractLsb'_append_above {m n : Nat} (x : BitVec m) (y : BitVec n) (s w : Nat) :
    (x ++ y).extractLsb' (n + s) w = x.extractLsb' s w := by
  rw [BitVec.extractLsb'_append_eq_of_le (by omega), Nat.add_sub_cancel_left]

/-- The four parts of a concatenation, found again from the lowest up. -/
theorem extractLsb'_append_four {k l m n : Nat} (a : BitVec k) (b : BitVec l) (c : BitVec m) (d : BitVec n) :
    (a ++ b ++ c ++ d).extractLsb' 0 n = d ∧ (a ++ b ++ c ++ d).extractLsb' n m = c ∧
      (a ++ b ++ c ++ d).extractLsb' (n + m) l = b ∧ (a ++ b ++ c ++ d).extractLsb' (n + (m + l)) k = a := by
  refine ⟨BitVec.extractLsb'_append_eq_right, ?_, ?_, ?_⟩
  · exact (extractLsb'_append_above _ d 0 m).trans BitVec.extractLsb'_append_eq_right
  · rw [extractLsb'_append_above]
    exact (extractLsb'_append_above _ c 0 l).trans BitVec.extractLsb'_append_eq_right
  · rw [extractLsb'_append_above, extractLsb'_append_above, BitVec.extractLsb'_append_eq_left]

/-- KIND is bit 0 of word 2 (R101). -/
theorem getLsbD_word_kind (n : Node) : (n.word 2#2).getLsbD 0 = n.kind.getLsbD 0 := by
  have hword : n.word 2#2 = 0#16 ++ n.sym ++ 0#7 ++ n.kind := rfl
  rw [hword, BitVec.getLsbD_append, if_pos (by decide)]

/-- Settles O17: words 2 and 3 are concatenations of four parts, two of them fields and two zero. -/
theorem nodeWordLayout : Obligations.NodeWordLayout := by
  intro n
  obtain ⟨-, hzero2, hsym, htop2⟩ := extractLsb'_append_four 0#16 n.sym 0#7 n.kind
  obtain ⟨hleft, hzero3, hright, htop3⟩ := extractLsb'_append_four 0#7 n.right 0#7 n.left
  refine ⟨rfl, (BitVec.setWidth_eq_append (by decide)).symm, (getLsbD_word_kind n).trans ?_, hsym, hzero2, htop2, hleft,
    hright, hzero3, htop3⟩
  cases n <;> simp [Node.kind]

/-- Element j of a code is in word 1 + j div 32 (R102). -/
theorem getLsbD_codeWord (code : BitString) {j : Nat} (hj : j < 256) :
    (codeWord (some code) (BitVec.ofNat 4 (1 + j / 32))).getLsbD (31 - j % 32) = code.getD j false := by
  have hw : (BitVec.ofNat 4 (1 + j / 32)).toNat = 1 + j / 32 := by
    rw [BitVec.toNat_ofNat]
    omega
  have hword : codeWord (some code) (BitVec.ofNat 4 (1 + j / 32)) = packBits 32 (code.drop (32 * (j / 32))) := by
    rw [codeWord, hw, if_neg (by omega), if_pos (by omega), Nat.add_sub_cancel_left]
  rw [hword, getLsbD_packBits 32 _ _ (Nat.mod_lt j (by decide))]
  simp [List.getD_eq_getElem?_getD, Nat.div_add_mod]

/-- Settles O18: word 0 is its concatenation, words 1 to 8 are the packed code, and the rest is zero by definition. -/
theorem codeWordLayout : Obligations.CodeWordLayout := by
  intro code _
  have hword : codeWord (some code) 0#4 = 1#1 ++ 0#23 ++ BitVec.ofNat 8 code.length := rfl
  refine ⟨?_, ?_, ?_, fun j => getLsbD_codeWord code, fun w hw => ?_, fun _ => rfl⟩
  · rw [hword, BitVec.getLsbD_append, BitVec.getLsbD_append]
    rfl
  · exact BitVec.extractLsb'_append_eq_right
  · exact (extractLsb'_append_above _ _ 0 23).trans BitVec.extractLsb'_append_eq_right
  · rw [codeWord, if_neg (by omega), if_neg (by omega)]

end Sys2Proof.Machine
end

section
/-! The core's completion as a step (R122): O7, and the end of the program line WAIT (R104): O12. -/

namespace Sys2Proof.Machine

/-- When a completion is due the core moves (R122, log 2). -/
theorem step_eq_coreStep {s : State} (hmark : s.faultMark = none) (hbusy : s.status.busy = true)
    (hdue : s.delay = 0 ∨ s.host = []) : step s = coreStep s := by
  have : s.turn = .core := by
    unfold State.turn
    rcases hdue with h | h <;> simp [h, hbusy]
  simp [step, hmark, this]

/-- Settles O7: the pending word decodes to BadCommand. -/
theorem badCommandCompletes : Obligations.BadCommandCompletes := by
  intro s hmark hbusy hdue hbad
  rw [step_eq_coreStep hmark hbusy hdue, coreStep, decode_bad hbad]
  rfl

/-! ### What a completion leaves -/

theorem coreStep_ne_refused (s : State) (r : Refusal) : coreStep s ≠ .refused r := by
  rcases coreStep_cases s with ⟨i, -, he⟩ | ⟨-, he⟩ <;> rw [he]
  · rw [exec_eq_complete]
    exact OpOut.complete_ne_refused _ r
  · exact nofun

/-- A completion clears BUSY and sets DONE (R125, R126). -/
theorem coreStep_completes {s t : State} (h : coreStep s = .next t) : t.status.busy = false ∧ t.status.done = true := by
  rcases coreStep_cases s with ⟨i, -, he⟩ | ⟨-, he⟩ <;> rw [he] at h
  · rw [exec_eq_complete] at h
    rcases OpOut.complete_cases h with ⟨a, -, rfl⟩ | ⟨a, op, cause, info, -, rfl⟩ <;> exact ⟨rfl, rfl⟩
  · cases h
    exact ⟨rfl, rfl⟩

theorem coreStep_keeps_surroundings {s t : State} (h : coreStep s = .next t) : t.surroundings = s.surroundings := by
  rcases coreStep_cases s with ⟨i, -, he⟩ | ⟨-, he⟩ <;> rw [he] at h
  · exact exec_keeps_surroundings h
  · cases h
    rfl

/-! ### WAIT -/

/-- A step of WAIT: a recorded read of STATUS, which stays at the line while BUSY = 1 (R104). -/
theorem step_wait {s : State} {rest : List HostOp} (hmark : s.faultMark = none)
    (hturn : s.status.busy = false ∨ s.delay ≠ 0) (hhost : s.host = .wait :: rest) :
    step s = .next ((s.hostAdvance (if s.status.busy then .wait :: rest else rest)).hostRead statusWordAddr) := by
  rw [step_eq_hostStep hmark hturn hhost, hostStep, hhost]

theorem run_core_succ_of_next {s t : State} (h : step s = .next t) (k : Nat) :
    Host.Core.run core (k + 1) s = Host.Core.run core k t := by
  simp only [Host.Core.run, core, h]

theorem run_core_succ_of_fault {s : State} {f : Fault} (h : step s = .fault f) (k : Nat) :
    Host.Core.run core (k + 1) s = .fault f := by
  simp only [Host.Core.run, core, h]

/-- Settles O12, by induction on the delay: a step of WAIT with delay left comes to the same situation with less; without, the
core completes and the next read of STATUS ends the line. -/
theorem waitEnds : Obligations.WaitEnds := by
  intro s rest hmark hbusy hhost
  induction hd : s.delay generalizing s with
  | zero =>
    have hcore := step_eq_coreStep hmark hbusy (.inl hd)
    cases hc : coreStep s with
    | next t =>
      have hkept := coreStep_keeps_surroundings hc
      have hmark' : t.faultMark = none := (congrArg (·.2.2.1) hkept).trans hmark
      have hhost' : t.host = .wait :: rest := (congrArg (·.2.2.2.1) hkept).trans hhost
      obtain ⟨hidle, hdone⟩ := coreStep_completes hc
      rw [run_core_succ_of_next (hcore.trans hc), run_core_succ_of_next (step_wait hmark' (.inl hidle) hhost')]
      exact ⟨by simp [hidle], hidle, hdone⟩
    | fault f =>
      rw [run_core_succ_of_fault (hcore.trans hc)]
    | refused r => exact absurd hc (coreStep_ne_refused s r)
  | succ n ih =>
    have hdelay : s.delay ≠ 0 := by omega
    rw [run_core_succ_of_next (step_wait hmark (.inr hdelay) hhost)]
    exact ih _ hmark hbusy (by simp [hbusy]) (by simp [hd])

end Sys2Proof.Machine
end

section
/-! The completion of every command (R122, R124 to R126): what an error leaves and which OP it names, then O4, O26, O27. -/

namespace Sys2Proof.Machine

/-- Settles O4: the core moves, and the pending word is the command's. -/
theorem stepRunsDecodedCommand : Obligations.StepRunsDecodedCommand := by
  intro s i hmark hbusy hdue hdecode
  rw [step_eq_coreStep hmark hbusy hdue, coreStep, hdecode]

/-! ### Errors of operations -/

/-- If the operation ends in an error, what it leaves and the OP it names are so related. -/
def OpOut.Raises (Q : State → Byte → Prop) : OpOut → Prop
  | .done _ => True
  | .raised a op _ _ => Q a op
  | .fault _ => True

section
variable {Q Q' : State → Byte → Prop} {o : OpOut}

theorem OpOut.Raises.imp (h : o.Raises Q) (hQ : ∀ a op, Q a op → Q' a op) : o.Raises Q' := by
  cases o with
  | raised a op cause info => exact hQ a op h
  | _ => trivial

/-- An error of a composite is an error of one of its parts (R124). -/
theorem OpOut.Raises.andThen {k : State → OpOut} (ho : o.Raises Q) (hk : ∀ a, (k a).Raises Q) :
    (o.andThen k).Raises Q := by
  cases o with
  | done a => exact hk a
  | raised a op cause info => exact ho
  | fault f => trivial

end

/-- An error of a standalone command leaves the state as it was and names the command (R124, R125). -/
theorem opOf_raises_own {i : Instr} (hcompress : i ≠ .compress) (hdecompress : i ≠ .decompress) (s : State) :
    (opOf i s).Raises fun a op => a = s ∧ op = opcode i := by
  cases i with
  | nop | clear => trivial
  | count =>
    show (opCount s).Raises _
    rcases opCount_cases s with ⟨-, ho⟩ | ⟨-, -, ho⟩ | ⟨bytes, -, -, ho⟩ <;> rw [ho]
    · exact ⟨rfl, rfl⟩
    all_goals trivial
  | build =>
    show (opBuild s).Raises _
    rcases opBuild_cases s with ⟨v, -, ho⟩ | ⟨-, -, ho⟩ | ⟨-, -, ho⟩ <;> rw [ho]
    · exact ⟨rfl, rfl⟩
    · exact ⟨rfl, rfl⟩
    · trivial
  | codes =>
    show (opCodes s).Raises _
    rcases opCodes_cases s with ⟨-, ho⟩ | ⟨-, ho⟩ <;> rw [ho]
    · exact ⟨rfl, rfl⟩
    · trivial
  | encode =>
    show (opEncode s).Raises _
    rcases opEncode_cases s with ⟨cause, info, ho⟩ | ho | ⟨-, ho⟩ | ⟨bits, -, -, -, -, -, ho⟩ <;> rw [ho]
    · exact ⟨rfl, rfl⟩
    all_goals trivial
  | decode =>
    show (opDecode s).Raises _
    rcases opDecode_cases s with ⟨cause, info, ho⟩ | ho | ⟨-, ho⟩ | ⟨bytes, out, -, -, -, -, -, -, ho⟩ <;> rw [ho]
    · exact ⟨rfl, rfl⟩
    all_goals trivial
  | compress => exact absurd rfl hcompress
  | decompress => exact absurd rfl hdecompress

/-- Only COUNT to DECOMPRESS fail, and an error in a composite names the composite or a sub-operation of it (R95, R125). -/
theorem opOf_raises_op_le (i : Instr) (s : State) : (opOf i s).Raises fun _ op => op.toNat ≤ 7 := by
  have hown : ∀ j a, j ≠ .compress → j ≠ .decompress → (opcode j).toNat ≤ 7 →
      (opOf j a).Raises fun _ op => op.toNat ≤ 7 := by
    intro j a hc hd hle
    exact (opOf_raises_own hc hd a).imp fun _ op ⟨_, hop⟩ => hop ▸ hle
  cases i with
  | clear => trivial
  | compress =>
    show (opCompress s).Raises _
    rcases opCompress_cases s with ⟨ho, -⟩ | ⟨ho, -⟩ | ⟨bytes, -, -, ⟨-, ho⟩ | ⟨-, ho⟩⟩ <;> rw [ho]
    · show (0x01#8).toNat ≤ 7; decide
    · trivial
    · trivial
    · exact ((hown .build _ nofun nofun (by decide)).andThen fun a => hown .codes a nofun nofun (by decide)).andThen
        fun a => hown .encode a nofun nofun (by decide)
  | decompress =>
    show (opDecompress s).Raises _
    rcases opDecompress_cases s with ⟨cause, info, ho⟩ | ⟨-, -, ho⟩ | ⟨-, -, -, ho⟩ <;> rw [ho]
    · show (0x07#8).toNat ≤ 7; decide
    · trivial
    · refine (hown .build s nofun nofun (by decide)).andThen fun a => ?_
      rcases decodePhase_cases s.freqSum a with ⟨op, cause, info, ho, hop⟩ | ho | ⟨bytes, out, -, -, -, -, -, ho⟩ <;>
        rw [ho]
      · show op.toNat ≤ 7
        rcases hop with rfl | rfl <;> decide
      all_goals trivial
  | _ => exact hown _ s nofun nofun (by decide)

/-! ### Completions -/

/-- OVR, ERR and the error record: no commit writes them (R125, R126). -/
def State.errorPart (s : State) : Bool × Bool × Byte × Byte × Word :=
  (s.status.ovr, s.status.err, s.errCode, s.errOp, s.errInfo)

theorem Commits.keeps_errorPart {i : Instr} {s a : State} (h : Commits i s a) : a.errorPart = s.errorPart := by
  induction h with
  | refl => rfl
  | tail _ hab ih =>
    obtain ⟨j, -, hc⟩ := hab
    exact Eq.trans (by cases hc <;> rfl) ih

/-- How a command that answers a next state ends: a run of its commits, then a completion in success or in error (R122). -/
theorem exec_cases {i : Instr} {s t : State} (he : exec i s = .next t) :
    ∃ a, Commits i s a ∧ (t = a.completeOk ∨
      ∃ op cause info, opOf i s = .raised a op cause info ∧ t = a.completeErr op cause info) := by
  have hcommits := opOf_commits i s
  rw [exec_eq_complete] at he
  rcases OpOut.complete_cases he with ⟨a, ho, ht⟩ | ⟨a, op, cause, info, ho, ht⟩ <;> rw [ho] at hcommits
  · exact ⟨a, hcommits, .inl ht⟩
  · exact ⟨a, hcommits, .inr ⟨op, cause, info, ho, ht⟩⟩

/-- Settles O26: the commits leave OVR, ERR and the record alone, and the two completions end as stated. -/
theorem completionShape : Obligations.CompletionShape := by
  intro i s t he
  obtain ⟨a, hcommits, hend⟩ := exec_cases he
  have hkept := hcommits.keeps_errorPart
  simp only [State.errorPart, Prod.mk.injEq] at hkept
  obtain ⟨hovr, hrecord⟩ := hkept
  rcases hend with rfl | ⟨op, cause, info, ho, rfl⟩
  · exact ⟨rfl, rfl, rfl, hovr, .inl hrecord⟩
  · obtain ⟨hpos, hle⟩ := cause.code_range
    have hop := opOf_raises_op_le i s
    rw [ho] at hop
    exact ⟨rfl, rfl, rfl, hovr, .inr ⟨rfl, hpos, hle, hop⟩⟩

/-- Settles O27: success would keep ERR, and an error of the command alone completes the state it started from. -/
theorem errorWritesNothing : Obligations.ErrorWritesNothing := by
  intro i s t hcompress hdecompress hclear he herr
  obtain ⟨a, hcommits, rfl | ⟨op, cause, info, ho, rfl⟩⟩ := exec_cases he
  · have hkept : a.status.err = s.status.err := congrArg (·.2.1) hcommits.keeps_errorPart
    have herr' : a.status.err = true := herr
    simp [hkept, hclear] at herr'
  · have hown := opOf_raises_own hcompress hdecompress s
    rw [ho] at hown
    obtain ⟨rfl, rfl⟩ := hown
    rfl

end Sys2Proof.Machine
end

section
/-! The accept of a command while idle (R121), and the operands in flight (R79, R123): O8, O11. -/

namespace Sys2Proof.Machine

/-- Settles O8: the host moves, its write lands at CMD, and the latency is drawn. -/
theorem cmdWriteAccepts : Obligations.CmdWriteAccepts := by
  intro s w rest hmark hidle hhost
  obtain ⟨-, hwr, -⟩ := stepRunsHostAccess s 0x000004#22 w rest hmark (.inl hidle) (by decide)
  have hcmd : (0x000004#22).extractLsb' 2 20 = BitVec.ofNat 20 RegName.cmd.index := by decide
  refine ⟨Config.latency s.draws, ?_⟩
  rw [hwr hhost, hcmd, busWrite_reg]
  simp [State.writeReg, State.protectedWrite, hidle, State.accept, Status.accepted]

/-- What a command in flight reads, the parameters and BUSY (R79, R91, R123). -/
def State.operands (s : State) : Word × Word × Word × Vector Word 256 × Vector Node 512 × NodeIx × Vector CodeEntry 256 ×
    Memory × Config × Bool × Bool × Bool :=
  (s.pending, s.inLen, s.bitCnt, s.freq, s.nodes, s.root, s.ctab, s.mem, s.cfg, s.status.treeValid, s.status.ctabValid,
    s.status.busy)

/-- In flight a bus write is dropped, or writes flags or CTRL (R74). -/
theorem BusEffect.keeps_operands {s t : State} {wa : WordAddr} {v : Word} (h : BusEffect s wa v t)
    (hbusy : s.status.busy = true) : t.operands = s.operands := by
  cases h with
  | ignored | dropped | status | ctrl => rfl
  | accepted hidle | inLen hidle | bitCnt hidle | freq _ hidle | buffer hidle => simp [hbusy] at hidle

theorem hostStep_keeps_operands {s t : State} (hbusy : s.status.busy = true) (hrst : ∀ rest, s.host ≠ .rst :: rest)
    (h : hostStep s = .next t) : t.operands = s.operands := by
  rcases hostStep_block_cases h with
    rfl | ⟨rest, rfl⟩ | ⟨rest, wa, rfl⟩ | ⟨rest, a, wa, v, -, -, heff⟩ | ⟨rest, hhost, -⟩
  · rfl
  · rfl
  · rfl
  · exact heff.keeps_operands hbusy
  · exact absurd hhost (hrst rest)

/-- Settles O11: the step is the host's, and in flight a host step other than reset keeps the operands. -/
theorem operandsStableInFlight : Obligations.OperandsStableInFlight := by
  intro s t hbusy hturn hstep hrst
  obtain ⟨-, ⟨hcore, -⟩ | ⟨-, hhost⟩⟩ := step_cases hstep
  · simp [hturn] at hcore
  · simpa [State.operands, hbusy] using hostStep_keeps_operands hbusy hrst hhost

end Sys2Proof.Machine
end

section
/-! COUNT (R140): the operand IBUF as a byte string, the three ways the command ends, the FREQ table it writes, then O37 to
O39. -/

namespace Sys2Proof.Machine

/-! ### The input bytes -/

theorem inputBytes_eq_some {s : State} {bytes : List Byte} : s.inputBytes = some bytes ↔ s.holdsInput bytes :=
  Memory.readBytes_eq_some

theorem inputBytes_eq_none {s : State} : s.inputBytes = none ↔ ∃ i, i < s.inLen.toNat ∧ s.bufByte .ibuf i = none :=
  Memory.readBytes_eq_none

/-- Input whose bytes are all written is some byte string (R35). -/
theorem exists_holdsInput {s : State} (h : ∀ i, i < s.inLen.toNat → s.bufByte .ibuf i ≠ none) :
    ∃ bytes, s.holdsInput bytes := by
  cases hb : s.inputBytes with
  | some bytes => exact ⟨bytes, inputBytes_eq_some.1 hb⟩
  | none =>
    obtain ⟨i, hi, hnone⟩ := inputBytes_eq_none.1 hb
    exact absurd hnone (h i hi)

section
variable {s : State} {bytes : List Byte} (h : s.holdsInput bytes)
include h

theorem State.holdsInput.map_some : bytes.map some = (List.range s.inLen.toNat).map (s.bufByte .ibuf) := by
  obtain ⟨hlen, hbyte⟩ := h
  refine List.ext_getElem (by simp [hlen]) fun i hi _ => ?_
  rw [List.length_map] at hi
  simp [hbyte i hi]

/-- The occurrences of a byte in the string are the places of IBUF that hold it. -/
theorem State.holdsInput.count_eq (v : Byte) :
    bytes.count v = (List.range s.inLen.toNat).countP (fun i => s.bufByte .ibuf i == some v) :=
  calc bytes.count v = (bytes.map some).count (some v) :=
        (List.count_map_of_injective bytes some (Option.some_injective Byte) v).symm
    _ = ((List.range s.inLen.toNat).map (s.bufByte .ibuf)).count (some v) := by rw [h.map_some]
    _ = _ := List.countP_map

theorem State.holdsInput.mem_iff {v : Byte} : v ∈ bytes ↔ ∃ i, i < s.inLen.toNat ∧ s.bufByte .ibuf i = some v := by
  have hmem : some v ∈ bytes.map some ↔ some v ∈ (List.range s.inLen.toNat).map (s.bufByte .ibuf) := by rw [h.map_some]
  simpa using hmem

end

/-! ### The three ends of COUNT -/

theorem opCount_eq_raised {s : State} (h : s.cfg.capIbuf < s.inLen.toNat) :
    opCount s = .raised s 0x01#8 .inputTooLong s.inLen := by
  rcases opCount_cases s with ⟨-, ho⟩ | ⟨hle, -⟩ | ⟨bytes, hle, -⟩
  · exact ho
  all_goals exact absurd h (Nat.not_lt.2 hle)

theorem opCount_eq_fault {s : State} (hle : s.inLen.toNat ≤ s.cfg.capIbuf) (hnone : s.inputBytes = none) :
    opCount s = .fault .uninitRead := by
  rcases opCount_cases s with ⟨hlong, -⟩ | ⟨-, -, ho⟩ | ⟨bytes, -, hsome, -⟩
  · exact absurd hlong (Nat.not_lt.2 hle)
  · exact ho
  · simp [hnone] at hsome

theorem opCount_eq_done {s : State} {bytes : List Byte} (hle : s.inLen.toNat ≤ s.cfg.capIbuf) (h : s.holdsInput bytes) :
    opCount s = .done { s with freq := countTable bytes } := by
  rw [← inputBytes_eq_some] at h
  rcases opCount_cases s with ⟨hlong, -⟩ | ⟨-, hnone, -⟩ | ⟨bytes', -, hsome, ho⟩
  · exact absurd hlong (Nat.not_lt.2 hle)
  · simp [hnone] at h
  · obtain rfl : bytes' = bytes := Option.some.inj (hsome.symm.trans h)
    exact ho

/-- Within the capacity COUNT answers a next state only in success, with the input's FREQ table (R140). -/
theorem exec_count_eq_next {s t : State} (hle : s.inLen.toNat ≤ s.cfg.capIbuf) (he : exec .count s = .next t) :
    ∃ bytes, s.holdsInput bytes ∧ t = ({ s with freq := countTable bytes } : State).completeOk := by
  have hcomplete : (opCount s).complete = .next t := he
  cases hb : s.inputBytes with
  | none => simp [opCount_eq_fault hle hb] at hcomplete
  | some bytes =>
    rw [inputBytes_eq_some] at hb
    rw [opCount_eq_done hle hb] at hcomplete
    cases hcomplete
    exact ⟨bytes, hb, rfl⟩

/-! ### The FREQ table of a byte string -/

@[simp] theorem entryAt_countTable (bytes : List Byte) (v : Byte) :
    entryAt (countTable bytes) v = BitVec.ofNat 32 (bytes.count v) := by
  simp [countTable]

/-- A string shorter than the range of an entry is counted without wrapping. -/
theorem toNat_entryAt_countTable {bytes : List Byte} (h : bytes.length < 2 ^ 32) (v : Byte) :
    (entryAt (countTable bytes) v).toNat = bytes.count v := by
  rw [entryAt_countTable, BitVec.toNat_ofNat, Nat.mod_eq_of_lt (List.count_le_length.trans_lt h)]

/-- Nor does a count that is read signed wrap (R141). -/
theorem toInt_entryAt_countTable {bytes : List Byte} (h : bytes.length < 2 ^ 31) (v : Byte) :
    (entryAt (countTable bytes) v).toInt = bytes.count v := by
  have hle : bytes.count v ≤ bytes.length := List.count_le_length
  have hnat := toNat_entryAt_countTable (bytes := bytes) (by omega) v
  rw [BitVec.toInt_eq_toNat_of_lt (by omega), hnat]

theorem nodup_allBytes : allBytes.Nodup :=
  allBytes_ascending.imp fun hlt heq => by simp [heq] at hlt

/-- Every byte of a string has its value among the 256 (R141). -/
theorem sum_count_allBytes (bytes : List Byte) : (allBytes.map fun v => bytes.count v).sum = bytes.length := by
  rw [← List.sum_toFinset _ nodup_allBytes]
  have hall : ∀ v ∈ (bytes : Multiset Byte), v ∈ allBytes.toFinset := fun v _ => List.mem_toFinset.2 (mem_allBytes v)
  simpa only [Multiset.coe_count, Multiset.coe_card] using Multiset.sum_count_eq_card hall

/-- The counts of a string sum to its length (R141). -/
theorem freqSum_countTable {t : State} {bytes : List Byte} (hfreq : t.freq = countTable bytes)
    (h : bytes.length < 2 ^ 32) : t.freqSum = bytes.length := by
  simp only [freqSum_eq, hfreq, toNat_entryAt_countTable h, sum_count_allBytes]

/-! ### The statements -/

/-- Settles O37: the written input is a byte string, and its FREQ table counts the places of each value. -/
theorem countCounts : Obligations.CountCounts := by
  intro s hle hwritten
  obtain ⟨bytes, hinput⟩ := exists_holdsInput hwritten
  refine ⟨({ s with freq := countTable bytes } : State).completeOk, ?_, rfl, fun v => ?_⟩
  · exact congrArg OpOut.complete (opCount_eq_done hle hinput)
  · rw [← hinput.count_eq v]
    exact entryAt_countTable bytes v

/-- Settles O38: the error and the fault are two of the three ends of COUNT. -/
theorem countErrors : Obligations.CountErrors := fun _ =>
  ⟨fun hlong => congrArg OpOut.complete (opCount_eq_raised hlong),
    fun hle hnone => congrArg OpOut.complete (opCount_eq_fault hle (inputBytes_eq_none.2 hnone))⟩

/-- Settles O39: a legal capacity is far below the range of an entry, so the table holds the true counts. -/
theorem countMeetsFrequencyMap : Obligations.CountMeetsFrequencyMap := by
  intro s t hwf hle he
  obtain ⟨bytes, hinput, rfl⟩ := exec_count_eq_next hle he
  have hcap : s.cfg.capIbuf ≤ 0x100000 := Buffer.cap_le hwf .ibuf
  have ⟨hlen, _⟩ := hinput
  refine ⟨(freqSum_countTable rfl (by omega)).trans hlen, fun v => ?_⟩
  calc 0 < (entryAt (countTable bytes) v).toInt
      ↔ 0 < bytes.count v := by rw [toInt_entryAt_countTable (by omega)]; exact Int.natCast_pos
    _ ↔ v ∈ bytes := List.count_pos_iff
    _ ↔ _ := hinput.mem_iff

end Sys2Proof.Machine
end

section
/-! BUILD's checks (R150, R152): O42. -/

namespace Sys2Proof.Machine

/-- ERR_INFO of CorruptFrequencyMap as a number: SUB above the 28 bits of DETAIL (R221). -/
theorem toNat_corruptInfo (sub : BitVec 4) (detail : BitVec 28) :
    (corruptInfo sub detail).toNat = sub.toNat * 2 ^ 28 + detail.toNat := by
  have hword : (sub ++ detail : BitVec (4 + 28)).toNat = sub.toNat * 2 ^ 28 + detail.toNat := by
    rw [BitVec.toNat_append, ← Nat.shiftLeft_add_eq_or_of_lt detail.isLt, Nat.shiftLeft_eq]
  exact hword

/-- ERR_INFO for a byte value with a negative entry (R152, R221). -/
theorem corruptInfo_negative (v : Byte) : corruptInfo 3#4 (0#20 ++ v) = 0x30000000#32 + v.setWidth 32 := by
  have hdetail : (0#20 ++ v : BitVec (20 + 8)).toNat = v.toNat := by rw [BitVec.toNat_append]; simp
  apply BitVec.eq_of_toNat_eq
  rw [toNat_corruptInfo]
  have hv := v.isLt
  rw [BitVec.toNat_add, BitVec.toNat_setWidth, Nat.mod_eq_of_lt (by omega : v.toNat < 2 ^ 32)]
  calc _ = 3 * 2 ^ 28 + v.toNat := congrArg (3 * 2 ^ 28 + ·) hdetail
    _ = (0x30000000 + v.toNat) % 2 ^ 32 := by omega

/-- The check reports the smallest byte value with a negative entry (R152). -/
theorem firstNegative_eq_some {freq : Vector Word 256} {v : Byte} (hv : (entryAt freq v).msb = true)
    (hleast : ∀ u : Byte, u.toNat < v.toNat → (entryAt freq u).msb = false) : firstNegative freq = some v := by
  cases hfind : firstNegative freq with
  | none => simp [firstNegative_eq_none.1 hfind v] at hv
  | some u =>
    obtain ⟨hu, before, after, hsplit, hbefore⟩ := List.find?_eq_some_iff_append.1 (firstNegative_eq_find freq ▸ hfind)
    have hasc := (List.pairwise_append.1 (hsplit ▸ allBytes_ascending)).2.1
    have hmem : v ∈ before ++ u :: after := hsplit ▸ mem_allBytes v
    rcases List.mem_append.1 hmem with hv' | hv'
    · exact absurd hv (by simpa using hbefore v hv')
    · rcases List.mem_cons.1 hv' with rfl | hafter
      · rfl
      · have := hleast u (List.rel_of_pairwise_cons hasc hafter)
        simp [this] at hu

/-- Settles O42: the smallest negative entry is the one found first, and a table of zeros has no present symbol. -/
theorem buildErrors : Obligations.BuildErrors := by
  intro s
  refine ⟨fun v hv hleast => ?_, fun hzero => ?_⟩
  · have hfirst := firstNegative_eq_some hv hleast
    rcases opBuild_cases s with ⟨u, hu, ho⟩ | ⟨hnone, -⟩ | ⟨hnone, -⟩
    · obtain rfl : v = u := Option.some.inj (hfirst.symm.trans hu)
      rw [exec_eq_complete, opOf, ho, OpOut.complete_raised, corruptInfo_negative]
    all_goals simp [hfirst] at hnone
  · have hnone : firstNegative s.freq = none := firstNegative_eq_none.2 fun v => by simp [hzero v]
    rcases opBuild_cases s with ⟨u, hu, -⟩ | ⟨-, -, ho⟩ | ⟨-, hsome, -⟩
    · simp [hnone] at hu
    · rw [exec_eq_complete, opOf, ho, OpOut.complete_raised]
    · obtain ⟨v, hv⟩ := List.exists_mem_of_ne_nil _ hsome
      exact absurd (hzero v) (mem_presentSymbols.1 hv)

end Sys2Proof.Machine
end

section
/-! The order of BUILD's merges (R150, R154, R155): each takes the two least keys of its pool, and the committed NODE store
shows it: O40. -/

namespace Sys2Proof.Machine

/-! ### The two least keys -/

theorem PoolKey.before_iff {x y : PoolKey} :
    x.before y = true ↔ x.freq < y.freq ∨ (x.freq = y.freq ∧ x.idx < y.idx) := by
  simp [PoolKey.before]

/-- No key comes before the least. -/
theorem not_before_leastKey (x : PoolKey) (l : List PoolKey) : ∀ y ∈ x :: l, ¬ y.before (leastKey x l) = true := by
  induction l generalizing x with
  | nil => simp [leastKey, PoolKey.before]
  | cons z l ih =>
    simp only [leastKey, List.mem_cons, forall_eq_or_imp]
    split
    next hz =>
      have hrest := ih z
      simp only [List.mem_cons, forall_eq_or_imp] at hrest
      obtain ⟨hzleast, hl⟩ := hrest
      refine ⟨?_, hzleast, hl⟩
      rw [PoolKey.before_iff] at hz hzleast ⊢
      omega
    next hz =>
      have hrest := ih x
      simp only [List.mem_cons, forall_eq_or_imp] at hrest
      obtain ⟨hxleast, hl⟩ := hrest
      refine ⟨hxleast, ?_, hl⟩
      rw [PoolKey.before_iff] at hz hxleast ⊢
      omega

/-- An extraction takes the least key out of a pool that is not empty (R154). -/
theorem extractLeast_least {pool : List PoolKey} (h : pool ≠ []) :
    ∃ a rest, extractLeast pool = some (a, rest) ∧ pool.Perm (a :: rest) ∧ ∀ y ∈ rest, ¬ y.before a = true := by
  cases pool with
  | nil => contradiction
  | cons x xs =>
    exact ⟨_, _, rfl, List.perm_cons_erase (leastKey_mem x xs),
      fun y hy => not_before_leastKey x xs y (List.mem_of_mem_erase hy)⟩

/-- A merge takes the two least keys out of a pool that holds two or more, the least one first (R154). -/
theorem mergeOnce_least (store : List Node) {pool : List PoolKey} (h : 2 ≤ pool.length) :
    ∃ a b rest, pool.Perm (a :: b :: rest) ∧ ¬ b.before a = true ∧ (∀ y ∈ rest, ¬ y.before b = true) ∧
      mergeOnce store pool =
        some (store ++ [mergedNode a b], rest ++ [{ freq := a.freq + b.freq, idx := store.length }]) := by
  obtain ⟨a, pool1, ha, hperm1, hleast1⟩ := extractLeast_least (pool := pool) (by rintro rfl; simp at h)
  have hlen := hperm1.length_eq
  obtain ⟨b, rest, hb, hperm2, hleast2⟩ := extractLeast_least (pool := pool1) (by rintro rfl; simp at hlen; omega)
  exact ⟨a, b, rest, hperm1.trans (hperm2.cons a), hleast1 b (hperm2.mem_iff.2 (by simp)), hleast2,
    by simp [mergeOnce, ha, hb, mergedNode]⟩

/-! ### Merges as the NODE store shows them -/

/-- The NODE store holds the nodes of a scratch store, at their numbers (R157). -/
def Shows (nodes : Vector Node 512) (store : List Node) : Prop :=
  ∀ i, i < store.length → nodeNo nodes i = storeAt store i

theorem Shows.of_append {nodes : Vector Node 512} {store : List Node} {x : Node} (h : Shows nodes (store ++ [x])) :
    Shows nodes store ∧ nodeNo nodes store.length = x := by
  refine ⟨fun i hi => ?_, ?_⟩
  · rw [h i (by simp; omega), storeAt_append_of_lt x hi]
  · rw [h _ (by simp), storeAt_append_length]

theorem Shows.isChild_iff {nodes : Vector Node 512} {store : List Node} (h : Shows nodes store) {p c : Nat}
    (hp : p < store.length) : isChild nodes p c ↔ storeChild store p c := by
  rw [isChild, storeChild, h p hp]

theorem shows_committedNodes {n : Nat} {store : List Node} (hlen : store.length = 2 * n - 1) (hsize : n ≤ 256) :
    Shows (committedNodes n store) store :=
  fun _ hi => nodeNo_committedNodes hlen (by omega)

/-- Every node above the leaves is the merge of the two least of its pool, in any NODE store that holds the scratch store. -/
def MergesLeast (n : Nat) (store : List Node) : Prop :=
  ∀ nodes, Shows nodes store → ∀ k, n ≤ k → k < store.length → isMergeAt nodes n k

section
variable {leaves : List Node} {total : Nat} {store : List Node} {pool : List PoolKey} {nodes : Vector Node 512}

/-- The pool holds exactly the nodes that no merge so far took (R150). -/
theorem MergeInv.inPoolAt_iff (h : MergeInv leaves total store pool) (hleaves : ∀ p c, ¬ storeChild leaves p c)
    (hshows : Shows nodes store) (x : Nat) :
    inPoolAt nodes leaves.length store.length x ↔ x ∈ pool.map PoolKey.idx := by
  constructor
  · rintro ⟨hx, htaken⟩
    by_contra hnot
    obtain ⟨p, hp⟩ := h.parent x hx hnot
    have hplt := storeChild_lt_length hp
    refine htaken p ?_ hplt ((hshows.isChild_iff hplt).2 hp)
    by_contra hleaf
    exact hleaves p x (by rwa [storeChild, ← h.leavesKept p (by omega)])
  · intro hx
    obtain ⟨y, hy, rfl⟩ := List.mem_map.1 hx
    exact ⟨(h.keys y hy).1, fun j _ hj hc => h.noParent y hy j ((hshows.isChild_iff hj).1 hc)⟩

theorem MergeInv.freqNo_eq (h : MergeInv leaves total store pool) (hshows : Shows nodes store) {x : PoolKey}
    (hx : x ∈ pool) : freqNo nodes x.idx = x.freq := by
  obtain ⟨hlt, hfreq⟩ := h.keys x hx
  rw [freqNo, hshows _ hlt, hfreq]

/-- Pool elements are ordered as their keys (R150, R155). -/
theorem MergeInv.keyBefore_of_not_before (h : MergeInv leaves total store pool) (hshows : Shows nodes store)
    {x y : PoolKey} (hx : x ∈ pool) (hy : y ∈ pool) (hne : x.idx ≠ y.idx) (hbefore : ¬ y.before x = true) :
    keyBefore nodes x.idx y.idx := by
  rw [PoolKey.before_iff] at hbefore
  rw [keyBefore, h.freqNo_eq hshows hx, h.freqNo_eq hshows hy]
  omega

section
variable {a b : PoolKey} {rest : List PoolKey} (h : MergeInv leaves total store (a :: b :: rest))
  (hsize : leaves.length ≤ 256) (htotal : total < 2 ^ 40) (hleaves : ∀ p c, ¬ storeChild leaves p c)
  (hab : ¬ b.before a = true) (hrest : ∀ y ∈ rest, ¬ y.before b = true)
include h hsize htotal hleaves hab hrest

/-- A merge of the two least pool elements shows as such in the NODE store (R154, R155). -/
theorem MergeInv.isMergeAt_length (hshows : Shows nodes (store ++ [mergedNode a b])) :
    isMergeAt nodes leaves.length store.length := by
  obtain ⟨hold, hnew⟩ := hshows.of_append
  have hpool := h.inPoolAt_iff hleaves hold
  have hdistinct := h.distinct
  simp only [List.map_cons, List.nodup_cons, List.mem_cons, not_or] at hdistinct
  have hsum : freqNo nodes store.length = a.freq + b.freq :=
    (h.merge hsize htotal).freqNo_eq hshows (x := ⟨a.freq + b.freq, store.length⟩) (by simp)
  refine ⟨a.idx, b.idx, (hpool _).2 (by simp), (hpool _).2 (by simp), ?_, fun x hx hxa hxb => ?_, ?_, _, hnew⟩
  · exact h.keyBefore_of_not_before hold (by simp) (by simp) hdistinct.1.1 hab
  · obtain ⟨y, hy, rfl⟩ := List.mem_map.1 ((hpool x).1 hx)
    have hmem : y ∈ rest := by
      simp only [List.mem_cons] at hy
      rcases hy with rfl | rfl | hy
      · exact absurd rfl hxa
      · exact absurd rfl hxb
      · exact hy
    exact h.keyBefore_of_not_before hold (by simp) hy (Ne.symm hxb) (hrest y hmem)
  · rw [hsum, h.freqNo_eq hold (by simp), h.freqNo_eq hold (by simp)]

theorem MergesLeast.merge (hmerges : MergesLeast leaves.length store) :
    MergesLeast leaves.length (store ++ [mergedNode a b]) := by
  intro nodes hshows k hk hlt
  rcases Nat.lt_succ_iff_lt_or_eq.1 (by simpa using hlt) with hlt | rfl
  · exact hmerges nodes hshows.of_append.1 k hk hlt
  · exact h.isMergeAt_length hsize htotal hleaves hab hrest hshows

end

/-- All of BUILD's merges are of the two least keys. -/
theorem mergeAll_mergesLeast (hsize : leaves.length ≤ 256) (htotal : total < 2 ^ 40)
    (hleaves : ∀ p c, ¬ storeChild leaves p c) (fuel : Nat) :
    ∀ {store pool}, MergeInv leaves total store pool → pool.length = fuel + 1 → MergesLeast leaves.length store →
      MergesLeast leaves.length (mergeAll fuel store pool).1 := by
  induction fuel with
  | zero => exact fun _ _ hmerges => hmerges
  | succ fuel ih =>
    intro store pool h hlen hmerges
    obtain ⟨a, b, rest, hperm, hab, hrest, hmerge⟩ := mergeOnce_least store (pool := pool) (by omega)
    have hlen' := hperm.length_eq
    have h' := h.perm hperm
    simp only [mergeAll, hmerge]
    exact ih (h'.merge hsize htotal) (by simp at hlen' ⊢; omega) (hmerges.merge h' hsize htotal hleaves hab hrest)

end

/-! ### The tree of a FREQ table -/

@[simp] theorem length_presentEntries (freq : Vector Word 256) :
    (presentEntries freq).length = (presentSymbols freq).length := by
  simp [presentSymbols]

/-- NODE holds the tree that BUILD makes of a FREQ table: a tree whose leaves are the present symbols with their counts, and
each of whose other nodes is the merge of the two least of its pool (R153 to R155). -/
structure BuiltFrom (nodes : Vector Node 512) (freq : Vector Word 256) : Prop where
  tree : IsTree nodes (presentSymbols freq).length
  leaf : ∀ j, (hj : j < (presentSymbols freq).length) →
    nodeNo nodes j = .leaf (presentSymbols freq)[j] ((entryAt freq (presentSymbols freq)[j]).setWidth 40)
  merges : ∀ k, (presentSymbols freq).length ≤ k → k < 2 * (presentSymbols freq).length - 1 →
    isMergeAt nodes (presentSymbols freq).length k

/-- The leaf numbered j, in the scratch store (R153). -/
theorem storeAt_leafStore_presentEntries {freq : Vector Word 256} {j : Nat} (hj : j < (presentSymbols freq).length) :
    storeAt (leafStore (presentEntries freq)) j =
      .leaf (presentSymbols freq)[j] ((entryAt freq (presentSymbols freq)[j]).setWidth 40) := by
  rw [storeAt_leafStore _ (by simpa using hj)]
  simp [presentEntries_eq_map]

/-- BUILD's merges of a FREQ table with some present symbol leave the tree made of it (R150). -/
theorem buildStore_builtFrom {freq : Vector Word 256} (h : presentSymbols freq ≠ []) :
    BuiltFrom (committedNodes (presentSymbols freq).length (buildStore freq).1) freq := by
  obtain ⟨-, -, hlen, htree⟩ := buildStore_spec h
  have hone : 1 ≤ (presentSymbols freq).length := List.length_pos_iff.2 h
  have hsize : (leafStore (presentEntries freq)).length ≤ 256 := by simpa using length_presentSymbols_le freq
  have hpool : (leafPool (presentEntries freq)).length = (presentEntries freq).length - 1 + 1 := by simp; omega
  have hinit := leaves_mergeInv (presentEntries freq)
  have htotal := tableSum_lt freq
  rw [← sum_presentEntries] at htotal
  obtain ⟨x, -, hinv⟩ := mergeAll_inv hsize htotal _ hinit hpool
  have hmerges : MergesLeast (leafStore (presentEntries freq)).length (buildStore freq).1 :=
    mergeAll_mergesLeast hsize htotal (not_storeChild_leafStore _) _ hinit hpool
      fun _ _ k hk hlt => absurd hlt hk.not_gt
  have hshows := shows_committedNodes hlen (by simpa using hsize)
  rw [length_leafStore, length_presentEntries] at hmerges
  refine ⟨htree, fun j hj => ?_, fun k hk hlt => hmerges _ hshows k hk (hlen.symm ▸ hlt)⟩
  rw [hshows j (by omega), ← storeAt_leafStore_presentEntries hj]
  exact hinv.leavesKept j (by simpa using hj)

/-- BUILD of a FREQ table with no negative entry and some present symbol commits the tree made of it (R150, R157). -/
theorem opBuild_eq_done {s : State} (hneg : ∀ v, (entryAt s.freq v).msb = false) (h : presentSymbols s.freq ≠ []) :
    opBuild s = .done (s.commitTree (presentSymbols s.freq).length (buildStore s.freq).1
      (2 * (presentSymbols s.freq).length - 2)) := by
  have hnone := firstNegative_eq_none.2 hneg
  rw [← (buildStore_spec h).1]
  rcases opBuild_cases s with ⟨v, hv, -⟩ | ⟨-, hempty, -⟩ | ⟨-, -, ho⟩
  · simp [hnone] at hv
  · exact absurd hempty h
  · exact ho

/-- Settles O40: what BUILD commits is the tree made of FREQ, and the present symbols are those with an entry. -/
theorem buildMerges : Obligations.BuildMerges := by
  intro s hneg ⟨v, hv⟩
  have hpresent : presentSymbols s.freq ≠ [] := List.ne_nil_of_mem (mem_presentSymbols.2 hv)
  obtain ⟨-, -, hlen, htree⟩ := buildStore_spec hpresent
  have hsize := htree.size
  have hbuilt := buildStore_builtFrom hpresent
  refine ⟨(s.commitTree (presentSymbols s.freq).length (buildStore s.freq).1
      (2 * (presentSymbols s.freq).length - 2)).completeOk, _, congrArg OpOut.complete (opBuild_eq_done hneg hpresent), rfl,
    fun _ => mem_presentSymbols, presentSymbols_ascending _, hbuilt.leaf, hbuilt.merges, hbuilt.tree.zeroAbove,
    entryAt_replicate none, ?_⟩
  have htotal : (nodeNo (committedNodes (presentSymbols s.freq).length (buildStore s.freq).1)
      (2 * (presentSymbols s.freq).length - 2)).freq =
        ((buildStore s.freq).1.getD (2 * (presentSymbols s.freq).length - 2) Node.zero).freq := by
    rw [nodeNo_committedNodes hlen (by omega), storeAt]
  simp only [State.completeOk_nodes, commitTree_nodes_eq_committed, htotal]
  rfl

end Sys2Proof.Machine
end

section
/-! Code lengths: what Kraft's inequality allows where no word begins another, and the exchange that puts the two least weights
deepest and merges them (R158). -/

namespace Sys2Proof.Machine

/-! ### Kraft's inequality -/

/-- Words none of which is empty or begins another decode uniquely. -/
theorem uniquelyDecodable_of_prefixFree {S : Set BitString} (hnil : [] ∉ S)
    (hprefix : ∀ u ∈ S, ∀ v ∈ S, u <+: v → u = v) : InformationTheory.UniquelyDecodable S := by
  intro us
  induction us with
  | nil =>
    intro vs _ hvs heq
    cases vs with
    | nil => rfl
    | cons v vs =>
      simp only [List.flatten_nil, List.flatten_cons, List.nil_eq, List.append_eq_nil_iff] at heq
      exact absurd (hvs v (by simp)) (heq.1 ▸ hnil)
  | cons u us ih =>
    intro vs hus hvs heq
    simp only [List.mem_cons, forall_eq_or_imp] at hus
    cases vs with
    | nil =>
      simp only [List.flatten_nil, List.flatten_cons, List.append_eq_nil_iff] at heq
      exact absurd hus.1 (heq.1 ▸ hnil)
    | cons v vs =>
      simp only [List.mem_cons, forall_eq_or_imp] at hvs
      simp only [List.flatten_cons] at heq
      obtain rfl : u = v := by
        rcases List.prefix_or_prefix_of_prefix (List.prefix_append u us.flatten)
          (heq ▸ List.prefix_append v vs.flatten) with huv | hvu
        · exact hprefix u hus.1 v hvs.1 huv
        · exact (hprefix v hvs.1 u hus.1 hvu).symm
      rw [ih vs hus.2 hvs.2 (List.append_cancel_left heq)]

/-- The Kraft sum of the lengths given to the elements of a finite set. -/
noncomputable def kraftSum (P : Finset Nat) (len : Nat → Nat) : ℝ := ∑ x ∈ P, (1 / 2) ^ len x

/-- The total length of the elements of a finite set, each taken as often as its weight says (R158). -/
def weightedLength (P : Finset Nat) (w len : Nat → Nat) : Nat := ∑ x ∈ P, w x * len x

theorem kraftSum_insert {P : Finset Nat} {x : Nat} (hx : x ∉ P) (len : Nat → Nat) :
    kraftSum (insert x P) len = (1 / 2) ^ len x + kraftSum P len := Finset.sum_insert hx

theorem weightedLength_insert {P : Finset Nat} {x : Nat} (hx : x ∉ P) (w len : Nat → Nat) :
    weightedLength (insert x P) w len = w x * len x + weightedLength P w len := Finset.sum_insert hx

/-- Two or more words none of which begins another meet Kraft's inequality. -/
theorem kraftSum_length_le_one {P : Finset Nat} (hP : P.Nontrivial) {word : Nat → BitString}
    (hfree : ∀ x ∈ P, ∀ y ∈ P, x ≠ y → ¬ word x <+: word y) : kraftSum P (fun x => (word x).length) ≤ 1 := by
  have heq : ∀ x ∈ P, ∀ y ∈ P, word x <+: word y → x = y := fun x hx y hy h => by
    by_contra hne
    exact hfree x hx y hy hne h
  have hinj : Set.InjOn word P := fun x hx y hy h => heq x hx y hy (h ▸ List.prefix_refl _)
  have hdecodable : InformationTheory.UniquelyDecodable (P.image word : Set BitString) := by
    apply uniquelyDecodable_of_prefixFree
    · intro hnil
      obtain ⟨x, hx, hword⟩ := Finset.mem_image.1 (Finset.mem_coe.1 hnil)
      obtain ⟨y, hy, hne⟩ := hP.exists_ne x
      exact hfree x hx y hy hne.symm (hword ▸ List.nil_prefix)
    · simp only [Finset.mem_coe, Finset.forall_mem_image]
      exact fun x hx y hy h => congrArg word (heq x hx y hy h)
  have hkraft := InformationTheory.kraft_mcmillan_inequality hdecodable
  rw [Finset.sum_image hinj] at hkraft
  simpa [kraftSum] using hkraft

/-! ### The exchange -/

/-- The lengths of two elements exchanged. -/
def swapLen (x y : Nat) (len : Nat → Nat) (z : Nat) : Nat := len (Equiv.swap x y z)

theorem swapLen_self (x : Nat) (len : Nat → Nat) : swapLen x x len = len := funext fun z => by simp [swapLen]

section
variable {P : Finset Nat} {w len : Nat → Nat} {x y : Nat}

theorem kraftSum_swapLen (hx : x ∈ P) (hy : y ∈ P) : kraftSum P (swapLen x y len) = kraftSum P len :=
  Equiv.Perm.sum_comp (Equiv.swap x y) P (fun z => (1 / 2 : ℝ) ^ len z) fun z hz => by
    rcases Equiv.swap_apply_ne_self_iff.1 hz with ⟨-, rfl | rfl⟩ <;> assumption

/-- An exchange that gives the greater length to the smaller weight does not lengthen the total. -/
theorem weightedLength_swapLen_le (hx : x ∈ P) (hy : y ∈ P) (hw : w x ≤ w y) (hlen : len x ≤ len y) :
    weightedLength P w (swapLen x y len) ≤ weightedLength P w len := by
  by_cases hxy : x = y
  · rw [hxy, swapLen_self]
  obtain ⟨Q, hyQ, rfl⟩ : ∃ Q, y ∉ Q ∧ P = insert y Q := ⟨P.erase y, by simp, (Finset.insert_erase hy).symm⟩
  obtain ⟨R, hxR, rfl⟩ : ∃ R, x ∉ R ∧ Q = insert x R :=
    ⟨Q.erase x, by simp, (Finset.insert_erase (by simpa [hxy] using hx)).symm⟩
  have hrest : weightedLength R w (swapLen x y len) = weightedLength R w len :=
    Finset.sum_congr rfl fun z hz => by
      rw [swapLen, Equiv.swap_apply_of_ne_of_ne (ne_of_mem_of_not_mem hz hxR)
        (ne_of_mem_of_not_mem (Finset.mem_insert_of_mem hz) hyQ)]
  rw [weightedLength_insert hyQ, weightedLength_insert hxR, weightedLength_insert hyQ, weightedLength_insert hxR, hrest]
  have := mul_add_mul_le_mul_add_mul hw hlen
  simp only [swapLen, Equiv.swap_apply_left, Equiv.swap_apply_right]
  omega

end

/-- Lengths can be exchanged so that the two least weights have the two greatest, at no greater total. -/
theorem exists_least_deepest {P : Finset Nat} {w : Nat → Nat} {a b : Nat} (ha : a ∈ P) (hb : b ∈ P) (hab : a ≠ b)
    (hleast : ∀ x ∈ P, w a ≤ w x) (hnext : ∀ x ∈ P, x ≠ a → w b ≤ w x) (len : Nat → Nat) :
    ∃ len', kraftSum P len' = kraftSum P len ∧ weightedLength P w len' ≤ weightedLength P w len ∧ len' b ≤ len' a ∧
      ∀ x ∈ P, x ≠ a → x ≠ b → len' x ≤ len' b := by
  obtain ⟨x, hx, hxmax⟩ := P.exists_max_image len ⟨a, ha⟩
  have hmem : ∀ z ∈ P, Equiv.swap a x z ∈ P := fun z hz => by
    rw [Equiv.swap_apply_def]; split_ifs <;> assumption
  have hmax : ∀ z ∈ P, swapLen a x len z ≤ swapLen a x len a := fun z hz => by
    simpa [swapLen] using hxmax _ (hmem z hz)
  obtain ⟨y, hy, hymax⟩ := (P.erase a).exists_max_image (swapLen a x len) ⟨b, by simp [hab.symm, hb]⟩
  obtain ⟨hya, hy⟩ := Finset.mem_erase.1 hy
  refine ⟨swapLen b y (swapLen a x len), ?_, ?_, ?_, fun z hz hza hzb => ?_⟩
  · rw [kraftSum_swapLen hb hy, kraftSum_swapLen ha hx]
  · exact (weightedLength_swapLen_le hb hy (hnext y hy hya) (hymax b (by simp [hab.symm, hb]))).trans
      (weightedLength_swapLen_le ha hx (hleast x hx) (hxmax a ha))
  · have hay : swapLen b y (swapLen a x len) a = swapLen a x len a := by
      rw [swapLen, Equiv.swap_apply_of_ne_of_ne hab hya.symm]
    rw [hay]
    simpa [swapLen] using hmax y hy
  · have hz' : Equiv.swap b y z ∈ P.erase a := by
      rw [Equiv.swap_apply_def, if_neg hzb]
      split_ifs
      · simp [hab.symm, hb]
      · simp [hza, hz]
    simpa [swapLen] using hymax _ hz'

/-- In units of the greatest length, a Kraft sum is a whole number. -/
theorem exists_kraftSum_mul_eq {R : Finset Nat} {len : Nat → Nat} {m : Nat} (h : ∀ x ∈ R, len x ≤ m) :
    ∃ q : Nat, kraftSum R len * 2 ^ m = q := by
  refine ⟨∑ x ∈ R, 2 ^ (m - len x), ?_⟩
  rw [kraftSum, Finset.sum_mul, Nat.cast_sum]
  refine Finset.sum_congr rfl fun x hx => ?_
  rw [Nat.cast_pow, Nat.cast_ofNat, pow_sub₀ _ two_ne_zero (h x hx), one_div, inv_pow, mul_comm]

/-- Where the two elements of least weight are the deepest, their place is room for one element a level above the higher. -/
theorem kraftSum_merge {R : Finset Nat} {len : Nat → Nat} {a b : Nat} (ha : a ∉ insert b R) (hb : b ∉ R)
    (hdeep : ∀ x ∈ R, len x ≤ len b) (hkraft : kraftSum (insert a (insert b R)) len ≤ 1) :
    ∃ m, len b = m + 1 ∧ (1 / 2) ^ m + kraftSum R len ≤ 1 := by
  obtain ⟨q, hq⟩ := exists_kraftSum_mul_eq hdeep
  rw [kraftSum_insert ha, kraftSum_insert hb] at hkraft
  have hpow : (0 : ℝ) < 2 ^ len b := by positivity
  have hunit : (1 / 2 : ℝ) ^ len b * 2 ^ len b = 1 := by rw [← mul_pow]; norm_num
  have hroom : q + 2 ≤ 2 ^ len b := by
    have hscaled := mul_le_mul_of_nonneg_right hkraft hpow.le
    have hpos : (0 : ℝ) < (1 / 2) ^ len a * 2 ^ len b := by positivity
    have hlt : (q : ℝ) + 1 < 2 ^ len b := by linarith
    exact_mod_cast hlt
  obtain ⟨m, hm⟩ : ∃ m, len b = m + 1 := Nat.exists_eq_succ_of_ne_zero fun h0 => by simp [h0] at hroom
  refine ⟨m, hm, le_of_mul_le_mul_right ?_ hpow⟩
  have hhalf : (1 / 2 : ℝ) ^ m * 2 ^ len b = 2 := by rw [hm, pow_succ, ← mul_assoc, ← mul_pow]; norm_num
  rw [add_mul, hhalf, hq, one_mul, add_comm]
  exact_mod_cast hroom

/-- Merging the two least weights: lengths for the set before give lengths for the set after, shorter in total by at least the
merged weight (R158). -/
theorem exists_merged_lengths {R : Finset Nat} {w : Nat → Nat} {a b k : Nat} (ha : a ∉ insert b R) (hb : b ∉ R)
    (hk : k ∉ R) (hwk : w k = w a + w b) (hab : w a ≤ w b) (hleast : ∀ x ∈ R, w b ≤ w x) {len : Nat → Nat}
    (hkraft : kraftSum (insert a (insert b R)) len ≤ 1) :
    ∃ len', kraftSum (insert k R) len' ≤ 1 ∧
      weightedLength (insert k R) w len' + w k ≤ weightedLength (insert a (insert b R)) w len := by
  have hne : a ≠ b := fun h => ha (by simp [h])
  obtain ⟨deep, hkraft', htotal, hba, hdeep⟩ := exists_least_deepest (P := insert a (insert b R)) (w := w)
    (by simp) (by simp) hne
    (by simpa [hab] using fun x hx => hab.trans (hleast x hx))
    (by simpa [hne.symm] using fun x hx _ => hleast x hx) len
  have hdeepR : ∀ x ∈ R, deep x ≤ deep b := fun x hx =>
    hdeep x (by simp [hx]) (fun h => ha (by simp [← h, hx])) (fun h => hb (h ▸ hx))
  obtain ⟨m, hm, hroom⟩ := kraftSum_merge ha hb hdeepR (hkraft' ▸ hkraft)
  have hsame : ∀ x ∈ R, Function.update deep k m x = deep x := fun x hx =>
    Function.update_of_ne (ne_of_mem_of_not_mem hx hk) _ _
  have hkraftR : kraftSum R (Function.update deep k m) = kraftSum R deep :=
    Finset.sum_congr rfl fun x hx => by rw [hsame x hx]
  have htotalR : weightedLength R w (Function.update deep k m) = weightedLength R w deep :=
    Finset.sum_congr rfl fun x hx => by rw [hsame x hx]
  refine ⟨Function.update deep k m, ?_, ?_⟩
  · rwa [kraftSum_insert hk, hkraftR, Function.update_self]
  · rw [weightedLength_insert ha, weightedLength_insert hb] at htotal
    rw [weightedLength_insert hk, htotalR, Function.update_self, hwk]
    have hdepth := Nat.mul_le_mul_left (w a) (hm ▸ hba)
    rw [hm] at htotal
    linarith

end Sys2Proof.Machine
end

section
/-! The tree that BUILD makes costs no more than any code it could be replaced by (R158): its own cost, and a lower bound for
every code, both follow the merges from the leaves to the root. O43. -/

namespace Sys2Proof.Machine

/-! ### The pools of the merges -/

open Classical in
/-- The pool when node k, of n leaves, is about to be made, as a set (R150, R154). -/
noncomputable def poolSet (nodes : Vector Node 512) (n k : Nat) : Finset Nat :=
  {x ∈ Finset.range k | inPoolAt nodes n k x}

theorem mem_poolSet {nodes : Vector Node 512} {n k x : Nat} : x ∈ poolSet nodes n k ↔ inPoolAt nodes n k x := by
  simp only [poolSet, Finset.mem_filter, Finset.mem_range, and_iff_right_iff_imp]
  exact fun h => h.1

/-- Before the first merge all leaves are in the pool (R153). -/
theorem poolSet_leaves (nodes : Vector Node 512) (n : Nat) : poolSet nodes n n = Finset.range n := by
  ext x
  rw [mem_poolSet, Finset.mem_range]
  exact ⟨fun h => h.1, fun h => ⟨h, fun j hn hj => absurd hj hn.not_gt⟩⟩

/-- A merge as its effect on the pool: two nodes a and b leave it, the rest R stays, and their parent k comes in (R154). -/
structure PoolStep (nodes : Vector Node 512) (n k a b : Nat) (R : Finset Nat) : Prop where
  before : poolSet nodes n k = insert a (insert b R)
  after : poolSet nodes n (k + 1) = insert k R
  first : a ∉ insert b R
  second : b ∉ R
  fresh : k ∉ R
  sum : freqNo nodes k = freqNo nodes a + freqNo nodes b
  ordered : freqNo nodes a ≤ freqNo nodes b
  least : ∀ x ∈ R, freqNo nodes b ≤ freqNo nodes x
  childFirst : isChild nodes k a
  childSecond : isChild nodes k b

/-- A parent is an internal node, numbered above its child (R154). -/
theorem IsTree.isChild_lt {nodes : Vector Node 512} {n p c : Nat} (h : IsTree nodes n) (hp : p < 512)
    (hc : isChild nodes p c) : n ≤ p ∧ c < p := by
  obtain ⟨f, l, r, hnode, hc⟩ := hc
  obtain ⟨hn, hl, hr, -⟩ := h.of_internal hnode
  rw [BitVec.toNat_ofNat, Nat.mod_eq_of_lt hp] at hn hl hr
  rcases hc with rfl | rfl
  · exact ⟨hn, hl⟩
  · exact ⟨hn, hr⟩

/-- Every merge is such a step. -/
theorem IsTree.poolStep {nodes : Vector Node 512} {n k : Nat} (h : IsTree nodes n) (hn : n ≤ k) (hk : k < 2 * n - 1)
    (hmerge : isMergeAt nodes n k) : ∃ a b R, PoolStep nodes n k a b R := by
  have hsize := h.size
  obtain ⟨a, b, ha, hb, hab, hleast, hsum, f, hnode⟩ := hmerge
  have hak := ha.1
  have hbk := hb.1
  have haIx : (BitVec.ofNat 9 a).toNat = a := by rw [BitVec.toNat_ofNat]; omega
  have hbIx : (BitVec.ofNat 9 b).toNat = b := by rw [BitVec.toNat_ofNat]; omega
  have hchild : ∀ x, isChild nodes k x ↔ a = x ∨ b = x := fun x => by
    simp only [isChild, hnode, Node.internal.injEq]
    constructor
    · rintro ⟨_, _, _, ⟨-, rfl, rfl⟩, hx⟩
      rwa [haIx, hbIx] at hx
    · exact fun hx => ⟨_, _, _, ⟨rfl, rfl, rfl⟩, by rwa [haIx, hbIx]⟩
  have hne : a ≠ b := by rintro rfl; simp [keyBefore] at hab
  have hbelow : ∀ j, j ≤ k → ¬ isChild nodes j k := fun j hj hc =>
    absurd (h.isChild_lt (by omega) hc).2 hj.not_gt
  refine ⟨a, b, ((poolSet nodes n k).erase a).erase b, ?_⟩
  constructor
  case before =>
    rw [Finset.insert_erase (by simp [hne.symm, mem_poolSet, hb]), Finset.insert_erase (mem_poolSet.2 ha)]
  case after =>
    ext x
    simp only [mem_poolSet, Finset.mem_insert, Finset.mem_erase, inPoolAt]
    constructor
    · rintro ⟨hx, htaken⟩
      have hnot := htaken k hn (by omega)
      rw [hchild, not_or] at hnot
      rcases Nat.lt_succ_iff_lt_or_eq.1 hx with hx | rfl
      · exact .inr ⟨Ne.symm hnot.2, Ne.symm hnot.1, hx, fun j hnj hj => htaken j hnj (by omega)⟩
      · exact .inl rfl
    · rintro (rfl | ⟨hxb, hxa, hx, htaken⟩)
      · exact ⟨by omega, fun j _ hj => hbelow j (by omega)⟩
      · refine ⟨by omega, fun j hnj hj => ?_⟩
        rcases Nat.lt_succ_iff_lt_or_eq.1 hj with hj | rfl
        · exact htaken j hnj hj
        · rw [hchild, not_or]
          exact ⟨Ne.symm hxa, Ne.symm hxb⟩
  case first => simp [hne]
  case second => simp
  case fresh => simp [mem_poolSet, inPoolAt]
  case sum => exact hsum
  case ordered => rcases hab with hlt | ⟨heq, -⟩ <;> omega
  case least =>
    intro x hx
    simp only [Finset.mem_erase, mem_poolSet] at hx
    rcases hleast x hx.2.2 hx.2.1 hx.1 with hlt | ⟨heq, -⟩ <;> omega
  case childFirst => exact (hchild a).2 (.inl rfl)
  case childSecond => exact (hchild b).2 (.inr rfl)

/-! ### The lower bound -/

/-- The sum of the frequencies of the merges from node k on. -/
def mergesSum (nodes : Vector Node 512) (n k : Nat) : Nat := ∑ j ∈ Finset.Ico k (2 * n - 1), freqNo nodes j

theorem mergesSum_step (nodes : Vector Node 512) {n k : Nat} (h : k < 2 * n - 1) :
    mergesSum nodes n k = freqNo nodes k + mergesSum nodes n (k + 1) :=
  Finset.sum_eq_sum_Ico_succ_bot h _

section
variable {nodes : Vector Node 512} {n : Nat} (h : IsTree nodes n)
  (hmerges : ∀ k, n ≤ k → k < 2 * n - 1 → isMergeAt nodes n k)
include h hmerges

/-- Lengths that meet Kraft's inequality on a pool cost at least what the merges still to come do (R158). -/
theorem IsTree.mergesSum_le_weightedLength {k : Nat} (hn : n ≤ k) (len : Nat → Nat)
    (hkraft : kraftSum (poolSet nodes n k) len ≤ 1) :
    mergesSum nodes n k ≤ weightedLength (poolSet nodes n k) (freqNo nodes) len := by
  induction hd : 2 * n - 1 - k generalizing k len with
  | zero => simp [mergesSum, Finset.Ico_eq_empty_of_le (show 2 * n - 1 ≤ k by omega)]
  | succ d ih =>
    have hk : k < 2 * n - 1 := by omega
    obtain ⟨a, b, R, hstep⟩ := h.poolStep hn hk (hmerges k hn hk)
    rw [hstep.before] at hkraft ⊢
    obtain ⟨len', hkraft', hle⟩ := exists_merged_lengths hstep.first hstep.second hstep.fresh hstep.sum hstep.ordered
      hstep.least hkraft
    rw [← hstep.after] at hkraft' hle
    have hrest := ih (by omega) len' hkraft' (by omega)
    rw [mergesSum_step nodes hk]
    omega

/-! ### The tree's own cost -/

/-- The depths of the tree's nodes cost exactly what the merges still to come do (R158). -/
theorem IsTree.weightedLength_depth {depth : Nat → Nat} (hroot : depth (2 * n - 2) = 0)
    (hchild : ∀ p c, p < 2 * n - 1 → isChild nodes p c → depth c = depth p + 1) {k : Nat} (hn : n ≤ k)
    (hk : k ≤ 2 * n - 1) :
    weightedLength (poolSet nodes n k) (freqNo nodes) depth = mergesSum nodes n k := by
  induction hd : 2 * n - 1 - k generalizing k with
  | zero =>
    obtain rfl : k = 2 * n - 1 := by omega
    have hsize := h.size
    rw [mergesSum, Finset.Ico_self, Finset.sum_empty]
    refine Finset.sum_eq_zero fun x hx => ?_
    obtain ⟨hx, htaken⟩ := mem_poolSet.1 hx
    rcases Nat.lt_or_ge x (2 * n - 2) with hlt | hge
    · obtain ⟨p, hp, hpx, -⟩ := h.oneParent x hlt
      exact absurd hpx (htaken p (h.isChild_lt (by omega) hpx).1 hp)
    · rw [show x = 2 * n - 2 by omega, hroot, Nat.mul_zero]
  | succ d ih =>
    have hk : k < 2 * n - 1 := by omega
    obtain ⟨a, b, R, hstep⟩ := h.poolStep hn hk (hmerges k hn hk)
    have hrest := ih (by omega) hk (by omega)
    rw [hstep.after, weightedLength_insert hstep.fresh] at hrest
    rw [hstep.before, weightedLength_insert hstep.first, weightedLength_insert hstep.second, mergesSum_step nodes hk,
      ← hrest, hchild k a hk hstep.childFirst, hchild k b hk hstep.childSecond, hstep.sum]
    ring

end

/-- The path to a node goes on to its child by one more bit (R172). -/
theorem descend_concat_of_isChild {nodes : Vector Node 512} {root : NodeIx} {p c : Nat} {path : BitString}
    (hpc : isChild nodes p c) (hpath : descend nodes root path = some (BitVec.ofNat 9 p)) :
    ∃ b, descend nodes root (path ++ [b]) = some (BitVec.ofNat 9 c) := by
  obtain ⟨f, l, r, hnode, rfl | rfl⟩ := hpc
  · exact ⟨false, descend_concat_eq_some.2 ⟨_, f, l, r, hpath, hnode, by simp⟩⟩
  · exact ⟨true, descend_concat_eq_some.2 ⟨_, f, l, r, hpath, hnode, by simp⟩⟩

section
variable {nodes : Vector Node 512} {n : Nat} (h : IsTree nodes n) {root : NodeIx} (hroot : root.toNat = 2 * n - 2)
include h hroot

/-- Every node of the tree is reached from the root (R154). -/
theorem IsTree.exists_path_from_root {c : Nat} (hc : c < 2 * n - 1) :
    ∃ path, descend nodes root path = some (BitVec.ofNat 9 c) := by
  have hsize := h.size
  induction hd : 2 * n - 2 - c using Nat.strong_induction_on generalizing c with
  | _ d ih =>
    rcases Nat.lt_or_ge c (2 * n - 2) with hlt | hge
    · obtain ⟨p, hp, hpc, -⟩ := h.oneParent c hlt
      obtain ⟨-, hcp⟩ := h.isChild_lt (by omega) hpc
      obtain ⟨path, hpath⟩ := ih (2 * n - 2 - p) (by omega) hp rfl
      obtain ⟨b, hchild⟩ := descend_concat_of_isChild hpc hpath
      exact ⟨_, hchild⟩
    · have hc : root = BitVec.ofNat 9 c := by
        apply BitVec.eq_of_toNat_eq
        rw [hroot, BitVec.toNat_ofNat]
        omega
      exact ⟨[], congrArg some hc⟩

/-- The depths of the nodes: 0 for the root, one more for a child than for its parent, and the length of each leaf's path. -/
theorem IsTree.exists_depth : ∃ depth : Nat → Nat, depth (2 * n - 2) = 0 ∧
    (∀ p c, p < 2 * n - 1 → isChild nodes p c → depth c = depth p + 1) ∧
    ∀ c path, c < 2 * n - 1 → descend nodes root path = some (BitVec.ofNat 9 c) → depth c = path.length := by
  have hsize := h.size
  choose! pathTo hpathTo using fun c => h.exists_path_from_root hroot (c := c)
  have hlength : ∀ c path, c < 2 * n - 1 → descend nodes root path = some (BitVec.ofNat 9 c) →
      (pathTo c).length = path.length := fun c path hc hpath => by rw [h.path_unique hroot (hpathTo c hc) hpath]
  refine ⟨fun c => (pathTo c).length, ?_, fun p c hp hpc => ?_, hlength⟩
  · refine hlength _ [] (by omega) (congrArg some (BitVec.eq_of_toNat_eq ?_))
    rw [hroot, BitVec.toNat_ofNat]
    omega
  · have hcp := (h.isChild_lt (by omega) hpc).2
    obtain ⟨b, hchild⟩ := descend_concat_of_isChild hpc (hpathTo p hp)
    exact (hlength c _ (by omega) hchild).trans List.length_append

end
/-! ### Codes over the present symbols -/

section
variable {nodes : Vector Node 512} {freq : Vector Word 256} (h : BuiltFrom nodes freq)
include h

theorem BuiltFrom.freqNo_leaf {j : Nat} (hj : j < (presentSymbols freq).length) :
    freqNo nodes j = (entryAt freq (presentSymbols freq)[j]).toNat := by
  rw [freqNo, h.leaf j hj, Node.freq, BitVec.toNat_setWidth]
  omega

theorem BuiltFrom.sym_leaf {j : Nat} (hj : j < (presentSymbols freq).length) :
    (nodeNo nodes j).sym = (presentSymbols freq)[j] := by
  rw [h.leaf j hj, Node.sym]

/-- A code's cost, over the leaves instead of the symbols (R158). -/
theorem BuiltFrom.codeCost_eq (code : Byte → BitString) :
    codeCost freq code = weightedLength (poolSet nodes (presentSymbols freq).length (presentSymbols freq).length)
      (freqNo nodes) fun j => (code (nodeNo nodes j).sym).length := by
  rw [codeCost, ← Fin.sum_univ_fun_getElem, poolSet_leaves, weightedLength, Finset.sum_range]
  exact Finset.sum_congr rfl fun j _ => by rw [h.freqNo_leaf j.isLt, h.sym_leaf j.isLt]

/-- The paths to the leaves cost what the merges do (R158, R172). -/
theorem BuiltFrom.codeCost_paths {root : NodeIx} (hroot : root.toNat = 2 * (presentSymbols freq).length - 2)
    {path : Byte → BitString} (hpath : ∀ v ∈ presentSymbols freq, isPathTo nodes root (path v) v) :
    codeCost freq path = mergesSum nodes (presentSymbols freq).length (presentSymbols freq).length := by
  have hsize := h.tree.size
  obtain ⟨depth, hzero, hchild, hdepth⟩ := h.tree.exists_depth hroot
  rw [h.codeCost_eq, ← h.tree.weightedLength_depth h.merges hzero hchild le_rfl (by omega), poolSet_leaves]
  refine Finset.sum_congr rfl fun j hj => ?_
  rw [Finset.mem_range] at hj
  obtain ⟨q, f, hq, hleaf⟩ := hpath _ (List.getElem_mem hj)
  have hqroot := (h.tree.length_path_le hq).2
  have hjIx : (BitVec.ofNat 9 j).toNat = j := by rw [BitVec.toNat_ofNat]; omega
  obtain rfl : q = BitVec.ofNat 9 j := h.tree.leaf_unique (by omega) (by omega) hleaf (h.leaf j hj)
  simp only [h.sym_leaf hj, hdepth j _ (by omega) hq]

/-- No code over two or more present symbols, none of whose words begins another, costs less than the merges do (R158). -/
theorem BuiltFrom.mergesSum_le_codeCost (htwo : 2 ≤ (presentSymbols freq).length) {code : Byte → BitString}
    (hfree : prefixFree (presentSymbols freq) code) :
    mergesSum nodes (presentSymbols freq).length (presentSymbols freq).length ≤ codeCost freq code := by
  rw [h.codeCost_eq]
  refine h.tree.mergesSum_le_weightedLength h.merges le_rfl _ ?_
  rw [poolSet_leaves]
  refine kraftSum_length_le_one (word := fun j => code (nodeNo nodes j).sym)
    ⟨0, by simp; omega, 1, by simp; omega, by decide⟩ fun i hi j hj hij => ?_
  rw [Finset.mem_range] at hi hj
  have hne : (nodeNo nodes i).sym ≠ (nodeNo nodes j).sym := fun heq => by
    rcases Nat.lt_or_gt_of_ne hij with hlt | hlt
    · exact absurd (h.tree.ascending i j hlt hj) (by rw [heq]; exact lt_irrefl _)
    · exact absurd (h.tree.ascending j i hlt hi) (by rw [heq]; exact lt_irrefl _)
  rw [h.sym_leaf hi, h.sym_leaf hj] at hne ⊢
  exact hfree _ (List.getElem_mem hi) _ (List.getElem_mem hj) hne

end

/-- BUILD, of a FREQ table with no negative entry and some present symbol, commits the tree made of it, with ROOT its last
node (R150, R157). -/
theorem opBuild_commits_built {s : State} (hneg : ∀ v, (entryAt s.freq v).msb = false) (h : presentSymbols s.freq ≠ []) :
    ∃ a, opBuild s = .done a ∧ Commit .build s a ∧ a.TreeInv ∧ a.status.treeValid = true ∧
      a.root.toNat = 2 * (presentSymbols s.freq).length - 2 ∧ BuiltFrom a.nodes s.freq := by
  have hsize := length_presentSymbols_le s.freq
  have hcommit := Commit.build s (firstNegative_eq_none.2 hneg) h
  rw [(buildStore_spec h).1] at hcommit
  obtain ⟨htree, -, hvalid⟩ := commitTree_spec h (by rw [(buildStore_spec h).1])
  refine ⟨_, opBuild_eq_done hneg h, hcommit, htree, hvalid, ?_, buildStore_builtFrom h⟩
  rw [State.commitTree_root, BitVec.toNat_ofNat]
  omega

/-- Settles O43: the leaves' paths cost what the merges do, and no such code costs less. -/
theorem buildIsOptimal : Obligations.BuildIsOptimal := by
  intro s t depthPath c hneg htwo he hpath hfree
  obtain ⟨a, ho, -, -, -, hroot, hbuilt⟩ := opBuild_commits_built hneg (List.length_pos_iff.1 (by omega))
  have hcomplete : (opBuild s).complete = .next t := he
  rw [ho] at hcomplete
  cases hcomplete
  exact (hbuilt.codeCost_paths hroot hpath).trans_le (hbuilt.mergesSum_le_codeCost htwo hfree)

end Sys2Proof.Machine
end

section
/-! The length of what COMPRESS encodes (R158, R174): the cost of the tree's codes, which is no more than that of the fixed
eight-bit code. O56. -/

namespace Sys2Proof.Machine

/-! ### The cost of a code -/

theorem sum_presentSymbols (freq : Vector Word 256) :
    ((presentSymbols freq).map fun v => (entryAt freq v).toNat).sum = tableSum freq := by
  rw [← sum_presentEntries, presentEntries_eq_map, List.map_map]
  rfl

/-- Codes of at most m bits cost at most m for each count. -/
theorem codeCost_le_mul {freq : Vector Word 256} {code : Byte → BitString} {m : Nat}
    (h : ∀ v ∈ presentSymbols freq, (code v).length ≤ m) : codeCost freq code ≤ m * tableSum freq :=
  calc codeCost freq code
      ≤ ((presentSymbols freq).map fun v => m * (entryAt freq v).toNat).sum :=
        List.sum_le_sum fun v hv => by rw [Nat.mul_comm]; exact Nat.mul_le_mul_right _ (h v hv)
    _ = m * tableSum freq := by rw [List.sum_map_mul_left, sum_presentSymbols]

/-- The fixed code of a byte: its eight bits. -/
def eightBits (v : Byte) : BitString := List.ofFn fun i : Fin 8 => v.getLsbD i

@[simp] theorem length_eightBits (v : Byte) : (eightBits v).length = 8 := List.length_ofFn

theorem eightBits_prefixFree (symbols : List Byte) : prefixFree symbols eightBits := by
  intro v _ w _ hne hprefix
  have heq := List.ofFn_injective (hprefix.eq_of_length (by simp))
  exact hne (BitVec.eq_of_getLsbD_eq fun i hi => congrFun heq ⟨i, hi⟩)

section
variable {nodes : Vector Node 512} {freq : Vector Word 256} {root : NodeIx} (h : BuiltFrom nodes freq)
  (hroot : root.toNat = 2 * (presentSymbols freq).length - 2)
include h hroot

/-- Every present symbol has a code in the tree made of the table (R170 to R172). -/
theorem BuiltFrom.exists_code {v : Byte} (hv : v ∈ presentSymbols freq) : ∃ c, isCodeOf nodes root v c := by
  obtain ⟨j, hj, rfl⟩ := List.getElem_of_mem hv
  obtain ⟨path, hpath⟩ := h.tree.exists_path_from_root hroot (c := j) (by omega)
  have hleaf := h.leaf j hj
  cases hnode : nodeAt nodes root with
  | internal f l r => exact ⟨path, .inr ⟨f, l, r, hnode, _, _, hpath, hleaf⟩⟩
  | leaf sym f =>
    cases path with
    | nil =>
      cases hpath
      exact ⟨[false], .inl ⟨_, hleaf, rfl⟩⟩
    | cons b path =>
      obtain ⟨f', l, r, hinternal, -⟩ := descend_cons_eq_some.1 hpath
      simp [hnode] at hinternal

/-- The tree's codes cost no more than eight bits for each count (R158, R171). -/
theorem BuiltFrom.codeCost_le_eight {code : Byte → BitString}
    (hcode : ∀ v ∈ presentSymbols freq, isCodeOf nodes root v (code v)) : codeCost freq code ≤ 8 * tableSum freq := by
  cases hnode : nodeAt nodes root with
  | leaf sym f =>
    refine codeCost_le_mul fun v hv => ?_
    rcases hcode v hv with ⟨g, -, hone⟩ | ⟨g, l, r, hinternal, -⟩
    · simp [hone]
    · simp [hnode] at hinternal
  | internal f l r =>
    have hpath : ∀ v ∈ presentSymbols freq, isPathTo nodes root (code v) v := fun v hv => by
      rcases hcode v hv with ⟨g, hleaf, -⟩ | ⟨g, l', r', -, hpath⟩
      · simp [hnode] at hleaf
      · exact hpath
    have hn := (h.tree.of_internal hnode).1
    have hsize := h.tree.size
    calc codeCost freq code
        = mergesSum nodes (presentSymbols freq).length (presentSymbols freq).length := h.codeCost_paths hroot hpath
      _ ≤ codeCost freq eightBits := h.mergesSum_le_codeCost (by omega) (eightBits_prefixFree _)
      _ ≤ 8 * tableSum freq := codeCost_le_mul fun v _ => (length_eightBits v).le

end

/-! ### The counts of an input -/

theorem nodup_presentSymbols (freq : Vector Word 256) : (presentSymbols freq).Nodup := by
  rw [presentSymbols_eq_filter]
  exact nodup_allBytes.filter _

section
variable {input : List Byte}

theorem msb_entryAt_countTable (h : input.length < 2 ^ 31) (v : Byte) : (entryAt (countTable input) v).msb = false := by
  rw [BitVec.msb_eq_false_iff_two_mul_lt, toNat_entryAt_countTable (by omega)]
  have := List.count_le_length (a := v) (l := input)
  omega

theorem mem_presentSymbols_countTable (h : input.length < 2 ^ 32) {v : Byte} :
    v ∈ presentSymbols (countTable input) ↔ v ∈ input := by
  rw [mem_presentSymbols, ← List.count_pos_iff, ← toNat_entryAt_countTable h, Nat.pos_iff_ne_zero, Ne, Ne,
    BitVec.toNat_eq, BitVec.toNat_zero]

/-- The encoding of an input is as long as its counts say (R158, R174). -/
theorem length_flatMap_eq_codeCost (h : input.length < 2 ^ 32) (code : Byte → BitString) :
    (input.flatMap code).length = codeCost (countTable input) code := by
  have hsymbols : (presentSymbols (countTable input)).toFinset = input.toFinset := by
    ext v
    simp only [List.mem_toFinset, mem_presentSymbols_countTable h]
  calc (input.flatMap code).length
      = (input.map fun b => (code b).length).sum := List.length_flatMap
    _ = ∑ v ∈ input.toFinset, input.count v * (code v).length := Finset.sum_list_map_count input _
    _ = ∑ v ∈ (presentSymbols (countTable input)).toFinset,
          (entryAt (countTable input) v).toNat * (code v).length := by
      simp only [hsymbols, toNat_entryAt_countTable h]
    _ = codeCost (countTable input) code := List.sum_toFinset _ (nodup_presentSymbols _)

end

/-! ### ENCODE -/

/-- Where every byte has a code, the input encodes to the concatenation of the codes (R180, R181). -/
theorem encodeCells_eq_ok {ctab : Vector CodeEntry 256} {code : Byte → BitString} {input : List Byte} (i : Nat)
    (h : ∀ b ∈ input, entryAt ctab b = some (code b)) :
    encodeCells ctab i (input.map some) = .ok (input.flatMap code) := by
  induction input generalizing i with
  | nil => rfl
  | cons b input ih =>
    simp only [List.mem_cons, forall_eq_or_imp] at h
    simp [encodeCells, h.1, ih (i + 1) h.2]

/-- ENCODE of a non-empty input every byte of which has a code commits the codes, if they fit (R180). -/
theorem opEncode_eq_done {s : State} {input : List Byte} {code : Byte → BitString} (hcap : s.inLen.toNat ≤ s.cfg.capIbuf)
    (hne : s.inLen ≠ 0#32) (hvalid : s.status.ctabValid = true) (hinput : s.holdsInput input)
    (hcode : ∀ b ∈ input, entryAt s.ctab b = some (code b)) (hfit : (input.flatMap code).length ≤ 8 * s.cfg.capBbuf) :
    opEncode s = .done (s.commitStream (input.flatMap code)) := by
  have hcells : encodeCells s.ctab 0 s.inputCells = .ok (input.flatMap code) :=
    (congrArg _ hinput.map_some.symm).trans (encodeCells_eq_ok 0 hcode)
  rw [opEncode, if_neg hcap.not_gt, if_neg hne, if_pos hvalid, hcells]
  exact if_neg hfit.not_gt

/-! ### COMPRESS -/

/-- After COUNT, BUILD and CODES of a COMPRESS succeed on a non-empty input: every byte of it has a code, and the codes take no
more than eight bits a byte (R158, R200, R202). -/
theorem buildCodes_eq_done {s : State} {input : List Byte} (hfreq : s.freq = countTable input) (hne : input ≠ [])
    (hlen : input.length < 2 ^ 31) :
    ∃ b code, (opBuild s).andThen opCodes = .done b ∧ b.cfg = s.cfg ∧ b.mem = s.mem ∧ b.inLen = s.inLen ∧
      b.status.err = s.status.err ∧ b.status.ctabValid = true ∧ (∀ v ∈ input, entryAt b.ctab v = some (code v)) ∧
      (input.flatMap code).length ≤ 8 * input.length := by
  have hmem : ∀ v, v ∈ presentSymbols s.freq ↔ v ∈ input := fun v => hfreq ▸ mem_presentSymbols_countTable (by omega)
  obtain ⟨u, hu⟩ := List.exists_mem_of_ne_nil input hne
  obtain ⟨a, hbuild, hcommit, hinv, hvalid, hroot, hbuilt⟩ := opBuild_commits_built (s := s)
    (hfreq ▸ msb_entryAt_countTable hlen) (List.ne_nil_of_mem ((hmem u).2 hu))
  obtain ⟨htree, -, hroot', -⟩ := hinv.valid hvalid
  choose! code hcode using fun v => hbuilt.exists_code hroot (v := v)
  have hcost : codeCost s.freq code ≤ 8 * tableSum s.freq := hbuilt.codeCost_le_eight hroot hcode
  have hsum : tableSum s.freq = input.length := freqSum_countTable hfreq (by omega)
  rcases opCodes_cases a with ⟨hinvalid, -⟩ | ⟨-, hcodes⟩
  · simp [hvalid] at hinvalid
  · have hcfg : a.cfg = s.cfg := congrArg (·.2.1) hcommit.keeps_surroundings
    refine ⟨_, code, (congrArg (OpOut.andThen · opCodes) hbuild).trans hcodes, hcfg, hcommit.keeps_mem (by decide),
      hcommit.keeps_inLen (by decide), hcommit.sameLife.err, rfl, fun v hv => ?_, ?_⟩
    · exact (htree.entryAt_codeTable hroot' v _).2 (hcode v ((hmem v).2 hv))
    · rwa [length_flatMap_eq_codeCost (by omega), ← hfreq, ← hsum]

/-- Settles O56: the empty input takes no bits; else the codes fit BBUF, since they take no more than eight bits a byte. -/
theorem compressFitsWhereInputFits : Obligations.CompressFitsWhereInputFits := by
  intro s t hwf herr hibuf hbbuf he
  have hcap : s.cfg.capIbuf ≤ 0x100000 := Buffer.cap_le hwf .ibuf
  have hcomplete : (opCompress s).complete = .next t := he
  rcases opCompress_cases s with ⟨-, hlong⟩ | ⟨ho, -⟩ | ⟨input, -, hbytes, ⟨hzero, ho⟩ | ⟨hne, ho⟩⟩
  · exact absurd hlong hibuf.not_gt
  · simp [ho] at hcomplete
  · rw [ho] at hcomplete
    cases hcomplete
    exact ⟨herr, Nat.zero_le _⟩
  · have hinput := inputBytes_eq_some.1 hbytes
    have hlen : input.length = s.inLen.toNat := hinput.1
    have hnil : input ≠ [] := by
      rintro rfl
      exact hne (BitVec.eq_of_toNat_eq hlen.symm)
    obtain ⟨b, code, hbuild, hcfg, hmem, hin, herrb, hvalid, hcode, hbits⟩ :=
      buildCodes_eq_done (s := { s with freq := countTable input }) rfl hnil (by omega)
    have hinputb : b.holdsInput input := by
      rw [← inputBytes_eq_some, State.inputBytes, hmem, hin]
      exact hbytes
    have hencode : opEncode b = .done (b.commitStream (input.flatMap code)) :=
      opEncode_eq_done (by rw [hin, hcfg]; exact hibuf) (hin ▸ hne) hvalid hinputb hcode (by rw [hcfg]; simp only; omega)
    rw [ho, hbuild, OpOut.done_andThen, hencode] at hcomplete
    cases hcomplete
    refine ⟨herrb.trans herr, ?_⟩
    calc (BitVec.ofNat 32 (input.flatMap code).length).toNat
        ≤ (input.flatMap code).length := by rw [BitVec.toNat_ofNat]; exact Nat.mod_le _ _
      _ ≤ 8 * s.inLen.toNat := hlen ▸ hbits

end Sys2Proof.Machine
end

section
/-! CODES (R170 to R173): its two ends, O44 and O45; the codes of a tree as a prefix code of its leaves' symbols, O46. -/

namespace Sys2Proof.Machine

/-- Settles O44: CODES commits a table that meets the code invariant, and a completion does not touch it. -/
theorem codesAreLeafPaths : Obligations.CodesAreLeafPaths := by
  intro s htree hvalid
  rcases opCodes_cases s with ⟨hinvalid, -⟩ | ⟨-, hdone⟩
  · simp [hvalid] at hinvalid
  · have hcode := codes_codeInv htree hvalid
    exact ⟨_, congrArg OpOut.complete hdone, rfl, hcode.exact rfl, hcode.bounded rfl, hcode.attained rfl⟩

/-- Settles O45: of the two ends of CODES only the error has TREE_VALID = 0. -/
theorem codesNeedTree : Obligations.CodesNeedTree := by
  intro s hinvalid
  rcases opCodes_cases s with ⟨-, hraised⟩ | ⟨hvalid, -⟩
  · exact congrArg OpOut.complete hraised
  · simp [hinvalid] at hvalid

/-! ### Codes as prefixes -/

/-- No path goes on from a leaf (R172). -/
theorem descend_leaf_eq_some {nodes : Vector Node 512} {p q : NodeIx} {v : Byte} {f : NodeFreq} {path : BitString}
    (hleaf : nodeAt nodes p = .leaf v f) : descend nodes p path = some q ↔ path = [] ∧ p = q := by
  cases path with
  | nil => simp [descend]
  | cons b path => simp [descend, hleaf]

theorem descend_append (nodes : Vector Node 512) (p : NodeIx) (path rest : BitString) :
    descend nodes p (path ++ rest) = (descend nodes p path).bind (descend nodes · rest) := by
  induction path generalizing p with
  | nil => rfl
  | cons b path ih =>
    rw [List.cons_append, descend, descend]
    cases nodeAt nodes p with
    | leaf v f => rfl
    | internal f l r => exact ih _

section
variable {nodes : Vector Node 512} {root : NodeIx} {v w : Byte} {c d : BitString}

/-- A path to a leaf begins no path to another value's leaf: it would have to go on from the leaf (R173). -/
theorem isPathTo_eq_of_prefix (hc : isPathTo nodes root c v) (hd : isPathTo nodes root d w) (hprefix : c <+: d) : v = w := by
  obtain ⟨rest, rfl⟩ := hprefix
  obtain ⟨p, f, hp, hv⟩ := hc
  obtain ⟨q, g, hq, hw⟩ := hd
  rw [descend_append, hp, Option.bind_some, descend_leaf_eq_some hv] at hq
  obtain ⟨-, rfl⟩ := hq
  rw [hv] at hw
  cases hw
  rfl

/-- The codes at a root are prefix-free (R173). -/
theorem isCodeOf_eq_of_prefix (hc : isCodeOf nodes root v c) (hd : isCodeOf nodes root w d) (hprefix : c <+: d) : v = w := by
  rcases hc with ⟨f, hleaf, -⟩ | ⟨f, l, r, hnode, hc⟩ <;> rcases hd with ⟨g, hleaf', -⟩ | ⟨g, l', r', hnode', hd⟩
  · rw [hleaf] at hleaf'; cases hleaf'; rfl
  · rw [hleaf] at hnode'; cases hnode'
  · rw [hnode] at hleaf'; cases hleaf'
  · exact isPathTo_eq_of_prefix hc hd hprefix

/-- The empty path ends at the root, which has a code of its own where it is a leaf (R171). -/
theorem isCodeOf_ne_nil (hc : isCodeOf nodes root v c) : c ≠ [] := by
  rintro rfl
  rcases hc with ⟨f, -, hnil⟩ | ⟨f, l, r, hnode, q, g, hd, hleaf⟩
  · cases hnil
  · cases hd
    rw [hnode] at hleaf
    cases hleaf

/-- A value with a code is held by a leaf that some path leads to from the root. -/
theorem exists_isCodeOf_iff_exists_isPathTo : (∃ c, isCodeOf nodes root v c) ↔ ∃ path, isPathTo nodes root path v := by
  cases hnode : nodeAt nodes root with
  | leaf u f =>
    have hpath : ∀ path, isPathTo nodes root path v ↔ path = [] ∧ u = v := by
      intro path
      constructor
      · rintro ⟨q, g, hd, hq⟩
        obtain ⟨rfl, rfl⟩ := (descend_leaf_eq_some hnode).1 hd
        rw [hnode] at hq
        cases hq
        exact ⟨rfl, rfl⟩
      · rintro ⟨rfl, rfl⟩
        exact ⟨root, f, rfl, hnode⟩
    simp [isCodeOf, hnode, hpath]
  | internal f l r => simp [isCodeOf, hnode]

end

/-! ### The symbols of a tree -/

section
variable {nodes : Vector Node 512} {n : Nat} (h : IsTree nodes n)
include h

/-- The leaves are the first nodes of the tree (R153). -/
theorem IsTree.leaf_lt {i : NodeIx} {v : Byte} {f : NodeFreq} (hi : i.toNat < 2 * n - 1) (hleaf : nodeAt nodes i = .leaf v f) :
    i.toNat < n := by
  by_contra hge
  obtain ⟨g, l, r, hnode, -⟩ := h.internals i.toNat (by omega) hi
  rw [nodeNo_toNat, hleaf] at hnode
  cases hnode

/-- The paths from the root, the last node, lead to the values of the leaves, and to all of them (R153, R173). -/
theorem IsTree.exists_isPathTo_iff {root : NodeIx} (hroot : root.toNat = 2 * n - 2) {v : Byte} :
    (∃ path, isPathTo nodes root path v) ↔ ∃ j f, j < n ∧ nodeNo nodes j = .leaf v f := by
  have hsize := h.size
  constructor
  · rintro ⟨path, q, f, hd, hq⟩
    have hle := (h.length_path_le hd).2
    exact ⟨q.toNat, f, h.leaf_lt (by omega) hq, by rw [nodeNo_toNat, hq]⟩
  · rintro ⟨j, f, hj, hleaf⟩
    obtain ⟨path, hpath⟩ := h.exists_path_from_root hroot (c := j) (by omega)
    exact ⟨path, _, f, hpath, hleaf⟩

end

/-- Settles O46: the table holds exactly the tree's codes, and those are non-empty, short, prefix-free and of the leaves'
values. -/
theorem codeTableIsPrefixFree : Obligations.CodeTableIsPrefixFree := by
  intro s htree hcode hvalid
  obtain ⟨hnodes, -, hroot, -⟩ := htree.valid (hcode.needsTree hvalid)
  simp only [hcode.exact hvalid]
  refine ⟨fun v => ?_, fun v c hc => ?_, fun v w c d hc hd hne hprefix => ?_⟩
  · exact exists_isCodeOf_iff_exists_isPathTo.trans (hnodes.exists_isPathTo_iff hroot)
  · exact ⟨isCodeOf_ne_nil hc, hnodes.isCodeOf_length hroot hc⟩
  · exact hne (isCodeOf_eq_of_prefix hc hd hprefix)

end Sys2Proof.Machine
end

section
/-! The bit sequences and bytes that BBUF and OBUF hold (R97 to R99): a stream as written bytes, and what the commits of ENCODE
and DECODE leave in the buffers. -/

namespace Sys2Proof.Machine

/-! ### Streams as bytes -/

/-- The byte of a stream element is one of the bytes that hold the stream (R98, R99). -/
theorem div_lt_ceilDiv {k n : Nat} (h : k < n) : k / 8 < ceilDiv n 8 := by
  rw [ceilDiv]; omega

/-- Each of the bytes that hold a stream holds an element of it (R99). -/
theorem mul_lt_of_lt_ceilDiv {j n : Nat} (h : j < ceilDiv n 8) : j * 8 < n := by
  rw [ceilDiv] at h; omega

theorem streamBytes_eq_some {s : State} {bytes : List Byte} : s.streamBytes = some bytes ↔
    bytes.length = ceilDiv s.bitCnt.toNat 8 ∧ ∀ j, (h : j < bytes.length) → s.bufByte .bbuf j = some bytes[j] :=
  Memory.readBytes_eq_some

theorem streamBytes_eq_none {s : State} :
    s.streamBytes = none ↔ ∃ j, j < ceilDiv s.bitCnt.toNat 8 ∧ s.bufByte .bbuf j = none :=
  Memory.readBytes_eq_none

/-- A stream that BBUF holds is the one that a command reads from its bytes (R98, R186). -/
theorem State.holdsStream.exists_bytes {s : State} {bits : BitString} (h : s.holdsStream bits) :
    ∃ bytes, s.streamBytes = some bytes ∧ streamBits bytes s.bitCnt.toNat = bits := by
  obtain ⟨hlen, hbit⟩ := h
  cases hb : s.streamBytes with
  | none =>
    obtain ⟨j, hj, hnone⟩ := streamBytes_eq_none.1 hb
    have hfirst := hbit (j * 8) (hlen ▸ mul_lt_of_lt_ceilDiv hj)
    simp [State.bufBit, hnone] at hfirst
  | some bytes =>
    obtain ⟨hcount, hbyte⟩ := streamBytes_eq_some.1 hb
    refine ⟨bytes, rfl, List.ext_getElem (by simp [hlen]) fun k _ hk => ?_⟩
    have hplace : k / 8 < bytes.length := hcount ▸ div_lt_ceilDiv (hlen ▸ hk)
    have hk' := hbit k hk
    rw [State.bufBit, hbyte _ hplace] at hk'
    simpa [streamBits, streamBit, hplace] using hk'

/-- The stream is a matter of BIT_CNT and of the bytes that hold it (R99). -/
theorem State.holdsStream.congr {t u : State} {bits : BitString} (h : t.holdsStream bits) (hcnt : u.bitCnt = t.bitCnt)
    (hbytes : ∀ j, j < ceilDiv t.bitCnt.toNat 8 → u.bufByte .bbuf j = t.bufByte .bbuf j) : u.holdsStream bits := by
  obtain ⟨hlen, hbit⟩ := h
  refine ⟨hcnt ▸ hlen, fun k hk => ?_⟩
  rw [State.bufBit, hbytes _ (div_lt_ceilDiv (hlen ▸ hk))]
  exact hbit k hk

/-! ### ENCODE's commit -/

/-- The stream elements after ENCODE's commit are its bits, and 0 up to the word boundary (R98, R99). -/
theorem bufBit_commitStream (s : State) {bits : BitString} {k : Nat} (hk : k < 8 * packedLen bits.length) :
    (s.commitStream bits).bufBit .bbuf k = some (bits.getD k false) := by
  have hplace : k / 8 < (packedBytes bits).length := by rw [length_packedBytes]; omega
  have hbyte : (s.commitStream bits).bufByte .bbuf (k / 8) = some (packedByte bits (k / 8)) :=
    (Memory.read_writeBytes_inside _ _ _ _ hplace).trans (by simp [packedBytes])
  rw [State.bufBit, hbyte, Option.map_some, getLsbD_packedByte]

theorem toNat_bitCnt_commitStream (s : State) {bits : BitString} (h : bits.length < 2 ^ 32) :
    (s.commitStream bits).bitCnt.toNat = bits.length :=
  (BitVec.toNat_ofNat ..).trans (Nat.mod_eq_of_lt h)

/-- ENCODE's commit puts its bits into BBUF as a stream (R36, R99). -/
theorem commitStream_holdsStream (s : State) {bits : BitString} (h : bits.length < 2 ^ 32) :
    (s.commitStream bits).holdsStream bits := by
  refine ⟨(toNat_bitCnt_commitStream s h).symm, fun k hk => ?_⟩
  rw [bufBit_commitStream s (hk.trans_le (le_packedLen _))]
  simp [hk]

/-! ### DECODE's commit -/

theorem getElem_paddedBytes {out : List Byte} {i : Nat} (hi : i < (paddedBytes out).length) :
    (paddedBytes out)[i] = out.getD i 0#8 := by
  simp only [paddedBytes, List.getElem_append, List.getElem_replicate]
  split
  · simp [*]
  · simp [List.getElem?_eq_none (Nat.not_lt.1 ‹_›)]

/-- The bytes of OBUF after DECODE's commit are the decoded ones, and 0 up to the word boundary (R186). -/
theorem bufByte_commitOutput (s : State) {out : List Byte} {i : Nat} (hi : i < 4 * ceilDiv out.length 4) :
    (s.commitOutput out).bufByte .obuf i = some (out.getD i 0#8) := by
  rw [← length_paddedBytes] at hi
  exact (Memory.read_writeBytes_inside _ _ _ _ hi).trans (congrArg some (getElem_paddedBytes hi))

theorem toNat_outLen_commitOutput (s : State) {out : List Byte} (h : out.length < 2 ^ 32) :
    (s.commitOutput out).outLen.toNat = out.length :=
  (BitVec.toNat_ofNat ..).trans (Nat.mod_eq_of_lt h)

end Sys2Proof.Machine
end

section
/-! ENCODE (R180 to R183): the codes of an input cell by cell, the ends of the command, then O47 and O48. -/

namespace Sys2Proof.Machine

/-! ### The codes of the input -/

/-- Cells that encode are written bytes with codes, and the bits are those codes in order (R180, R181). -/
theorem exists_input_of_encodeCells_eq_ok {ctab : Vector CodeEntry 256} {i : Nat} {cells : List (Option Byte)}
    {bits : BitString} (h : encodeCells ctab i cells = .ok bits) :
    ∃ input : List Byte, cells = input.map some ∧ (∀ b ∈ input, entryAt ctab b = some ((entryAt ctab b).getD [])) ∧
      bits = input.flatMap fun b => (entryAt ctab b).getD [] := by
  induction cells generalizing i bits with
  | nil => cases h; exact ⟨[], rfl, nofun, rfl⟩
  | cons cell cells ih =>
    cases cell with
    | none => cases h
    | some b =>
      rw [encodeCells] at h
      cases hcode : entryAt ctab b with
      | none => simp [hcode] at h
      | some code =>
        cases hrest : encodeCells ctab (i + 1) cells with
        | error e => simp [hcode, hrest] at h
        | ok rest =>
          simp only [hcode, hrest, Except.ok.injEq] at h
          obtain ⟨input, rfl, hcoded, rfl⟩ := ih hrest
          refine ⟨b :: input, rfl, ?_, by simp [hcode, ← h]⟩
          rw [List.forall_mem_cons]
          exact ⟨by simp [hcode], hcoded⟩

/-- Bytes with codes before the cell at i do not keep the encoding from stopping there (R180). -/
theorem encodeCells_eq_error_of_drop {ctab : Vector CodeEntry 256} {k i : Nat} {cells : List (Option Byte)} {e : EncodeStop}
    (hcoded : ∀ j, j < i → ∃ b c, cells[j]? = some (some b) ∧ entryAt ctab b = some c)
    (hstop : encodeCells ctab (k + i) (cells.drop i) = .error e) : encodeCells ctab k cells = .error e := by
  induction i generalizing k cells with
  | zero => exact hstop
  | succ i ih =>
    obtain ⟨b, c, hcell, hcode⟩ := hcoded 0 (Nat.succ_pos i)
    cases cells with
    | nil => cases hcell
    | cons cell cells =>
      obtain rfl : cell = some b := Option.some.inj hcell
      have hrest : encodeCells ctab (k + 1) cells = .error e :=
        ih (fun j hj => hcoded (j + 1) (Nat.succ_lt_succ hj)) (by rw [Nat.add_assoc, Nat.add_comm 1]; exact hstop)
      simp [encodeCells, hcode, hrest]

theorem drop_inputCells {s : State} {i : Nat} (hi : i < s.inLen.toNat) :
    s.inputCells.drop i = s.bufByte .ibuf i :: s.inputCells.drop (i + 1) := by
  rw [List.drop_eq_getElem_cons (by simpa [State.inputCells] using hi)]
  simp [State.inputCells, Memory.readCells, State.bufByte]

/-- The encoding stops at the first byte of IBUF that is none or has no code, where every byte before it has one (R180). -/
theorem encodeCells_inputCells_eq_error {s : State} {i : Nat} {e : EncodeStop} (hi : i < s.inLen.toNat)
    (hcoded : ∀ j, j < i → ∃ b c, s.bufByte .ibuf j = some b ∧ entryAt s.ctab b = some c)
    (hstop : encodeCells s.ctab i (s.bufByte .ibuf i :: s.inputCells.drop (i + 1)) = .error e) :
    encodeCells s.ctab 0 s.inputCells = .error e := by
  refine encodeCells_eq_error_of_drop (i := i) (fun j hj => ?_) (by rwa [Nat.zero_add, drop_inputCells hi])
  obtain ⟨b, c, hbyte, hcode⟩ := hcoded j hj
  refine ⟨b, c, ?_, hcode⟩
  simpa [State.inputCells, Memory.readCells, State.bufByte, hj.trans hi] using hbyte

/-! ### The ends of ENCODE -/

theorem opEncode_eq_inputTooLong {s : State} (h : s.cfg.capIbuf < s.inLen.toNat) :
    opEncode s = .raised s 0x04#8 .inputTooLong s.inLen :=
  if_pos h

theorem opEncode_eq_empty {s : State} (h : s.inLen = 0#32) : opEncode s = .done { s with bitCnt := 0#32 } := by
  rw [opEncode, if_neg (by simp [h]), if_pos h]

section
variable {s : State} (hcap : s.inLen.toNat ≤ s.cfg.capIbuf) (hne : s.inLen ≠ 0#32)
include hcap hne

theorem opEncode_eq_noCodeTable (hinvalid : s.status.ctabValid = false) :
    opEncode s = .raised s 0x04#8 .noCodeTable 0#32 := by
  rw [opEncode, if_neg hcap.not_gt, if_neg hne, if_neg (by simp [hinvalid])]
  rfl

variable (hvalid : s.status.ctabValid = true)
include hvalid

theorem opEncode_eq_fault (hcells : encodeCells s.ctab 0 s.inputCells = .error .uninit) :
    opEncode s = .fault .uninitRead := by
  rw [opEncode, if_neg hcap.not_gt, if_neg hne, if_pos hvalid, hcells]

theorem opEncode_eq_unknownSymbol {i : Nat} (hcells : encodeCells s.ctab 0 s.inputCells = .error (.unknown i)) :
    opEncode s = .raised s 0x04#8 .unknownSymbol (BitVec.ofNat 32 i) := by
  rw [opEncode, if_neg hcap.not_gt, if_neg hne, if_pos hvalid, hcells]
  rfl

theorem opEncode_eq_overflow {bits : BitString} (hcells : encodeCells s.ctab 0 s.inputCells = .ok bits)
    (hlong : 8 * s.cfg.capBbuf < bits.length) :
    opEncode s = .raised s 0x04#8 .bitBufferOverflow (BitVec.ofNat 32 bits.length) := by
  rw [opEncode, if_neg hcap.not_gt, if_neg hne, if_pos hvalid, hcells]
  exact if_pos hlong

end

theorem State.holdsInput.encodeCells_eq {s : State} {input : List Byte} {code : Byte → BitString} (h : s.holdsInput input)
    (hcode : ∀ b ∈ input, entryAt s.ctab b = some (code b)) :
    encodeCells s.ctab 0 s.inputCells = .ok (input.flatMap code) :=
  (congrArg _ h.map_some.symm).trans (encodeCells_eq_ok 0 hcode)

/-! ### The statements -/

/-- Settles O47: the codes are committed as a stream of whole words, and a run of writes leaves every other byte. -/
theorem encodeConcatenatesCodes : Obligations.EncodeConcatenatesCodes := by
  intro s input code hwf hne hcap hvalid hinput hcode hfit
  have hbbuf : s.cfg.capBbuf ≤ 0x100000 := Buffer.cap_le hwf .bbuf
  refine ⟨_, congrArg OpOut.complete (opEncode_eq_done hcap hne hvalid hinput hcode hfit), rfl,
    toNat_bitCnt_commitStream s (by omega), fun k hk => bufBit_commitStream s hk, fun a ha => ?_⟩
  exact Memory.read_writeBytes_outside _ _ (by rwa [length_packedBytes])

/-- Settles O48: each clause is an end of ENCODE, the ones in the middle by the first cell at which the encoding stops. -/
theorem encodeErrors : Obligations.EncodeErrors := by
  intro s
  refine ⟨fun hlong => congrArg OpOut.complete (opEncode_eq_inputTooLong hlong),
    fun hzero => congrArg OpOut.complete (opEncode_eq_empty hzero), fun hcap hne =>
    ⟨fun hinvalid => congrArg OpOut.complete (opEncode_eq_noCodeTable hcap hne hinvalid), fun hvalid =>
    ⟨fun i hi hcoded => ⟨fun hnone => ?_, fun b hb hmiss => ?_⟩, fun input code hinput hcode hlong => ?_⟩⟩⟩
  · have hstop := encodeCells_inputCells_eq_error hi hcoded (e := .uninit) (by rw [hnone, encodeCells])
    exact congrArg OpOut.complete (opEncode_eq_fault hcap hne hvalid hstop)
  · have hstop := encodeCells_inputCells_eq_error hi hcoded (e := .unknown i) (by rw [hb, encodeCells, hmiss])
    exact congrArg OpOut.complete (opEncode_eq_unknownSymbol hcap hne hvalid hstop)
  · exact congrArg OpOut.complete (opEncode_eq_overflow hcap hne hvalid (hinput.encodeCells_eq hcode) hlong)

end Sys2Proof.Machine
end

section
/-! The decode walk (R188, R189, R191): along whole paths it emits their bytes and is back at the root, and inside a path it
stands at an internal node other than the root. -/

namespace Sys2Proof.Machine

/-! ### One bit -/

section
variable {nodes : Vector Node 512} {root : NodeIx}

theorem child_internal {p l r : NodeIx} {f : NodeFreq} (hp : nodeAt nodes p = .internal f l r) (b : Bool) :
    child nodes p b = if b then r else l := by
  rw [child, hp]
  rfl

theorem walkBits_cons_leaf {p : NodeIx} {b : Bool} {sym : Byte} {f : NodeFreq}
    (hq : nodeAt nodes (child nodes p b) = .leaf sym f) (rest : BitString) (k start : Nat) :
    walkBits nodes root (b :: rest) k p start =
      (walkBits nodes root rest (k + 1) root (if p = root then k else start)).map (sym :: ·) := by
  rw [walkBits]
  simp only [hq]
  cases walkBits nodes root rest (k + 1) root (if p = root then k else start) <;> rfl

theorem walkBits_cons_internal {p l r : NodeIx} {b : Bool} {f : NodeFreq}
    (hq : nodeAt nodes (child nodes p b) = .internal f l r) (rest : BitString) (k start : Nat) :
    walkBits nodes root (b :: rest) k p start =
      walkBits nodes root rest (k + 1) (child nodes p b) (if p = root then k else start) := by
  rw [walkBits]
  simp only [hq]

/-- At the root a code is about to begin, whatever start the walk carries (R186). -/
theorem walkBits_start (bits : BitString) (k : Nat) (p : NodeIx) (start : Nat) :
    walkBits nodes root bits k p start = walkBits nodes root bits k p (if p = root then k else start) := by
  cases bits <;> by_cases hp : p = root <;> simp [walkBits, hp]

theorem walkBits_root_start (bits : BitString) (k start : Nat) :
    walkBits nodes root bits k root start = walkBits nodes root bits k root k := by
  rw [walkBits_start, if_pos rfl]

/-! ### Paths -/

/-- A path to an internal node begins at one. -/
theorem exists_internal_of_descend {p q l r : NodeIx} {f : NodeFreq} {path : BitString}
    (hd : descend nodes p path = some q) (hq : nodeAt nodes q = .internal f l r) :
    ∃ g l' r', nodeAt nodes p = .internal g l' r' := by
  cases path with
  | nil => cases hd; exact ⟨f, l, r, hq⟩
  | cons b path =>
    obtain ⟨g, l', r', hp, -⟩ := descend_cons_eq_some.1 hd
    exact ⟨g, l', r', hp⟩

/-- Below a root that is internal no path to a leaf is empty. -/
theorem isPathTo_ne_nil {f : NodeFreq} {l r : NodeIx} (hroot : nodeAt nodes root = .internal f l r) {v : Byte}
    {path : BitString} (hpath : isPathTo nodes root path v) : path ≠ [] :=
  isCodeOf_ne_nil (.inr ⟨f, l, r, hroot, hpath⟩)

variable {n : Nat} (h : IsTree nodes n)
include h

/-- A path with a bit in it ends below its start. -/
theorem IsTree.descend_lt {p q : NodeIx} {path : BitString} (hd : descend nodes p path = some q) (hne : path ≠ []) :
    q.toNat < p.toNat := by
  obtain ⟨b, path, rfl⟩ := List.exists_cons_of_ne_nil hne
  obtain ⟨f, l, r, hp, hd⟩ := descend_cons_eq_some.1 hd
  exact (h.length_path_le hd).2.trans_lt (h.child_lt hp b)

/-- Along a path to an internal node the walk follows it, emits nothing and keeps the start of the code (R189). -/
theorem IsTree.walkBits_append_internal {p q l r : NodeIx} {f : NodeFreq} {path : BitString}
    (hle : p.toNat ≤ root.toNat) (hd : descend nodes p path = some q) (hq : nodeAt nodes q = .internal f l r)
    (rest : BitString) (k start : Nat) :
    walkBits nodes root (path ++ rest) k p start =
      walkBits nodes root rest (k + path.length) q (if p = root then k else start) := by
  induction path generalizing p k start with
  | nil => cases hd; exact walkBits_start rest k _ start
  | cons b path ih =>
    obtain ⟨g, l', r', hp, hd⟩ := descend_cons_eq_some.1 hd
    rw [← child_internal hp] at hd
    have hlt : (child nodes p b).toNat < p.toNat := by rw [child_internal hp]; exact h.child_lt hp b
    have hroot : child nodes p b ≠ root := fun heq => by rw [heq] at hlt; omega
    obtain ⟨g', l'', r'', hchild⟩ := exists_internal_of_descend hd hq
    rw [List.cons_append, walkBits_cons_internal hchild, ih (by omega) hd, if_neg hroot, List.length_cons,
      Nat.add_right_comm, Nat.add_assoc]

/-- Along the path to a byte's leaf the walk emits the byte and is back at the root (R189). -/
theorem IsTree.walkBits_append_path {v : Byte} {path : BitString} (hpath : isPathTo nodes root path v) (hne : path ≠ [])
    (rest : BitString) (k : Nat) :
    walkBits nodes root (path ++ rest) k root k =
      (walkBits nodes root rest (k + path.length) root (k + path.length)).map (v :: ·) := by
  obtain ⟨q, f, hd, hleaf⟩ := hpath
  obtain ⟨path, b, rfl⟩ := (List.eq_nil_or_concat' path).resolve_left hne
  obtain ⟨m, g, l, r, hm, hnode, rfl⟩ := descend_concat_eq_some.1 hd
  rw [← child_internal hnode] at hleaf
  rw [List.append_assoc, h.walkBits_append_internal le_rfl hm hnode, List.singleton_append, walkBits_cons_leaf hleaf,
    walkBits_root_start, List.length_append, List.length_singleton, Nat.add_assoc]

/-- Along the paths of a byte string the walk emits it and is back at the root (R189). -/
theorem IsTree.walkBits_append_flatMap {out : List Byte} {path : Byte → BitString}
    (hpath : ∀ v ∈ out, isPathTo nodes root (path v) v) (hne : ∀ v ∈ out, path v ≠ []) (rest : BitString) (k : Nat) :
    walkBits nodes root (out.flatMap path ++ rest) k root k =
      (walkBits nodes root rest (k + (out.flatMap path).length) root (k + (out.flatMap path).length)).map (out ++ ·) := by
  induction out generalizing k with
  | nil => cases hw : walkBits nodes root rest k root k <;> simp [hw, Except.map]
  | cons v out ih =>
    rw [List.forall_mem_cons] at hpath hne
    rw [List.flatMap_cons, List.append_assoc, h.walkBits_append_path hpath.1 hne.1, ih hpath.2 hne.2, List.length_append,
      Nat.add_assoc]
    generalize walkBits nodes root rest _ root _ = tail
    cases tail <;> rfl

/-! ### What a stream decodes to -/

/-- A stream decodes to the byte string whose leaves' paths it concatenates (R188, R189). -/
theorem IsTree.decodeBits_eq_ok {bits : BitString} {out : List Byte} (hd : decodesTo nodes root bits out) :
    decodeBits nodes root bits = .ok out := by
  rcases hd with ⟨sym, f, hleaf, rfl⟩ | ⟨f, l, r, hroot, path, hpath, rfl⟩
  · rw [decodeBits, hleaf]
  · have hwalk := h.walkBits_append_flatMap hpath (fun v hv => isPathTo_ne_nil hroot (hpath v hv)) [] 0
    rw [List.append_nil] at hwalk
    rw [decodeBits, hroot]
    simpa [walkBits, Except.map] using hwalk

/-- A stream that ends inside a code decodes to nothing but the start of that code (R191). -/
theorem IsTree.decodeBits_eq_error {bits : BitString} {start : Nat} (hends : endsInsideCode nodes root bits start) :
    decodeBits nodes root bits = .error start := by
  obtain ⟨whole, path, rest, q, f, l, r, hpath, hne, hd, hq, rfl, rfl⟩ := hends
  obtain ⟨g, l', r', hroot⟩ := exists_internal_of_descend hd hq
  have hbelow : q ≠ root := fun heq => by
    have := h.descend_lt hd hne
    rw [heq] at this
    omega
  have hinside := h.walkBits_append_internal le_rfl hd hq [] (whole.flatMap path).length (whole.flatMap path).length
  have hwalk := h.walkBits_append_flatMap hpath (fun v hv => isPathTo_ne_nil hroot (hpath v hv)) rest 0
  rw [List.append_nil, walkBits, if_neg hbelow, if_pos rfl] at hinside
  rw [Nat.zero_add, hinside] at hwalk
  rw [decodeBits, hroot]
  exact hwalk

end

/-- No stream decodes to more bytes than it has bits: every code has a bit (R186). -/
theorem decodesTo.length_le {nodes : Vector Node 512} {root : NodeIx} {bits : BitString} {out : List Byte}
    (hd : decodesTo nodes root bits out) : out.length ≤ bits.length := by
  rcases hd with ⟨sym, f, -, rfl⟩ | ⟨f, l, r, hroot, path, hpath, rfl⟩
  · simp
  · rw [List.length_flatMap, ← List.length_map (fun v => (path v).length)]
    refine List.length_le_sum_of_one_le _ fun m hm => ?_
    obtain ⟨v, hv, rfl⟩ := List.mem_map.1 hm
    exact List.length_pos_of_ne_nil (isPathTo_ne_nil hroot (hpath v hv))

end Sys2Proof.Machine
end

section
/-! DECODE (R186 to R191): the ends of the command, then O49 to O51. -/

namespace Sys2Proof.Machine

/-! ### The ends of DECODE -/

theorem opDecode_eq_bitCountTooLarge {s : State} (h : 8 * s.cfg.capBbuf < s.bitCnt.toNat) :
    opDecode s = .raised s 0x05#8 .bitCountTooLarge s.bitCnt :=
  if_pos h

theorem opDecode_eq_empty {s : State} (h : s.bitCnt = 0#32) : opDecode s = .done { s with outLen := 0#32 } := by
  rw [opDecode, if_neg (by simp [h]), if_pos h]

section
variable {s : State} (hcap : s.bitCnt.toNat ≤ 8 * s.cfg.capBbuf) (hne : s.bitCnt ≠ 0#32)
include hcap hne

theorem opDecode_eq_noTree (hinvalid : s.status.treeValid = false) : opDecode s = .raised s 0x05#8 .noTree 0#32 := by
  rw [opDecode, if_neg hcap.not_gt, if_neg hne, if_neg (by simp [hinvalid])]
  rfl

variable (hvalid : s.status.treeValid = true)
include hvalid

theorem opDecode_eq_fault (hnone : s.streamBytes = none) : opDecode s = .fault .uninitRead := by
  rw [opDecode, if_neg hcap.not_gt, if_neg hne, if_pos hvalid, hnone]

variable {bits : BitString} (hstream : s.holdsStream bits)
include hstream

theorem opDecode_eq_truncatedStream {start : Nat} (hbits : decodeBits s.nodes s.root bits = .error start) :
    opDecode s = .raised s 0x05#8 .truncatedStream (BitVec.ofNat 32 start) := by
  obtain ⟨bytes, hbytes, rfl⟩ := hstream.exists_bytes
  rw [opDecode, if_neg hcap.not_gt, if_neg hne, if_pos hvalid, hbytes]
  simp only [hbits]
  rfl

theorem opDecode_eq_emitOutput {out : List Byte} (hbits : decodeBits s.nodes s.root bits = .ok out) :
    opDecode s = s.emitOutput out := by
  obtain ⟨bytes, hbytes, rfl⟩ := hstream.exists_bytes
  rw [opDecode, if_neg hcap.not_gt, if_neg hne, if_pos hvalid, hbytes]
  simp only [hbits]

/-- DECODE of a stream that decodes to bytes within OBUF commits them (R186). -/
theorem opDecode_eq_done {out : List Byte} (hbits : decodeBits s.nodes s.root bits = .ok out)
    (hfit : out.length ≤ s.cfg.capObuf) : opDecode s = .done (s.commitOutput out) :=
  (opDecode_eq_emitOutput hcap hne hvalid hstream hbits).trans (if_neg hfit.not_gt)

end

/-! ### The statements -/

/-- Settles O49: the walk yields the bytes, and a run of writes of them, zero-filled, leaves every other byte. -/
theorem decodeWalksTree : Obligations.DecodeWalksTree := by
  intro s bits out htree hvalid hne hcap hstream hdecodes hfit
  obtain ⟨hnodes, -⟩ := htree.valid hvalid
  have hlen : out.length < 2 ^ 32 :=
    calc out.length ≤ s.bitCnt.toNat := hstream.1 ▸ hdecodes.length_le
      _ < 2 ^ 32 := s.bitCnt.isLt
  have hdone := opDecode_eq_done hcap hne hvalid hstream (hnodes.decodeBits_eq_ok hdecodes) hfit
  refine ⟨_, congrArg OpOut.complete hdone, rfl, toNat_outLen_commitOutput s hlen,
    fun i hi => bufByte_commitOutput s hi, fun a ha => ?_⟩
  exact Memory.read_writeBytes_outside _ _ (by rwa [length_paddedBytes])

/-- Settles O50: the walk stops with the start of the unfinished code, and an error writes nothing. -/
theorem decodeDetectsTruncation : Obligations.DecodeDetectsTruncation := by
  intro s bits start htree hvalid hcap hstream hends
  obtain ⟨hnodes, -⟩ := htree.valid hvalid
  have hne : s.bitCnt ≠ 0#32 := fun hzero => by
    obtain ⟨whole, path, rest, q, f, l, r, -, hrest, -, -, hbits, -⟩ := hends
    have hnil : bits = [] := List.eq_nil_of_length_eq_zero (by simpa [hzero] using hstream.1)
    exact hrest (List.append_eq_nil_iff.1 (hbits.symm.trans hnil)).2
  exact congrArg OpOut.complete
    (opDecode_eq_truncatedStream hcap hne hvalid hstream (hnodes.decodeBits_eq_error hends))

/-- Settles O51: each clause is an end of DECODE, the last one the capacity check on what the walk yields. -/
theorem decodeErrors : Obligations.DecodeErrors := by
  intro s
  refine ⟨fun hlarge => congrArg OpOut.complete (opDecode_eq_bitCountTooLarge hlarge),
    fun hzero => congrArg OpOut.complete (opDecode_eq_empty hzero), fun hcap hne =>
    ⟨fun hinvalid => congrArg OpOut.complete (opDecode_eq_noTree hcap hne hinvalid),
      fun hvalid hnone => congrArg OpOut.complete (opDecode_eq_fault hcap hne hvalid (streamBytes_eq_none.2 hnone)),
      fun bits out htree hvalid hstream hdecodes hlong => ?_⟩⟩
  obtain ⟨hnodes, -⟩ := htree.valid hvalid
  have hemit := opDecode_eq_emitOutput hcap hne hvalid hstream (hnodes.decodeBits_eq_ok hdecodes)
  exact congrArg OpOut.complete (hemit.trans (if_pos hlong))

end Sys2Proof.Machine
end

section
/-! DECODE after ENCODE (R192): a successful ENCODE leaves the input's codes as a stream, which decodes to the input. O52. -/

namespace Sys2Proof.Machine

/-- What an ENCODE without error did: nothing but BIT_CNT = 0 for the empty input, else the commit of a written input's codes
(R180, R183). -/
theorem exec_encode_succeeds {s t : State} (he : exec .encode s = .next t) (herr : t.status.err = false) :
    (s.inLen = 0#32 ∧ t.bitCnt = 0#32) ∨
      ∃ input code, s.inLen ≠ 0#32 ∧ s.holdsInput input ∧ (∀ b ∈ input, entryAt s.ctab b = some (code b)) ∧
        (input.flatMap code).length ≤ 8 * s.cfg.capBbuf ∧ t = (s.commitStream (input.flatMap code)).completeOk := by
  have hcomplete : (opEncode s).complete = .next t := he
  rcases opEncode_cases s with ⟨cause, info, ho⟩ | ho | ⟨hzero, ho⟩ | ⟨bits, hne, -, -, hcells, hfit, ho⟩ <;>
    rw [ho] at hcomplete <;> cases hcomplete
  · cases herr
  · exact .inl ⟨hzero, rfl⟩
  · obtain ⟨input, hmap, hcode, rfl⟩ := exists_input_of_encodeCells_eq_ok hcells
    exact .inr ⟨input, _, hne, inputBytes_eq_some.1 (allValues_eq_some.2 hmap), hcode, hfit, rfl⟩

/-- The codes of a byte string under a tree, in order, decode to it: each code is one bit in the degenerate tree, and a leaf's
path in any other (R171, R172, R192). -/
theorem decodesTo_flatMap_codes {nodes : Vector Node 512} {root : NodeIx} {input : List Byte} {code : Byte → BitString}
    (hcode : ∀ b ∈ input, isCodeOf nodes root b (code b)) : decodesTo nodes root (input.flatMap code) input := by
  cases hroot : nodeAt nodes root with
  | leaf sym f =>
    have hone : ∀ b ∈ input, b = sym ∧ code b = [false] := fun b hb => by
      rcases hcode b hb with ⟨g, hleaf, hbit⟩ | ⟨g, l, r, hnode, -⟩
      · rw [hroot] at hleaf
        cases hleaf
        exact ⟨rfl, hbit⟩
      · rw [hroot] at hnode
        cases hnode
    have hbits : input.flatMap code = input.map fun _ => false :=
      (List.flatMap_congr fun b hb => (hone b hb).2).trans (List.flatMap_pure_eq_map _ _)
    refine .inl ⟨sym, f, hroot, List.eq_replicate_iff.2 ⟨?_, fun b hb => (hone b hb).1⟩⟩
    rw [hbits, List.length_map]
  | internal f l r =>
    refine .inr ⟨f, l, r, hroot, code, fun b hb => ?_, rfl⟩
    rcases hcode b hb with ⟨g, hleaf, -⟩ | ⟨g, l', r', -, hpath⟩
    · rw [hroot] at hleaf
      cases hleaf
    · exact hpath

/-- Settles O52: the stream that ENCODE commits decodes to the input under the tree whose codes the table holds, and DECODE of
it writes that input. -/
theorem decodeInvertsEncode : Obligations.DecodeInvertsEncode := by
  intro s t u hwf htree hcodes hctab _ hfit he herr hcfg hnodes hroot hvalid herru hcnt hbytes
  rcases exec_encode_succeeds he herr with ⟨hzero, hempty⟩ | ⟨input, code, hne, hinput, hcode, hlen, rfl⟩
  · refine ⟨_, congrArg OpOut.complete (opDecode_eq_empty (hcnt.trans hempty)), herru, hzero.symm, fun i hi => ?_⟩
    simp [hzero] at hi
  · have hbbuf : s.cfg.capBbuf ≤ 0x100000 := Buffer.cap_le hwf .bbuf
    obtain ⟨htree, -⟩ := htree.valid (hcodes.needsTree hctab)
    have hdecodes := decodesTo_flatMap_codes fun b hb => (hcodes.exact hctab b _).1 (hcode b hb)
    have hstream : u.holdsStream (input.flatMap code) :=
      (commitStream_holdsStream s (by omega)).congr hcnt hbytes
    obtain ⟨hinLen, hbyte⟩ := hinput
    have hinputLe : input.length ≤ u.bitCnt.toNat := hstream.1 ▸ hdecodes.length_le
    have hneu : u.bitCnt ≠ 0#32 := fun hzero =>
      hne (BitVec.eq_of_toNat_eq (by simpa [hzero, hinLen] using hinputLe))
    have hdone : opDecode u = .done (u.commitOutput input) := by
      refine opDecode_eq_done (by rwa [hcfg, ← hstream.1]) hneu hvalid hstream ?_ (by rwa [hcfg, hinLen])
      rw [hnodes, hroot]
      exact htree.decodeBits_eq_ok hdecodes
    refine ⟨_, congrArg OpOut.complete hdone, herru, ?_, fun i hi => ?_⟩
    · exact BitVec.eq_of_toNat_eq ((toNat_outLen_commitOutput u (by omega)).trans hinLen)
    · rw [← hinLen] at hi
      calc (u.commitOutput input).bufByte .obuf i
          = some (input.getD i 0#8) := bufByte_commitOutput u (by rw [ceilDiv]; omega)
        _ = s.bufByte .ibuf i := by simp [hbyte i hi, hi]

end Sys2Proof.Machine
end

section
/-! COMPRESS (R200 to R202): commands without error, the run of BUILD and CODES that ENCODE goes on from, then O53 to O55. -/

namespace Sys2Proof.Machine

/-! ### Commands without error -/

/-- A command that leaves ERR clear found it clear, since no command clears it, and committed its operation (R125, R126). -/
theorem exec_succeeds {i : Instr} {s t : State} (he : exec i s = .next t) (herr : t.status.err = false) :
    s.status.err = false ∧ ∃ a, opOf i s = .done a ∧ t = a.completeOk := by
  obtain ⟨-, -, -, -, ⟨hkept, -⟩ | ⟨hset, -⟩⟩ := completionShape i s t he
  · rw [exec_eq_complete] at he
    rcases OpOut.complete_cases he with hdone | ⟨a, op, cause, info, -, rfl⟩
    · exact ⟨hkept.symm.trans herr, hdone⟩
    · cases herr
  · rw [hset] at herr
    cases herr

/-- An outcome with the state it leaves rewritten. -/
def OpOut.mapState (f : State → State) : OpOut → OpOut
  | .done s => .done (f s)
  | .raised s op cause info => .raised (f s) op cause info
  | .fault e => .fault e

/-- BUILD, CODES and ENCODE neither read nor write what a completion in success does (R126). -/
theorem opOf_completeOk {i : Instr} (hi : i ∈ [.build, .codes, .encode]) (s : State) :
    opOf i s.completeOk = (opOf i s).mapState State.completeOk := by
  simp only [List.mem_cons, List.not_mem_nil, or_false] at hi
  rcases hi with rfl | rfl | rfl
  · show opBuild s.completeOk = (opBuild s).mapState State.completeOk
    rw [opBuild, opBuild, State.completeOk_freq]
    cases firstNegative s.freq with
    | some v => rfl
    | none => cases (presentSymbols s.freq).isEmpty <;> rfl
  · show opCodes s.completeOk = (opCodes s).mapState State.completeOk
    rcases opCodes_cases s with ⟨hinvalid, ho⟩ | ⟨hvalid, ho⟩ <;> rw [ho]
    · exact if_neg (by simp [Status.completedOk, hinvalid])
    · exact if_pos hvalid
  · show opEncode s.completeOk = (opEncode s).mapState State.completeOk
    have hcells : s.completeOk.inputCells = s.inputCells := rfl
    have hvalid : s.completeOk.status.ctabValid = s.status.ctabValid := rfl
    simp only [opEncode, State.completeOk_cfg, State.completeOk_inLen, State.completeOk_ctab, hcells, hvalid]
    split
    · rfl
    split
    · rfl
    split
    · cases encodeCells s.ctab 0 s.inputCells with
      | error stop => cases stop <;> rfl
      | ok bits =>
        simp only [apply_ite (OpOut.mapState State.completeOk)]
        rfl
    · rfl

theorem exec_completeOk_succeeds {i : Instr} (hi : i ∈ [.build, .codes, .encode]) {s t : State}
    (he : exec i s.completeOk = .next t) (herr : t.status.err = false) :
    s.status.err = false ∧ ∃ a, opOf i s = .done a ∧ t = a.completeOk := by
  obtain ⟨hclear, a, ho, rfl⟩ := exec_succeeds he herr
  rw [opOf_completeOk hi] at ho
  cases hs : opOf i s with
  | done c =>
    rw [hs] at ho
    cases ho
    exact ⟨hclear, c, rfl, rfl⟩
  | _ => rw [hs] at ho; cases ho

/-! ### COMPRESS as its sub-operations -/

/-- After a COUNT of a non-empty input COMPRESS goes on with BUILD, CODES and ENCODE (R200). -/
theorem opCompress_eq_of_opCount {s a : State} (hcount : opCount s = .done a) (hne : a.inLen ≠ 0#32) :
    opCompress s = ((opBuild a).andThen opCodes).andThen opEncode := by
  rw [opCompress, hcount, OpOut.done_andThen, if_neg hne]

theorem inLen_of_opCount_eq_done {s a : State} (hcount : opCount s = .done a) : a.inLen = s.inLen := by
  rcases opCount_cases s with ⟨-, ho⟩ | ⟨-, -, ho⟩ | ⟨bytes, -, -, ho⟩ <;> rw [ho] at hcount <;> cases hcount
  rfl

/-- Settles O53: with ERR clear at the end every sub-operation committed, and a completion between two of them writes nothing
that the next one reads. -/
theorem compressIsSequence : Obligations.CompressIsSequence := by
  intro s a b c d _ hne hcount hbuild hcodes hencode herr
  obtain ⟨herrc, -⟩ := exec_succeeds hencode herr
  obtain ⟨herrb, -⟩ := exec_succeeds hcodes herrc
  obtain ⟨herra, -⟩ := exec_succeeds hbuild herrb
  obtain ⟨-, a, ha, rfl⟩ := exec_succeeds hcount herra
  obtain ⟨-, b, hb, rfl⟩ := exec_completeOk_succeeds (by decide) hbuild herrb
  obtain ⟨-, c, hc, rfl⟩ := exec_completeOk_succeeds (by decide) hcodes herrc
  obtain ⟨-, d, hd, rfl⟩ := exec_completeOk_succeeds (by decide) hencode herr
  have hinLen := inLen_of_opCount_eq_done ha
  simp only [opOf] at ha hb hc hd
  rw [exec_eq_complete, opOf, opCompress_eq_of_opCount ha (hinLen ▸ hne), hb, OpOut.done_andThen, hc, OpOut.done_andThen, hd,
    OpOut.complete_done]

/-! ### BUILD and CODES in a COMPRESS -/

theorem commit_of_opBuild_eq_done {s a : State} (h : opBuild s = .done a) : Commit .build s a := by
  rcases opBuild_cases s with ⟨v, -, ho⟩ | ⟨-, -, ho⟩ | ⟨hneg, hsome, ho⟩ <;> rw [ho] at h <;> cases h
  exact .build s hneg hsome

theorem commit_of_opCodes_eq_done {s a : State} (h : opCodes s = .done a) : Commit .codes s a := by
  rcases opCodes_cases s with ⟨-, ho⟩ | ⟨hvalid, ho⟩ <;> rw [ho] at h <;> cases h
  exact .codes s hvalid

theorem Commit.treeInv_of_build {s a : State} (h : Commit .build s a) : a.TreeInv ∧ a.status.treeValid = true := by
  cases h with
  | build _ _ hsome =>
    obtain ⟨htree, -, hvalid⟩ := commitTree_spec hsome rfl
    exact ⟨htree, hvalid⟩

/-- What COUNT, BUILD and CODES of a COMPRESS leave for ENCODE: the counts of the input, the tree that BUILD makes of them, its
codes, one for every byte and eight bits a byte or less in all, and what else ENCODE reads or keeps as it was (R200, R202). -/
structure ReadyToEncode (s : State) (input : List Byte) (code : Byte → BitString) (b : State) : Prop where
  cfg : b.cfg = s.cfg
  mem : b.mem = s.mem
  inLen : b.inLen = s.inLen
  bitCnt : b.bitCnt = s.bitCnt
  err : b.status.err = s.status.err
  freq : b.freq = countTable input
  treeValid : b.status.treeValid = true
  ctabValid : b.status.ctabValid = true
  built : ∃ a, opBuild { s with freq := countTable input } = .done a ∧ b.nodes = a.nodes ∧ b.root = a.root
  coded : ∀ v ∈ input, entryAt b.ctab v = some (code v)
  exact : ∀ v c, entryAt b.ctab v = some c ↔ isCodeOf b.nodes b.root v c
  short : (input.flatMap code).length ≤ 8 * input.length

/-- A COMPRESS of a non-empty input is the ENCODE of what COUNT, BUILD and CODES make ready (R200, R202). -/
theorem opCompress_eq_opEncode {s : State} {input : List Byte} (hle : s.inLen.toNat ≤ s.cfg.capIbuf)
    (hcap : s.cfg.capIbuf < 2 ^ 31) (hne : s.inLen ≠ 0#32) (hinput : s.holdsInput input) :
    ∃ b code, opCompress s = opEncode b ∧ ReadyToEncode s input code b := by
  have hlen : input.length = s.inLen.toNat := hinput.1
  have hnil : input ≠ [] := by
    rintro rfl
    exact hne (BitVec.eq_of_toNat_eq hlen.symm)
  obtain ⟨b, code, hdone, hcfg, hmem, hin, herr, hvalid, hcoded, hshort⟩ :=
    buildCodes_eq_done (s := { s with freq := countTable input }) rfl hnil (by omega)
  obtain ⟨a, hbuild, hcodes⟩ := OpOut.andThen_eq_done.1 hdone
  have hbuilt := commit_of_opBuild_eq_done hbuild
  obtain ⟨htree, htreeValid⟩ := hbuilt.treeInv_of_build
  have hexact : ∀ v c, entryAt b.ctab v = some c ↔ isCodeOf b.nodes b.root v c := by
    cases commit_of_opCodes_eq_done hcodes
    exact (codes_codeInv htree htreeValid).exact rfl
  have hcoding := commit_of_opCodes_eq_done hcodes
  have hpart := hcoding.keeps_treePart (by decide)
  simp only [State.treePart, Prod.mk.injEq] at hpart
  obtain ⟨hnodes, -, -, hroot, -, hkept⟩ := hpart
  refine ⟨b, code, ?_, ?_⟩
  · rw [opCompress_eq_of_opCount (opCount_eq_done hle hinput) hne, hdone, OpOut.done_andThen]
  · constructor
    case built => exact ⟨a, hbuild, hnodes, hroot⟩
    case bitCnt => exact (hcoding.keeps_bitCnt (by decide)).trans (hbuilt.keeps_bitCnt (by decide))
    case freq => exact (hcoding.keeps_freq (by decide)).trans (hbuilt.keeps_freq (by decide))
    case treeValid => exact hkept.trans htreeValid
    all_goals assumption

theorem ReadyToEncode.holdsInput {s b : State} {input : List Byte} {code : Byte → BitString}
    (h : ReadyToEncode s input code b) (hinput : s.holdsInput input) : b.holdsInput input := by
  rw [← inputBytes_eq_some] at hinput ⊢
  rwa [State.inputBytes, h.mem, h.inLen]

/-! ### The ends of COMPRESS -/

/-- Settles O54: ENCODE of what is ready has a code for every byte, so that only the room in BBUF can fail it. -/
theorem compressCompletes : Obligations.CompressCompletes := by
  intro s hwf herr hne hle hwritten
  have hibuf : s.cfg.capIbuf ≤ 0x100000 := Buffer.cap_le hwf .ibuf
  have hbbuf : s.cfg.capBbuf ≤ 0x100000 := Buffer.cap_le hwf .bbuf
  obtain ⟨input, hinput⟩ := exists_holdsInput hwritten
  obtain ⟨b, code, ho, hb⟩ := opCompress_eq_opEncode hle (by omega) hne hinput
  have hlen : input.length = s.inLen.toNat := hinput.1
  have hshort := hb.short
  have hexec : exec .compress s = (opEncode b).complete := congrArg OpOut.complete ho
  have hleb : b.inLen.toNat ≤ b.cfg.capIbuf := by rwa [hb.inLen, hb.cfg]
  have hneb : b.inLen ≠ 0#32 := hb.inLen ▸ hne
  have hfreq : ∀ v, entryAt b.freq v =
      BitVec.ofNat 32 ((List.range s.inLen.toNat).countP (fun i => s.bufByte .ibuf i == some v)) := fun v => by
    rw [hb.freq, entryAt_countTable, hinput.count_eq]
  rcases Nat.lt_or_ge (8 * s.cfg.capBbuf) (input.flatMap code).length with hlong | hfit
  · have hraised := opEncode_eq_overflow hleb hneb hb.ctabValid ((hb.holdsInput hinput).encodeCells_eq hb.coded)
      (by rwa [hb.cfg])
    rw [hraised, OpOut.complete_raised] at hexec
    refine ⟨_, hexec, hb.treeValid, hb.ctabValid, hfreq, .inr ⟨rfl, rfl, rfl, ?_, hb.bitCnt, hb.mem⟩, fun hroom => ?_⟩
    · rw [State.completeErr_errInfo, BitVec.toNat_ofNat]
      omega
    · omega
  · have hdone := opEncode_eq_done hleb hneb hb.ctabValid (hb.holdsInput hinput) hb.coded (by rwa [hb.cfg])
    rw [hdone, OpOut.complete_done] at hexec
    have herrb : b.status.err = false := hb.err.trans herr
    refine ⟨_, hexec, hb.treeValid, hb.ctabValid, hfreq, .inl ⟨herrb, ?_⟩, fun _ => herrb⟩
    rwa [State.completeOk_bitCnt, toNat_bitCnt_commitStream b (by omega)]

/-- COMPRESS of the empty input commits the empty payload (R201). -/
theorem opCompress_eq_empty {s : State} (hzero : s.inLen = 0#32) :
    opCompress s = .done { ({ s with freq := countTable [] } : State).invalidateTree with bitCnt := 0#32 } := by
  have hinput : s.holdsInput [] := ⟨by simp [hzero], nofun⟩
  rw [opCompress, opCount_eq_done (by simp [hzero]) hinput, OpOut.done_andThen, if_pos hzero]

/-- Settles O55: the empty payload, and the error and the fault of COUNT. -/
theorem compressEmptyAndErrors : Obligations.CompressEmptyAndErrors := by
  intro s
  refine ⟨fun hzero => ?_, fun hlong => ?_, fun hle hnone => ?_⟩
  · exact ⟨_, congrArg OpOut.complete (opCompress_eq_empty hzero), rfl, fun v => entryAt_countTable [] v⟩
  · rw [exec_eq_complete, opOf, opCompress, opCount_eq_raised hlong, OpOut.raised_andThen, OpOut.complete_raised]
  · rw [exec_eq_complete, opOf, opCompress, opCount_eq_fault hle (inputBytes_eq_none.2 hnone), OpOut.fault_andThen,
      OpOut.complete_fault]

end Sys2Proof.Machine
end

section
/-! DECOMPRESS (R204 to R206): the symbols a stream can decode to, the decode phase as DECODE, then O57 to O59. -/

namespace Sys2Proof.Machine

/-! ### Decoded symbols -/

section
variable {nodes : Vector Node 512} {root : NodeIx}

/-- The walk below a root emits symbols of leaves numbered below it (R189). -/
theorem IsTree.exists_leaf_of_mem_walkBits {n : Nat} (h : IsTree nodes n) {bits : BitString} {k start : Nat} {p : NodeIx}
    {out : List Byte} (hroot : ∃ f l r, nodeAt nodes root = .internal f l r)
    (hp : ∃ f l r, nodeAt nodes p = .internal f l r) (hle : p.toNat ≤ root.toNat)
    (hwalk : walkBits nodes root bits k p start = .ok out) {v : Byte} (hv : v ∈ out) :
    ∃ q f, q.toNat ≤ root.toNat ∧ nodeAt nodes q = .leaf v f := by
  induction bits generalizing k start p out with
  | nil =>
    rw [walkBits] at hwalk
    split at hwalk <;> cases hwalk
    cases hv
  | cons b bits ih =>
    obtain ⟨f, l, r, hnode⟩ := hp
    have hlt : (child nodes p b).toNat < p.toNat := by rw [child_internal hnode]; exact h.child_lt hnode b
    cases hq : nodeAt nodes (child nodes p b) with
    | leaf sym g =>
      rw [walkBits_cons_leaf hq] at hwalk
      cases hrest : walkBits nodes root bits (k + 1) root (if p = root then k else start) with
      | error e => rw [hrest] at hwalk; cases hwalk
      | ok rest =>
        rw [hrest] at hwalk
        cases hwalk
        rcases List.mem_cons.1 hv with rfl | hv
        · exact ⟨_, g, by omega, hq⟩
        · exact ih hroot le_rfl hrest hv
    | internal g l' r' =>
      rw [walkBits_cons_internal hq] at hwalk
      exact ih ⟨g, l', r', hq⟩ (by omega) hwalk hv

/-- A stream decodes to symbols of the tree's leaves (R188, R189). -/
theorem IsTree.exists_leaf_of_mem_decodeBits {n : Nat} (h : IsTree nodes n) {bits : BitString} {out : List Byte}
    (hbits : decodeBits nodes root bits = .ok out) {v : Byte} (hv : v ∈ out) :
    ∃ q f, q.toNat ≤ root.toNat ∧ nodeAt nodes q = .leaf v f := by
  rw [decodeBits] at hbits
  cases hroot : nodeAt nodes root with
  | leaf sym f =>
    rw [hroot] at hbits
    cases hbits
    obtain rfl := List.eq_of_mem_replicate hv
    exact ⟨root, f, le_rfl, hroot⟩
  | internal f l r =>
    rw [hroot] at hbits
    exact h.exists_leaf_of_mem_walkBits ⟨f, l, r, hroot⟩ ⟨f, l, r, hroot⟩ le_rfl hbits hv

/-- Under the tree made of a FREQ table a stream decodes to present symbols (R153, R188, R189). -/
theorem BuiltFrom.mem_presentSymbols_of_mem_decodeBits {freq : Vector Word 256} (h : BuiltFrom nodes freq)
    (hroot : root.toNat = 2 * (presentSymbols freq).length - 2) {bits : BitString} {out : List Byte}
    (hbits : decodeBits nodes root bits = .ok out) {v : Byte} (hv : v ∈ out) : v ∈ presentSymbols freq := by
  have hsize := h.tree.size
  obtain ⟨q, f, hle, hleaf⟩ := h.tree.exists_leaf_of_mem_decodeBits hbits hv
  have hlt := h.tree.leaf_lt (by omega) hleaf
  have hnode := h.leaf q.toNat hlt
  rw [nodeNo_toNat, hleaf] at hnode
  cases hnode
  exact List.getElem_mem hlt

end

/-! ### The stream that BBUF holds -/

theorem holdsStream_of_streamBytes {s : State} {bytes : List Byte} (h : s.streamBytes = some bytes) :
    s.holdsStream (streamBits bytes s.bitCnt.toNat) := by
  obtain ⟨hcount, hbyte⟩ := streamBytes_eq_some.1 h
  refine ⟨length_streamBits .., fun k hk => ?_⟩
  rw [length_streamBits] at hk
  have hplace : k / 8 < bytes.length := hcount ▸ div_lt_ceilDiv hk
  simp [State.bufBit, hbyte _ hplace, streamBits, streamBit, hplace]

/-- BIT_CNT written bits are some stream (R36). -/
theorem exists_holdsStream {s : State} (h : ∀ j, j < ceilDiv s.bitCnt.toNat 8 → s.bufByte .bbuf j ≠ none) :
    ∃ bits, s.holdsStream bits := by
  cases hb : s.streamBytes with
  | some bytes => exact ⟨_, holdsStream_of_streamBytes hb⟩
  | none =>
    obtain ⟨j, hj, hnone⟩ := streamBytes_eq_none.1 hb
    exact absurd hnone (h j hj)

/-! ### The decode phase -/

section
variable {s : State} {total : Nat} {bits : BitString} (hne : s.bitCnt ≠ 0#32) (hstream : s.holdsStream bits)
include hne hstream

/-- On a valid tree, where the stream decodes to the total's count or not at all, the decode phase is DECODE (R186, R204). -/
theorem decodePhase_eq_opDecode (hcap : s.bitCnt.toNat ≤ 8 * s.cfg.capBbuf) (hvalid : s.status.treeValid = true)
    (hcount : ∀ out, decodeBits s.nodes s.root bits = .ok out → out.length = total) :
    decodePhase total s = opDecode s := by
  obtain ⟨bytes, hbytes, rfl⟩ := hstream.exists_bytes
  rw [decodePhase, opDecode, if_neg hcap.not_gt, if_neg hne, if_neg hne, if_pos hvalid, hbytes]
  cases hbits : decodeBits s.nodes s.root (streamBits bytes s.bitCnt.toNat) with
  | error start => simp only [hbits]
  | ok out => simp [hbits, hcount out hbits]

/-- A stream that decodes to another count is refused with that count (R205). -/
theorem decodePhase_eq_mismatch {out : List Byte} (hbits : decodeBits s.nodes s.root bits = .ok out)
    (hcount : out.length ≠ total) :
    decodePhase total s =
      .raised s 0x07#8 .corruptFrequencyMap (corruptInfo 2#4 (BitVec.ofNat 28 out.length)) := by
  obtain ⟨bytes, hbytes, rfl⟩ := hstream.exists_bytes
  rw [decodePhase, if_neg hne, hbytes]
  simp only [hbits]
  exact if_pos hcount

end

/-! ### The ends of DECOMPRESS -/

theorem freqSum_eq_zero_iff {s : State} : s.freqSum = 0 ↔ ∀ v, entryAt s.freq v = 0#32 := by
  rw [freqSum_eq, List.sum_eq_zero_iff]
  simp [BitVec.toNat_eq]

/-- ERR_INFO for a count that fits DETAIL (R205, R221). -/
theorem corruptInfo_count {n : Nat} (h : n < 2 ^ 28) :
    corruptInfo 2#4 (BitVec.ofNat 28 n) = 0x20000000#32 + BitVec.ofNat 32 n := by
  apply BitVec.eq_of_toNat_eq
  rw [toNat_corruptInfo]
  simp only [BitVec.toNat_add, BitVec.toNat_ofNat]
  omega

/-- BUILD's commit keeps what the decode phase reads and writes (R157). -/
theorem Commit.keeps_codec_of_build {s a : State} (h : Commit .build s a) :
    a.cfg = s.cfg ∧ a.bitCnt = s.bitCnt ∧ a.outLen = s.outLen ∧ a.mem = s.mem ∧ a.status.err = s.status.err := by
  cases h
  exact ⟨rfl, rfl, rfl, rfl, rfl⟩

theorem Commit.ctabValid_of_build {s a : State} (h : Commit .build s a) : a.status.ctabValid = false := by
  cases h
  rfl

theorem Commit.holdsStream_of_build {s a : State} (h : Commit .build s a) {bits : BitString} :
    a.holdsStream bits ↔ s.holdsStream bits := by
  cases h
  exact Iff.rfl

section
variable {s a : State} (hbuild : opBuild s = .done a) (hcap : s.bitCnt.toNat ≤ 8 * s.cfg.capBbuf)
include hbuild hcap

/-- Where BUILD commits and BIT_CNT is within BBUF, DECOMPRESS is the decode phase after BUILD (R204). -/
theorem opDecompress_eq_decodePhase : opDecompress s = decodePhase s.freqSum a := by
  cases commit_of_opBuild_eq_done hbuild with
  | build _ hneg hsome =>
    obtain ⟨v, hv⟩ := List.exists_mem_of_ne_nil _ hsome
    have hsum : s.freqSum ≠ 0 := fun hzero => mem_presentSymbols.1 hv (freqSum_eq_zero_iff.1 hzero v)
    rw [opDecompress, if_neg hcap.not_gt, hneg]
    simp only [if_neg hsum, hbuild, OpOut.done_andThen]

variable (hne : s.bitCnt ≠ 0#32) {bits : BitString} (hstream : s.holdsStream bits)
include hne hstream

/-- DECOMPRESS of a stream that decodes to as many bytes as the frequencies sum to, or not at all, ends as DECODE does on
BUILD's tree (R204, R205). -/
theorem exec_decompress_eq_decode
    (hcount : ∀ out, decodeBits a.nodes a.root bits = .ok out → out.length = s.freqSum) :
    exec .decompress s = exec .decode a := by
  have hcommit := commit_of_opBuild_eq_done hbuild
  obtain ⟨-, hvalid⟩ := hcommit.treeInv_of_build
  obtain ⟨hcfg, hcnt, -⟩ := hcommit.keeps_codec_of_build
  have hphase : decodePhase s.freqSum a = opDecode a :=
    decodePhase_eq_opDecode (hcnt ▸ hne) (hcommit.holdsStream_of_build.2 hstream) (by rwa [hcnt, hcfg]) hvalid hcount
  exact congrArg OpOut.complete ((opDecompress_eq_decodePhase hbuild hcap).trans hphase)

/-- DECOMPRESS of a stream that decodes to another count than the frequencies sum to (R205). -/
theorem exec_decompress_eq_mismatch {out : List Byte} (hbits : decodeBits a.nodes a.root bits = .ok out)
    (hcount : out.length ≠ s.freqSum) :
    exec .decompress s =
      .next (a.completeErr 0x07#8 .corruptFrequencyMap (corruptInfo 2#4 (BitVec.ofNat 28 out.length))) := by
  have hcommit := commit_of_opBuild_eq_done hbuild
  obtain ⟨-, hcnt, -⟩ := hcommit.keeps_codec_of_build
  rw [exec_eq_complete, opOf, opDecompress_eq_decodePhase hbuild hcap,
    decodePhase_eq_mismatch (hcnt ▸ hne) (hcommit.holdsStream_of_build.2 hstream) hbits hcount, OpOut.complete_raised]

/-- How DECOMPRESS of a written stream ends after BUILD: in one of three errors, or with the decoded bytes, as many as the
frequencies sum to, committed (R204, R205). -/
theorem exec_decompress_cases :
    (∃ op cause info, (cause = .truncatedStream ∨ cause = .corruptFrequencyMap ∨ cause = .outputOverflow) ∧
        exec .decompress s = .next (a.completeErr op cause info)) ∨
      ∃ out, decodeBits a.nodes a.root bits = .ok out ∧ out.length = s.freqSum ∧ out.length ≤ s.cfg.capObuf ∧
        exec .decompress s = .next (a.commitOutput out).completeOk := by
  have hcommit := commit_of_opBuild_eq_done hbuild
  obtain ⟨-, hvalid⟩ := hcommit.treeInv_of_build
  obtain ⟨hcfg, hcnt, -⟩ := hcommit.keeps_codec_of_build
  have hstreama := hcommit.holdsStream_of_build.2 hstream
  have hnea : a.bitCnt ≠ 0#32 := hcnt ▸ hne
  have hcapa : a.bitCnt.toNat ≤ 8 * a.cfg.capBbuf := by rwa [hcnt, hcfg]
  have hdecode : _ → exec .decompress s = (opDecode a).complete := exec_decompress_eq_decode hbuild hcap hne hstream
  cases hbits : decodeBits a.nodes a.root bits with
  | error start =>
    rw [hbits, opDecode_eq_truncatedStream hcapa hnea hvalid hstreama hbits] at hdecode
    exact .inl ⟨_, _, _, .inl rfl, hdecode nofun⟩
  | ok out =>
    by_cases hcount : out.length = s.freqSum
    · rw [hbits, opDecode_eq_emitOutput hcapa hnea hvalid hstreama hbits] at hdecode
      have hend := hdecode fun out' hout => Except.ok.inj hout ▸ hcount
      rcases emitOutput_cases a out with ⟨-, ho⟩ | ⟨hfit, ho⟩ <;> rw [ho] at hend
      · exact .inl ⟨_, _, _, .inr (.inr rfl), hend⟩
      · exact .inr ⟨out, rfl, hcount, hcfg ▸ hfit, hend⟩
    · exact .inl ⟨_, _, _, .inr (.inl rfl), exec_decompress_eq_mismatch hbuild hcap hne hstream hbits hcount⟩

end

/-! ### The statements on the stream and the checks -/

/-- Settles O57: the decode phase is DECODE on BUILD's tree, whose ends are known, unless the count differs. -/
theorem decompressDecodesAndChecksTotal : Obligations.DecompressDecodesAndChecksTotal := by
  intro s b bits out start hwf _ hexec herrb hne hcap hstream
  obtain ⟨-, a, hbuild, rfl⟩ := exec_succeeds hexec herrb
  have hcommit := commit_of_opBuild_eq_done hbuild
  obtain ⟨htree, hvalid⟩ := hcommit.treeInv_of_build
  obtain ⟨hcfg, hcnt, -, hmem, -⟩ := hcommit.keeps_codec_of_build
  obtain ⟨hnodes, -⟩ := htree.valid hvalid
  have hstreama := hcommit.holdsStream_of_build.2 hstream
  have hnea : a.bitCnt ≠ 0#32 := hcnt ▸ hne
  have hcapa : a.bitCnt.toNat ≤ 8 * a.cfg.capBbuf := by rwa [hcnt, hcfg]
  have hdecode := exec_decompress_eq_decode hbuild hcap hne hstream
  refine ⟨fun hdecodes hcount hfit => ?_, fun hdecodes hcount hlong => ?_, fun hdecodes hcount => ?_, fun hends => ?_⟩
  · have hbits := hnodes.decodeBits_eq_ok hdecodes
    obtain ⟨t, he, ht⟩ := decodeWalksTree a bits out htree hvalid hnea hcapa hstreama hdecodes (by rwa [hcfg])
    exact ⟨t, (hdecode fun out' hout => Except.ok.inj (hbits.symm.trans hout) ▸ hcount).trans he, hmem ▸ ht⟩
  · have hbits := hnodes.decodeBits_eq_ok hdecodes
    obtain ⟨-, -, hends⟩ := decodeErrors a
    obtain ⟨-, -, hoverflow⟩ := hends hcapa hnea
    exact (hdecode fun out' hout => Except.ok.inj (hbits.symm.trans hout) ▸ hcount).trans
      (hoverflow bits out htree hvalid hstreama hdecodes (by rwa [hcfg]))
  · have hmismatch := exec_decompress_eq_mismatch hbuild hcap hne hstream (hnodes.decodeBits_eq_ok hdecodes) hcount
    have hle : out.length ≤ s.bitCnt.toNat := hstream.1 ▸ hdecodes.length_le
    have hbbuf : s.cfg.capBbuf ≤ 0x100000 := Buffer.cap_le hwf .bbuf
    rwa [corruptInfo_count (by omega)] at hmismatch
  · have hbits := hnodes.decodeBits_eq_error hends
    exact (hdecode fun out' hout => nomatch hbits.symm.trans hout).trans
      (decodeDetectsTruncation a bits start htree hvalid hcapa hstreama hends)

/-- Settles O59: the checks in their order, the empty payload, and the decode phase of an empty or unwritten stream. -/
theorem decompressEmptyAndErrors : Obligations.DecompressEmptyAndErrors := by
  intro s
  refine ⟨fun hlarge => congrArg OpOut.complete (if_pos hlarge), fun hcap => ⟨fun v hv hleast => ?_, fun hzero => ?_,
    fun b _ hexec herrb => ?_⟩⟩
  · rw [exec_eq_complete, opOf, opDecompress, if_neg hcap.not_gt, firstNegative_eq_some hv hleast, ← corruptInfo_negative]
    rfl
  · have hnone : firstNegative s.freq = none := firstNegative_eq_none.2 fun v => by simp [hzero v]
    have hsum : s.freqSum = 0 := freqSum_eq_zero_iff.2 hzero
    refine ⟨fun hempty => ?_, fun hne => ?_⟩ <;>
      rw [exec_eq_complete, opOf, opDecompress, if_neg hcap.not_gt, hnone]
    · simp only [if_pos hsum, if_pos hempty]
      rfl
    · simp only [if_pos hsum, if_neg hne]
      rfl
  · obtain ⟨-, a, hbuild, rfl⟩ := exec_succeeds hexec herrb
    have hcommit := commit_of_opBuild_eq_done hbuild
    obtain ⟨-, hvalid⟩ := hcommit.treeInv_of_build
    obtain ⟨hcfg, hcnt, -, hmem, -⟩ := hcommit.keeps_codec_of_build
    refine ⟨fun hempty => ?_, fun hne hunwritten => ?_⟩
    · rw [exec_eq_complete, opOf, opDecompress_eq_decodePhase hbuild hcap, decodePhase, if_pos (hcnt.trans hempty)]
      rfl
    · have hnone : s.streamBytes = none := streamBytes_eq_none.2 hunwritten
      have hnonea : a.streamBytes = none := by rwa [State.streamBytes, hmem, hcnt]
      rw [exec_eq_complete, opOf, opDecompress_eq_decodePhase hbuild hcap, decodePhase, if_neg (hcnt ▸ hne), hnonea]
      rfl

/-! ### One present symbol -/

theorem presentSymbols_eq_singleton {freq : Vector Word 256} {v : Byte} (hv : entryAt freq v ≠ 0#32)
    (hothers : ∀ u, u ≠ v → entryAt freq u = 0#32) : presentSymbols freq = [v] := by
  refine List.perm_singleton.1 ((List.perm_ext_iff_of_nodup (nodup_presentSymbols freq) (List.nodup_singleton v)).2 ?_)
  intro u
  rw [mem_presentSymbols, List.mem_singleton]
  refine ⟨fun hu => ?_, fun hu => hu ▸ hv⟩
  by_contra hne
  exact hu (hothers u hne)

/-- The tree made of one symbol is its leaf (R153, R154). -/
theorem BuiltFrom.root_leaf_of_singleton {nodes : Vector Node 512} {freq : Vector Word 256} {root : NodeIx} {v : Byte}
    (h : BuiltFrom nodes freq) (hroot : root.toNat = 2 * (presentSymbols freq).length - 2)
    (hsingle : presentSymbols freq = [v]) : ∃ f, nodeAt nodes root = .leaf v f := by
  have hleaf := h.leaf root.toNat (by simp [hroot, hsingle])
  rw [nodeNo_toNat] at hleaf
  have hsym : ∀ hj, (presentSymbols freq)[root.toNat]'hj = v := by simp [hsingle]
  exact ⟨_, hsym _ ▸ hleaf⟩

/-- DECOMPRESS with one present symbol, whose count is BIT_CNT and fits OBUF, gives as many copies of it (R188, R204). -/
theorem decompress_of_one_symbol {s t : State} {v : Byte} (hwf : s.cfg.wellFormed = true) (herr : s.status.err = false)
    (hneg : ∀ v, (entryAt s.freq v).msb = false) (hne : s.bitCnt ≠ 0#32) (hcap : s.bitCnt.toNat ≤ 8 * s.cfg.capBbuf)
    {bits : BitString} (hstream : s.holdsStream bits) (hothers : ∀ u, u ≠ v → entryAt s.freq u = 0#32)
    (hv : s.bitCnt = entryAt s.freq v) (hroom : s.bitCnt.toNat ≤ s.cfg.capObuf) (hexec : exec .decompress s = .next t) :
    t.status.err = false ∧ t.outLen = s.bitCnt ∧ ∀ i, i < s.bitCnt.toNat → t.bufByte .obuf i = some v := by
  have hsingle := presentSymbols_eq_singleton (hv ▸ hne) hothers
  obtain ⟨a, hbuild, hcommit, -, -, hroot, hbuilt⟩ := opBuild_commits_built hneg (by simp [hsingle])
  obtain ⟨f, hleaf⟩ := hbuilt.root_leaf_of_singleton hroot hsingle
  obtain ⟨-, -, -, -, herra⟩ := hcommit.keeps_codec_of_build
  have hlen : (List.replicate bits.length v).length = s.bitCnt.toNat := by rw [List.length_replicate, hstream.1]
  have hcount : s.bitCnt.toNat = s.freqSum := by
    rw [← tableSum_freq, ← sum_presentSymbols, hsingle, hv]
    simp
  obtain ⟨hdone, -⟩ := decompressDecodesAndChecksTotal s a.completeOk bits (List.replicate bits.length v) 0 hwf herr
    (congrArg OpOut.complete hbuild) (herra.trans herr) hne hcap hstream
  obtain ⟨t', hexec', ht, hout, hbytes, -⟩ :=
    hdone (.inl ⟨v, f, hleaf, rfl⟩) (hlen.trans hcount) (hlen ▸ hroom)
  cases hexec.symm.trans hexec'
  refine ⟨?_, BitVec.eq_of_toNat_eq (hout.trans hlen), fun i hi => ?_⟩
  · rw [ht]
    exact herra.trans herr
  · rw [hbytes i (by rw [hlen, ceilDiv]; omega)]
    rw [← hstream.1] at hi
    simp [hi]

/-- Settles O58: of the ends of DECOMPRESS, success leaves decoded symbols, which are present, and an error keeps OBUF and
OUT_LEN; where one symbol is present that end is success. -/
theorem decompressCompletes : Obligations.DecompressCompletes := by
  intro s hwf herr hneg ⟨u, hu⟩ hne hcap hwritten
  have hobuf : s.cfg.capObuf ≤ 0x100000 := Buffer.cap_le hwf .obuf
  obtain ⟨a, hbuild, hcommit, -, hvalid, hroot, hbuilt⟩ :=
    opBuild_commits_built hneg (List.ne_nil_of_mem (mem_presentSymbols.2 hu))
  obtain ⟨-, -, hout, hmem, herra⟩ := hcommit.keeps_codec_of_build
  have hnocodes := hcommit.ctabValid_of_build
  obtain ⟨bits, hstream⟩ := exists_holdsStream hwritten
  rcases exec_decompress_cases hbuild hcap hne hstream with
    ⟨op, cause, info, hcause, hexec⟩ | ⟨out, hbits, hcount, hfit, hexec⟩
  · refine ⟨_, hexec, hvalid, hnocodes, .inr ⟨rfl, ?_, hout, hmem⟩, fun v hothers hv hroom =>
      decompress_of_one_symbol hwf herr hneg hne hcap hstream hothers hv hroom hexec⟩
    rcases hcause with rfl | rfl | rfl
    · exact .inl rfl
    · exact .inr (.inl rfl)
    · exact .inr (.inr rfl)
  · have hlen : (a.commitOutput out).outLen.toNat = out.length := toNat_outLen_commitOutput a (by omega)
    refine ⟨_, hexec, hvalid, hnocodes, .inl ⟨herra.trans herr, hlen.trans hcount, fun i hi => ?_⟩,
      fun v hothers hv hroom => decompress_of_one_symbol hwf herr hneg hne hcap hstream hothers hv hroom hexec⟩
    have hi' : i < out.length := hlen ▸ hi
    refine ⟨out[i], ?_, mem_presentSymbols.1
      (hbuilt.mem_presentSymbols_of_mem_decodeBits hroot hbits (List.getElem_mem hi'))⟩
    exact (bufByte_commitOutput a (by rw [ceilDiv]; omega)).trans (by simp [hi'])

end Sys2Proof.Machine
end

section
/-! DECOMPRESS after COMPRESS (R207): the payload that a successful COMPRESS leaves gives back the input. O60. -/

namespace Sys2Proof.Machine

/-- The tree that BUILD makes is a matter of FREQ alone (R150). -/
theorem exists_opBuild_eq_done_of_freq_eq {s u a : State} (h : opBuild s = .done a) (hfreq : u.freq = s.freq) :
    ∃ c, opBuild u = .done c ∧ c.nodes = a.nodes ∧ c.root = a.root := by
  cases commit_of_opBuild_eq_done h with
  | build _ hneg hsome =>
    rw [← hfreq] at hneg hsome ⊢
    rcases opBuild_cases u with ⟨v, hv, -⟩ | ⟨-, hempty, -⟩ | ⟨-, -, ho⟩
    · simp [hneg] at hv
    · exact absurd hempty hsome
    · exact ⟨_, ho, rfl, rfl⟩

/-- What a COMPRESS without error of a non-empty input leaves: the input's counts, and in BBUF a stream that decodes to the
input under the tree that BUILD makes of those counts (R181, R200, R207). -/
theorem exec_compress_succeeds {s t : State} (hwf : s.cfg.wellFormed = true) (hne : s.inLen ≠ 0#32)
    (hexec : exec .compress s = .next t) (herr : t.status.err = false) :
    ∃ input bits a, s.holdsInput input ∧ t.freq = countTable input ∧
      opBuild { s with freq := countTable input } = .done a ∧ decodesTo a.nodes a.root bits input ∧ t.holdsStream bits ∧
      bits.length ≤ 8 * s.cfg.capBbuf := by
  have hibuf : s.cfg.capIbuf ≤ 0x100000 := Buffer.cap_le hwf .ibuf
  have hbbuf : s.cfg.capBbuf ≤ 0x100000 := Buffer.cap_le hwf .bbuf
  obtain ⟨-, c, ho, -⟩ := exec_succeeds hexec herr
  rw [opOf] at ho
  rcases opCompress_cases s with ⟨hraised, -⟩ | ⟨hfault, -⟩ | ⟨input, hle, hinput, -⟩
  · rw [hraised] at ho; cases ho
  · rw [hfault] at ho; cases ho
  · rw [inputBytes_eq_some] at hinput
    obtain ⟨b, code, hencode, hb⟩ := opCompress_eq_opEncode hle (by omega) hne hinput
    obtain ⟨a, hbuild, hnodes, hroot⟩ := hb.built
    have hexecb : exec .encode b = .next t := (congrArg OpOut.complete hencode).symm.trans hexec
    rcases exec_encode_succeeds hexecb herr with ⟨hzero, -⟩ | ⟨input', code', -, hinput', hcoded, hfit, rfl⟩
    · exact absurd (hb.inLen.symm.trans hzero) hne
    · obtain rfl : input' = input := Option.some.inj
        ((inputBytes_eq_some.2 hinput').symm.trans (inputBytes_eq_some.2 (hb.holdsInput hinput)))
      rw [hb.cfg] at hfit
      refine ⟨input', input'.flatMap code', a, hinput, hb.freq, hbuild, ?_, ?_, hfit⟩
      · rw [← hnodes, ← hroot]
        exact decodesTo_flatMap_codes fun v hv => (hb.exact v _).1 (hcoded v hv)
      · exact commitStream_holdsStream b (by omega)

/-- The empty input round-trips: its payload is the empty one (R201, R206, R207). -/
theorem decompress_of_empty_compress {s t u : State} (hzero : s.inLen = 0#32) (hexec : exec .compress s = .next t)
    (hfreq : u.freq = t.freq) (hcnt : u.bitCnt = t.bitCnt) :
    exec .decompress u = .next { u.completeOk.invalidateTree with outLen := 0#32 } := by
  obtain ⟨hempty, -⟩ := compressEmptyAndErrors s
  obtain ⟨t', hexec', ht, hcounts⟩ := hempty hzero
  cases hexec.symm.trans hexec'
  have hcnt0 : u.bitCnt = 0#32 := by rw [hcnt, ht]
  obtain ⟨-, hchecks⟩ := decompressEmptyAndErrors u
  obtain ⟨-, hpayload, -⟩ := hchecks (by simp [hcnt0])
  obtain ⟨hdone, -⟩ := hpayload (hfreq ▸ hcounts)
  exact hdone hcnt0

/-- Settles O60: DECOMPRESS builds the tree that COMPRESS encoded with, so that the stream decodes to the input, and the
frequencies sum to its length. -/
theorem roundTrip : Obligations.RoundTrip := by
  intro s t u hwf _ hobuf hexec herrt hcfg hfreq hcnt herru hbytes
  by_cases hzero : s.inLen = 0#32
  · exact ⟨_, decompress_of_empty_compress hzero hexec hfreq hcnt, herru, hzero.symm, fun i hi => by simp [hzero] at hi⟩
  · obtain ⟨input, bits, a, ⟨hlen, hbyte⟩, htfreq, hbuilda, hdecodes, hstreamt, hfit⟩ :=
      exec_compress_succeeds hwf hzero hexec herrt
    have hcap : s.cfg.capObuf ≤ 0x100000 := Buffer.cap_le hwf .obuf
    obtain ⟨c, hbuild, hnodes, hroot⟩ :=
      exists_opBuild_eq_done_of_freq_eq (u := u) hbuilda (hfreq.trans htfreq)
    obtain ⟨-, -, -, -, herrc⟩ := (commit_of_opBuild_eq_done hbuild).keeps_codec_of_build
    have hstream : u.holdsStream bits := hstreamt.congr hcnt hbytes
    have hle : input.length ≤ u.bitCnt.toNat := hstream.1 ▸ hdecodes.length_le
    have hne : u.bitCnt ≠ 0#32 := fun h0 => hzero (BitVec.eq_of_toNat_eq (by simpa [h0, hlen] using hle))
    obtain ⟨hdone, -⟩ := decompressDecodesAndChecksTotal u c.completeOk bits input 0 (hcfg ▸ hwf) herru
      (congrArg OpOut.complete hbuild) (herrc.trans herru) hne (by rwa [← hstream.1, hcfg]) hstream
    have hsum : u.freqSum = input.length := freqSum_countTable (hfreq.trans htfreq) (by omega)
    obtain ⟨w, hexecw, hw, hout, hobytes, -⟩ :=
      hdone (by simpa [hnodes, hroot] using hdecodes) hsum.symm (by rwa [hcfg, hlen])
    refine ⟨w, hexecw, ?_, BitVec.eq_of_toNat_eq (hout.trans hlen), fun i hi => ?_⟩
    · rw [hw]
      exact herrc.trans herru
    · rw [← hlen] at hi
      rw [hobytes i (by rw [ceilDiv]; omega), hbyte i hi]
      simp [hi]

end Sys2Proof.Machine
end

section
/-! The command words R95 lists, and the control commands NOP and CLEAR (R210 to R212): O1, O35, O36. -/

namespace Sys2Proof.Machine

/-- Settles O1: the words 0x00 to 0x08 are the commands' own; the other three have an opcode above 0x08 or a reserved bit. -/
theorem commandWordsDecode : Obligations.CommandWordsDecode :=
  ⟨decode_encode .nop, decode_encode .count, decode_encode .build, decode_encode .codes, decode_encode .encode,
    decode_encode .decode, decode_encode .compress, decode_encode .decompress, decode_encode .clear,
    decode_bad (.inr (by decide)), decode_bad (.inl (by decide)), decode_bad (.inl (by decide))⟩

/-- Settles O35: NOP is the completion of an operation that commits the state as it was. -/
theorem nopCompletes : Obligations.NopCompletes := by
  intro s
  rw [exec_eq_complete, opOf, OpOut.complete, State.completeOk, Status.completedOk]

/-- FREQ, NODE and CTAB after CLEAR read as zero at every index (R212, R128). -/
theorem tables_cleared (s : State) :
    (∀ v, entryAt s.cleared.freq v = 0#32) ∧ (∀ i, nodeAt s.cleared.nodes i = Node.zero) ∧
      (∀ v, entryAt s.cleared.ctab v = none) :=
  ⟨entryAt_replicate 0#32, nodeAt_replicate Node.zero, entryAt_replicate none⟩

/-- Settles O36: CLEAR is the completion of its writes, which leave the three tables zero. -/
theorem clearCompletes : Obligations.ClearCompletes := by
  intro s
  have hexec : exec .clear s = .next s.cleared.completeOk := exec_eq_complete .clear s
  exact ⟨s.cleared.completeOk, hexec, rfl, tables_cleared s⟩

end Sys2Proof.Machine
end

section
/-! Reset while the machine runs (R250, R251): O25. -/

namespace Sys2Proof.Machine

/-- A host line `rst` is the reset event after the host's program has moved on (R250). -/
theorem hostStep_rst {s : State} {rest : List HostOp} (hhost : s.host = .rst :: rest) :
    hostStep s = .next (s.hostAdvance rest).resetEvent := by
  simp [hostStep, hhost]

/-- Without a fault mark, the reset event keeps the parameters, the host's program and record and the draw counter, and takes
every other field, the command in flight with them, to its reset value (R250, R251, log 7). -/
theorem State.resetEvent_of_unmarked {s : State} (hmark : s.faultMark = none) :
    s.resetEvent = { State.reset with cfg := s.cfg, host := s.host, busLog := s.busLog, draws := s.draws } := by
  rw [State.resetEvent, hmark]
  rfl

/-- Settles O25: the host is to move and its line is `rst`; moving on changes only the program and the delay, and the reset
event keeps the one and clears the other. -/
theorem resetEvent : Obligations.ResetEvent := by
  intro s rest hmark hturn hhost
  have hadvanced : (s.hostAdvance rest).faultMark = none := (s.hostAdvance_faultMark rest).trans hmark
  rw [step_eq_hostStep hmark hturn hhost, hostStep_rst hhost, State.resetEvent_of_unmarked hadvanced,
    State.hostAdvance_cfg, State.hostAdvance_host, State.hostAdvance_busLog, State.hostAdvance_draws]

end Sys2Proof.Machine
end
